-- ==== Sys2Proof/Word.lean ====
section
/-! DEFINITION. The word types of the block (00_scope.md R7, 10_state.md R18, R25). -/

namespace Sys2Proof

/-- An 8-bit unsigned byte (R7, R18). -/
abbrev Byte := BitVec 8

/-- A 16-bit unsigned register word (R7, R18). -/
abbrev Word16 := BitVec 16

/-- A 32-bit value: a module identifier (R50) or the bit pattern of an `f32` (R22). -/
abbrev Word32 := BitVec 32

/-- A bit address: register number in bits [15:4], bit number in bits [3:0] (R18, R74). -/
abbrev BitAddress := BitVec 16

/-- A frame's sequence counter; `CNT_W` is 8 bits (R9, R25). -/
abbrev Counter := BitVec 8

end Sys2Proof
end

