-- ==== Sys2Proof/Syntax.lean ====
section
/-! DEFINITION. The value types operations carry (10_state.md section 1), the opcode map
(30_encoding.md R72) and the instructions: one constructor of `Instr` per row of the opcode table. -/

namespace Sys2Proof

/-- A module type: an abstract value of the parameter `CODECS` (R13), carried as a handle. -/
structure ModuleType where
  handle : Nat
deriving DecidableEq, Repr, Inhabited

/-- A codec instance: an abstract value of the parameter `CODECS` (R11, R13), an opaque handle at the
command port (R86). -/
structure CodecInst where
  handle : Nat
deriving DecidableEq, Repr, Inhabited

/-- The frequency-counter sample, whose fields no source gives: an opaque value the block only moves
(R22; 93_implementation_defined.md U7). -/
structure OpaqueSample where
  handle : Nat
deriving DecidableEq, Repr, Inhabited

/-- A module's input and output bit addresses; `none` means the module has no such process data (R20). -/
structure ModuleOffset where
  input : Option BitAddress
  output : Option BitAddress
deriving DecidableEq, Repr, Inhabited

/-- The 0-based locator of one channel (R21); indices are unbounded naturals (R9). -/
structure Address where
  module : Nat
  channel : Nat
deriving DecidableEq, Repr, Inhabited

/-- The decoded input half of a tunnel module's window (R23). -/
structure FrameIn where
  dataAvailable : Bool
  bufferNearlyFull : Bool
  ready : Bool
  rxCnt : Counter
  txCntAck : Counter
  data : List Byte
deriving DecidableEq, Repr, Inhabited

/-- The decoded output half of a tunnel module's window (R24). -/
structure FrameOut where
  active : Bool
  reset : Bool
  rxBufFlush : Bool
  txBufFlush : Bool
  txCnt : Counter
  rxCntAck : Counter
  data : List Byte
deriving DecidableEq, Repr, Inhabited

/-- A channel value, exactly one variant active at a time (R22). -/
inductive ChannelValue where
  | none
  | bit (b : Bool)
  /-- The 32-bit pattern of an `f32`; the block never computes on it (R22, U8). -/
  | decimal32 (f : Word32)
  | bytes (bs : List Byte)
  | tunnelIn (fi : FrameIn)
  | tunnelOut (fo : FrameOut)
  | freqSample (x : OpaqueSample)
  | disabled
deriving DecidableEq, Repr, Inhabited

/-- The two frame formats, 8 bytes and 16 bytes; no other frame size exists (R26). -/
inductive FrameLen where
  | len8
  | len16
deriving DecidableEq, Repr, Inhabited

/-- The 19 operations of the opcode map (R72). -/
inductive Opcode where
  | baSplit | baJoin | baOffsets | baModlist
  | mapDecodeIn | mapDecodeOut | mapEncode
  | seqNew | seqNext | seqWrite | seqRead
  | cplNew | cplIsValidAddr | cplSetOutput | cplNext | cplInputs | cplOutputs | cplReader | cplWriter
deriving DecidableEq, Repr, Inhabited

/-- An operation with its operand record (R72), one constructor per row of the opcode table. -/
inductive Instr where
  | baSplit (addr : Word16)
  | baJoin (register bit : Nat)
  | baOffsets (flat : List Word16)
  | baModlist (regs : List Word16)
  | mapDecodeIn (mods : List (CodecInst × ModuleOffset)) (baseAddr : Word16) (data : List Word16)
  | mapDecodeOut (mods : List (CodecInst × ModuleOffset)) (baseAddr : Word16) (data : List Word16)
  | mapEncode (mods : List (CodecInst × ModuleOffset)) (baseAddr : Word16)
      (values : List (List ChannelValue))
  | seqNew (key frameLen : Nat)
  | seqNext (key : Nat) (input : FrameIn) (output : FrameOut)
  | seqWrite (key : Nat) (bytes : List Byte)
  | seqRead (key : Nat)
  | cplNew (types : List ModuleType) (params : List (List Word16)) (offsets : List Word16)
  | cplIsValidAddr (addr : Address)
  | cplSetOutput (addr : Address) (value : ChannelValue)
  | cplNext (processInput processOutput : List Word16)
  | cplInputs
  | cplOutputs
  | cplReader (module : Nat)
  | cplWriter (module : Nat) (bytes : List Byte)
deriving DecidableEq, Repr, Inhabited

/-- The operation of an instruction. -/
def Instr.opcode : Instr → Opcode
  | .baSplit _ => .baSplit
  | .baJoin _ _ => .baJoin
  | .baOffsets _ => .baOffsets
  | .baModlist _ => .baModlist
  | .mapDecodeIn _ _ _ => .mapDecodeIn
  | .mapDecodeOut _ _ _ => .mapDecodeOut
  | .mapEncode _ _ _ => .mapEncode
  | .seqNew _ _ => .seqNew
  | .seqNext _ _ _ => .seqNext
  | .seqWrite _ _ => .seqWrite
  | .seqRead _ => .seqRead
  | .cplNew _ _ _ => .cplNew
  | .cplIsValidAddr _ => .cplIsValidAddr
  | .cplSetOutput _ _ => .cplSetOutput
  | .cplNext _ _ => .cplNext
  | .cplInputs => .cplInputs
  | .cplOutputs => .cplOutputs
  | .cplReader _ => .cplReader
  | .cplWriter _ _ => .cplWriter

/-- A request at the command port: the 8-bit command word, then the operand record (R6, R68, R69).
R69 gives a scalar field as a natural number of its width and a list field as a length followed by
its elements; the record is kept here as that sequence of naturals (assumption log 1). -/
structure Request where
  word : BitVec 8
  operands : List Nat
deriving DecidableEq, Repr, Inhabited

/-- Why a sequence of naturals is no operand record of its operation: the request does not exist in
the spec's typed form (R69; assumption log 2). -/
inductive Malformed where
  /-- A field is missing. -/
  | truncated
  /-- A scalar does not fit the width R72 or R82 gives its field. -/
  | scalarTooWide
  /-- A boolean field, or the presence field of an optional one, is neither 0 nor 1. -/
  | notABool
  /-- Fields are left after the record's last one. -/
  | trailing
deriving DecidableEq, Repr, Inhabited

/-- Why the decoder does not read an instruction from a request. -/
inductive Reject where
  /-- A reserved command word (R73); answered with `IllegalCommand`. -/
  | reservedWord
  /-- A channel-value tag from 8 to 15 (R82, R180); answered with `ChannelValue`. -/
  | reservedTag
  /-- No operand record of the operation (assumption log 2); the model refuses it. -/
  | malformed (why : Malformed)
deriving DecidableEq, Repr, Inhabited

end Sys2Proof
end

