-- ==== Sys2Proof/Config.lean ====
section
/-! DEFINITION. The parameters of the model: the constants of 00_scope.md R8, the codec family R13
leaves to the platform, and the one value the spec leaves unspecified. -/

namespace Sys2Proof

/-- The size in bytes of a frame format (R26). -/
def FrameLen.bytes : FrameLen → Nat
  | .len8 => 8
  | .len16 => 16

/-- The payload capacity of a frame format: 6 for the 8-byte format, 14 for the 16-byte format (R26). -/
def FrameLen.userDataLen : FrameLen → Nat
  | .len8 => 6
  | .len16 => 14

/-- The frame format of a size in bytes; no size but 8 and 16 exists (R26). -/
def FrameLen.ofBytes (n : Nat) : Option FrameLen :=
  if n = 8 then some .len8 else if n = 16 then some .len16 else none

/-- The error codes a codec function may return, 1 to 10 of the taxonomy (R162, R164). -/
inductive CodecError where
  | bufferLength | channelParameter | channelValue | sequenceNumber | dataLength
  | moduleOffset | address | registerCount | unknownModule | unknownCategory
deriving DecidableEq, Repr, Inhabited

/-- The parameter `CODECS` with `KNOWN_MODULES` as `typeOfId` (R13): pure total functions over the
abstract types `ModuleType` and `CodecInst` (R11), the decode and encode functions fallible (R12). -/
structure Codecs where
  fromParameters : ModuleType → List Word16 → Except CodecError CodecInst
  moduleType : CodecInst → ModuleType
  channelCount : CodecInst → Nat
  inputByteCount : CodecInst → Nat
  outputByteCount : CodecInst → Nat
  decodeInput : CodecInst → List Word16 → Except CodecError (List ChannelValue)
  decodeOutput : CodecInst → List Word16 → Except CodecError (List ChannelValue)
  encodeOutput : CodecInst → List ChannelValue → Except CodecError (List Word16)
  tunnelFrameLen : CodecInst → Option FrameLen
  typeOfId : Word32 → Option ModuleType
deriving Inhabited

/-- The station's own codec family, an open parameter (R9, R13; 93_implementation_defined.md U1, U2):
uninterpreted, so that nothing can be proved of what a codec does (assumption log 7). -/
opaque Config.codecs : Codecs

/-- The value `last_rx_cnt` holds from construction to the Reset step, which the spec leaves
unspecified (R31, R45, U3): the free value of draw number `n` (assumption log 9). -/
opaque Config.freeLastRxCnt (n : Nat) : Counter

/-- `PACKED_PROCESS_INPUT_DATA`, IN_BASE (R8, R55). -/
def Config.inBase : Word16 := 0x0000

/-- `PACKED_PROCESS_OUTPUT_DATA`, OUT_BASE (R8, R55). -/
def Config.outBase : Word16 := 0x0800

/-- ABSENT, the offset sentinel (R8, R75). -/
def Config.absent : Word16 := 0xFFFF

/-- LAST_RX_SENTINEL (R8, R31). -/
def Config.lastRxSentinel : Counter := 4

/-- The largest register number a bit address names (R18, R90). -/
def Config.maxRegister : Nat := 0x0FFF

end Sys2Proof
end

