-- ==== Sys2Proof/WellFormed.lean ====
section
/-! DEFINITION. Well-formed instructions. Operand types already fix every width of 30_encoding.md R72;
what they do not fix is the payload bound 10_state.md R23 and R24 give a frame's `data`. -/

namespace Sys2Proof

/-- The largest payload any frame format carries (R26). -/
def maxUserDataLen : Nat := FrameLen.len16.userDataLen

/-- R23: `data` is at most `user_data_len` bytes. -/
def FrameIn.wellFormed (f : FrameIn) : Bool := f.data.length ≤ maxUserDataLen

/-- R24: `data` is at most `user_data_len` bytes. -/
def FrameOut.wellFormed (f : FrameOut) : Bool := f.data.length ≤ maxUserDataLen

/-- A channel value is well formed when the frame in it, if any, is (R22 to R24). -/
def ChannelValue.wellFormed : ChannelValue → Bool
  | .none => true
  | .bit _ => true
  | .decimal32 _ => true
  | .bytes _ => true
  | .tunnelIn fi => fi.wellFormed
  | .tunnelOut fo => fo.wellFormed
  | .freqSample _ => true
  | .disabled => true

/-- The checks of an instruction's operand record. The machine runs an instruction that fails them as
its rules say (R121: "whatever its length"); see assumption log 16. -/
def Instr.wellFormed : Instr → Bool
  | .baSplit _ => true
  | .baJoin _ _ => true
  | .baOffsets _ => true
  | .baModlist _ => true
  | .mapDecodeIn _ _ _ => true
  | .mapDecodeOut _ _ _ => true
  | .mapEncode _ _ values => values.all fun vs => vs.all ChannelValue.wellFormed
  | .seqNew _ _ => true
  | .seqNext _ input output => input.wellFormed && output.wellFormed
  | .seqWrite _ _ => true
  | .seqRead _ => true
  | .cplNew _ _ _ => true
  | .cplIsValidAddr _ => true
  | .cplSetOutput _ value => value.wellFormed
  | .cplNext _ _ => true
  | .cplInputs => true
  | .cplOutputs => true
  | .cplReader _ => true
  | .cplWriter _ _ => true

end Sys2Proof
end

