-- ==== Sys2Proof/Decode.lean ====
section
/-! DEFINITION. The decoder from requests to instructions and the encoder back, both written from the
opcode map and the field order of 30_encoding.md (R68 to R73, R80 to R83, R86). -/

namespace Sys2Proof

/-! ### The command word -/

/-- The `unit` field of a command word, bits [7:4] (R68). -/
def unitOf (w : BitVec 8) : BitVec 4 := w.extractLsb' 4 4

/-- The `func` field of a command word, bits [3:0] (R68). -/
def funcOf (w : BitVec 8) : BitVec 4 := w.extractLsb' 0 4

/-- The opcode map of R72, each row its unit, its func and its operation. -/
def opcodeMap : List (BitVec 4 × BitVec 4 × Opcode) :=
  [(0, 1, .baSplit), (0, 2, .baJoin), (0, 3, .baOffsets), (0, 4, .baModlist),
   (1, 1, .mapDecodeIn), (1, 2, .mapDecodeOut), (1, 3, .mapEncode),
   (2, 1, .seqNew), (2, 2, .seqNext), (2, 3, .seqWrite), (2, 4, .seqRead),
   (3, 1, .cplNew), (3, 2, .cplIsValidAddr), (3, 3, .cplSetOutput), (3, 4, .cplNext),
   (3, 5, .cplInputs), (3, 6, .cplOutputs), (3, 7, .cplReader), (3, 8, .cplWriter)]

/-- The operation a command word names; `none` for a reserved word (R72, R73). -/
def opcodeOfWord (w : BitVec 8) : Option Opcode :=
  (opcodeMap.find? fun row => row.1 == unitOf w && row.2.1 == funcOf w).map fun row => row.2.2

/-- The command word of an operation (R72). -/
def commandWord : Opcode → BitVec 8
  | .baSplit => 0x01
  | .baJoin => 0x02
  | .baOffsets => 0x03
  | .baModlist => 0x04
  | .mapDecodeIn => 0x11
  | .mapDecodeOut => 0x12
  | .mapEncode => 0x13
  | .seqNew => 0x21
  | .seqNext => 0x22
  | .seqWrite => 0x23
  | .seqRead => 0x24
  | .cplNew => 0x31
  | .cplIsValidAddr => 0x32
  | .cplSetOutput => 0x33
  | .cplNext => 0x34
  | .cplInputs => 0x35
  | .cplOutputs => 0x36
  | .cplReader => 0x37
  | .cplWriter => 0x38

/-! ### Reading the fields of an operand record

Each reader takes the fields left and answers the value read and the fields after it. -/

/-- A scalar of unbounded width (R69, R9 `IDX_W`). -/
def takeNat : List Nat → Except Reject (Nat × List Nat)
  | [] => .error (.malformed .truncated)
  | n :: ts => .ok (n, ts)

/-- A scalar of `w` bits, unsigned (R69, R80). -/
def takeBits (w : Nat) (ts : List Nat) : Except Reject (BitVec w × List Nat) := do
  let (n, ts) ← takeNat ts
  if n < 2 ^ w then .ok (BitVec.ofNat w n, ts) else .error (.malformed .scalarTooWide)

/-- A boolean field: 0 or 1. -/
def takeBool (ts : List Nat) : Except Reject (Bool × List Nat) := do
  let (n, ts) ← takeNat ts
  match n with
  | 0 => .ok (false, ts)
  | 1 => .ok (true, ts)
  | _ => .error (.malformed .notABool)

/-- `n` elements in a row. -/
def takeMany {α : Type} (f : List Nat → Except Reject (α × List Nat)) :
    Nat → List Nat → Except Reject (List α × List Nat)
  | 0, ts => .ok ([], ts)
  | n + 1, ts => do
    let (a, ts) ← f ts
    let (as, ts) ← takeMany f n ts
    .ok (a :: as, ts)

/-- A list field: its length, then that many elements (R69). -/
def takeList {α : Type} (f : List Nat → Except Reject (α × List Nat)) (ts : List Nat) :
    Except Reject (List α × List Nat) := do
  let (n, ts) ← takeNat ts
  takeMany f n ts

/-- An optional field: 0 for absent, or 1 and the value (assumption log 1). -/
def takeOption {α : Type} (f : List Nat → Except Reject (α × List Nat)) (ts : List Nat) :
    Except Reject (Option α × List Nat) := do
  let (present, ts) ← takeBool ts
  if present then
    let (a, ts) ← f ts
    .ok (some a, ts)
  else .ok (none, ts)

/-- A `ModuleOffset`, input then output (R20, R86). -/
def takeOffset (ts : List Nat) : Except Reject (ModuleOffset × List Nat) := do
  let (input, ts) ← takeOption (takeBits 16) ts
  let (output, ts) ← takeOption (takeBits 16) ts
  .ok (⟨input, output⟩, ts)

/-- A codec instance: an opaque handle (R86). -/
def takeCodec (ts : List Nat) : Except Reject (CodecInst × List Nat) := do
  let (n, ts) ← takeNat ts
  .ok (⟨n⟩, ts)

/-- A module type: an abstract value (R13). -/
def takeType (ts : List Nat) : Except Reject (ModuleType × List Nat) := do
  let (n, ts) ← takeNat ts
  .ok (⟨n⟩, ts)

/-- One entry of the mapper's `mods` operand (R86). -/
def takeMod (ts : List Nat) : Except Reject ((CodecInst × ModuleOffset) × List Nat) := do
  let (c, ts) ← takeCodec ts
  let (off, ts) ← takeOffset ts
  .ok ((c, off), ts)

/-- An `Address`, module then channel (R21). -/
def takeAddress (ts : List Nat) : Except Reject (Address × List Nat) := do
  let (m, ts) ← takeNat ts
  let (ch, ts) ← takeNat ts
  .ok (⟨m, ch⟩, ts)

/-- A `FrameIn`, its fields in the order of R23. -/
def takeFrameIn (ts : List Nat) : Except Reject (FrameIn × List Nat) := do
  let (dataAvailable, ts) ← takeBool ts
  let (bufferNearlyFull, ts) ← takeBool ts
  let (ready, ts) ← takeBool ts
  let (rxCnt, ts) ← takeBits 8 ts
  let (txCntAck, ts) ← takeBits 8 ts
  let (data, ts) ← takeList (takeBits 8) ts
  .ok (⟨dataAvailable, bufferNearlyFull, ready, rxCnt, txCntAck, data⟩, ts)

/-- A `FrameOut`, its fields in the order of R24. -/
def takeFrameOut (ts : List Nat) : Except Reject (FrameOut × List Nat) := do
  let (active, ts) ← takeBool ts
  let (reset, ts) ← takeBool ts
  let (rxBufFlush, ts) ← takeBool ts
  let (txBufFlush, ts) ← takeBool ts
  let (txCnt, ts) ← takeBits 8 ts
  let (rxCntAck, ts) ← takeBits 8 ts
  let (data, ts) ← takeList (takeBits 8) ts
  .ok (⟨active, reset, rxBufFlush, txBufFlush, txCnt, rxCntAck, data⟩, ts)

/-- A `ChannelValue`: its 4-bit tag (R82), then the variant's payload (R22). A tag from 8 to 15 is
reserved (R180). -/
def takeValue (ts : List Nat) : Except Reject (ChannelValue × List Nat) := do
  let (tag, ts) ← takeNat ts
  match tag with
  | 0 => .ok (.none, ts)
  | 1 => do
    let (b, ts) ← takeBool ts
    .ok (.bit b, ts)
  | 2 => do
    let (f, ts) ← takeBits 32 ts
    .ok (.decimal32 f, ts)
  | 3 => do
    let (bs, ts) ← takeList (takeBits 8) ts
    .ok (.bytes bs, ts)
  | 4 => do
    let (fi, ts) ← takeFrameIn ts
    .ok (.tunnelIn fi, ts)
  | 5 => do
    let (fo, ts) ← takeFrameOut ts
    .ok (.tunnelOut fo, ts)
  | 6 => do
    let (x, ts) ← takeNat ts
    .ok (.freqSample ⟨x⟩, ts)
  | 7 => .ok (.disabled, ts)
  | _ => if tag < 16 then .error .reservedTag else .error (.malformed .scalarTooWide)

/-- The operand record of an operation, its fields in the order of R72. -/
def takeOperands (op : Opcode) (ts : List Nat) : Except Reject (Instr × List Nat) :=
  match op with
  | .baSplit => do
    let (addr, ts) ← takeBits 16 ts
    .ok (.baSplit addr, ts)
  | .baJoin => do
    let (register, ts) ← takeNat ts
    let (bit, ts) ← takeNat ts
    .ok (.baJoin register bit, ts)
  | .baOffsets => do
    let (flat, ts) ← takeList (takeBits 16) ts
    .ok (.baOffsets flat, ts)
  | .baModlist => do
    let (regs, ts) ← takeList (takeBits 16) ts
    .ok (.baModlist regs, ts)
  | .mapDecodeIn => do
    let (mods, ts) ← takeList takeMod ts
    let (baseAddr, ts) ← takeBits 16 ts
    let (data, ts) ← takeList (takeBits 16) ts
    .ok (.mapDecodeIn mods baseAddr data, ts)
  | .mapDecodeOut => do
    let (mods, ts) ← takeList takeMod ts
    let (baseAddr, ts) ← takeBits 16 ts
    let (data, ts) ← takeList (takeBits 16) ts
    .ok (.mapDecodeOut mods baseAddr data, ts)
  | .mapEncode => do
    let (mods, ts) ← takeList takeMod ts
    let (baseAddr, ts) ← takeBits 16 ts
    let (values, ts) ← takeList (takeList takeValue) ts
    .ok (.mapEncode mods baseAddr values, ts)
  | .seqNew => do
    let (key, ts) ← takeNat ts
    let (frameLen, ts) ← takeNat ts
    .ok (.seqNew key frameLen, ts)
  | .seqNext => do
    let (key, ts) ← takeNat ts
    let (input, ts) ← takeFrameIn ts
    let (output, ts) ← takeFrameOut ts
    .ok (.seqNext key input output, ts)
  | .seqWrite => do
    let (key, ts) ← takeNat ts
    let (bytes, ts) ← takeList (takeBits 8) ts
    .ok (.seqWrite key bytes, ts)
  | .seqRead => do
    let (key, ts) ← takeNat ts
    .ok (.seqRead key, ts)
  | .cplNew => do
    let (types, ts) ← takeList takeType ts
    let (params, ts) ← takeList (takeList (takeBits 16)) ts
    let (offsets, ts) ← takeList (takeBits 16) ts
    .ok (.cplNew types params offsets, ts)
  | .cplIsValidAddr => do
    let (addr, ts) ← takeAddress ts
    .ok (.cplIsValidAddr addr, ts)
  | .cplSetOutput => do
    let (addr, ts) ← takeAddress ts
    let (value, ts) ← takeValue ts
    .ok (.cplSetOutput addr value, ts)
  | .cplNext => do
    let (processInput, ts) ← takeList (takeBits 16) ts
    let (processOutput, ts) ← takeList (takeBits 16) ts
    .ok (.cplNext processInput processOutput, ts)
  | .cplInputs => .ok (.cplInputs, ts)
  | .cplOutputs => .ok (.cplOutputs, ts)
  | .cplReader => do
    let (module, ts) ← takeNat ts
    .ok (.cplReader module, ts)
  | .cplWriter => do
    let (module, ts) ← takeNat ts
    let (bytes, ts) ← takeList (takeBits 8) ts
    .ok (.cplWriter module bytes, ts)

/-- The instruction of a request. A reserved command word is found before any operand is looked at
(R73, R168); the record must end where its operation's fields end (R83). -/
def decode (r : Request) : Except Reject Instr :=
  match opcodeOfWord r.word with
  | none => .error .reservedWord
  | some op => do
    let (i, ts) ← takeOperands op r.operands
    match ts with
    | [] => .ok i
    | _ :: _ => .error (.malformed .trailing)

/-! ### The encoder -/

/-- A boolean field. -/
def putBool (b : Bool) : List Nat := [b.toNat]

/-- A scalar of `w` bits. -/
def putBits {w : Nat} (v : BitVec w) : List Nat := [v.toNat]

/-- A list field: its length, then its elements (R69). -/
def putList {α : Type} (f : α → List Nat) (as : List α) : List Nat := as.length :: as.flatMap f

/-- An optional field (assumption log 1). -/
def putOption {α : Type} (f : α → List Nat) : Option α → List Nat
  | none => [0]
  | some a => 1 :: f a

/-- A `ModuleOffset` (R20, R86). -/
def putOffset (off : ModuleOffset) : List Nat := putOption putBits off.input ++ putOption putBits off.output

/-- One entry of the mapper's `mods` operand (R86). -/
def putMod (m : CodecInst × ModuleOffset) : List Nat := m.1.handle :: putOffset m.2

/-- An `Address` (R21). -/
def putAddress (a : Address) : List Nat := [a.module, a.channel]

/-- A `FrameIn`, its fields in the order of R23. -/
def putFrameIn (f : FrameIn) : List Nat :=
  putBool f.dataAvailable ++ putBool f.bufferNearlyFull ++ putBool f.ready ++ putBits f.rxCnt ++
    putBits f.txCntAck ++ putList putBits f.data

/-- A `FrameOut`, its fields in the order of R24. -/
def putFrameOut (f : FrameOut) : List Nat :=
  putBool f.active ++ putBool f.reset ++ putBool f.rxBufFlush ++ putBool f.txBufFlush ++
    putBits f.txCnt ++ putBits f.rxCntAck ++ putList putBits f.data

/-- A `ChannelValue`: its tag (R82), then its payload (R22). -/
def putValue : ChannelValue → List Nat
  | .none => [0]
  | .bit b => 1 :: putBool b
  | .decimal32 f => 2 :: putBits f
  | .bytes bs => 3 :: putList putBits bs
  | .tunnelIn fi => 4 :: putFrameIn fi
  | .tunnelOut fo => 5 :: putFrameOut fo
  | .freqSample x => [6, x.handle]
  | .disabled => [7]

/-- The operand record of an instruction, its fields in the order of R72. -/
def putOperands : Instr → List Nat
  | .baSplit addr => putBits addr
  | .baJoin register bit => [register, bit]
  | .baOffsets flat => putList putBits flat
  | .baModlist regs => putList putBits regs
  | .mapDecodeIn mods baseAddr data => putList putMod mods ++ putBits baseAddr ++ putList putBits data
  | .mapDecodeOut mods baseAddr data => putList putMod mods ++ putBits baseAddr ++ putList putBits data
  | .mapEncode mods baseAddr values =>
    putList putMod mods ++ putBits baseAddr ++ putList (putList putValue) values
  | .seqNew key frameLen => [key, frameLen]
  | .seqNext key input output => key :: (putFrameIn input ++ putFrameOut output)
  | .seqWrite key bytes => key :: putList putBits bytes
  | .seqRead key => [key]
  | .cplNew types params offsets =>
    putList (fun t => [t.handle]) types ++ putList (putList putBits) params ++ putList putBits offsets
  | .cplIsValidAddr addr => putAddress addr
  | .cplSetOutput addr value => putAddress addr ++ putValue value
  | .cplNext processInput processOutput =>
    putList putBits processInput ++ putList putBits processOutput
  | .cplInputs => []
  | .cplOutputs => []
  | .cplReader module => [module]
  | .cplWriter module bytes => module :: putList putBits bytes

/-- The request of an instruction (R69, R72). -/
def encode (i : Instr) : Request := ⟨commandWord i.opcode, putOperands i⟩

/-! ### The opcode table's words -/

/-- How many fields the operand record of an operation has when every field, every list length
included, is 0 (R69, R72, and the records of R20 to R24). -/
def zeroFields : Opcode → Nat
  | .baSplit => 1
  | .baJoin => 2
  | .baOffsets => 1
  | .baModlist => 1
  | .mapDecodeIn => 3
  | .mapDecodeOut => 3
  | .mapEncode => 3
  | .seqNew => 2
  | .seqNext => 14
  | .seqWrite => 2
  | .seqRead => 1
  | .cplNew => 3
  | .cplIsValidAddr => 2
  | .cplSetOutput => 3
  | .cplNext => 2
  | .cplInputs => 0
  | .cplOutputs => 0
  | .cplReader => 1
  | .cplWriter => 2

/-- The request whose command word is the low 8 bits of `w` and whose operand record is all zeros
(none for a reserved word). The opcode table's rows are 8 bits: the command word alone. -/
def requestOfTableWord (nbits w : Nat) : Request :=
  let word := BitVec.ofNat 8 (w % 2 ^ nbits)
  ⟨word, List.replicate (((opcodeOfWord word).map zeroFields).getD 0) 0⟩

/-- The instruction the decoder reads from a row's word (assumption log 17); none for a word over the
command word's 8 bits (R68, R83) or where the decoder refuses. -/
def decodeTableWord (nbits w : Nat) : Option Instr :=
  if w % 2 ^ nbits < 256 then (decode (requestOfTableWord nbits w)).toOption else none

end Sys2Proof
end

