-- ==== Sys2Proof/Machine/State.lean ====
section
/-! DEFINITION. The state of the block (10_state.md), its responses (30_encoding.md R70, 60_exceptions.md
R162), the reasons a step can stop, and the state after power-on (10_state.md R45, R181). -/

namespace Sys2Proof.Machine

/-- The error statuses the block answers with (R162): the taxonomy of codes 1 to 10, and 15. -/
inductive Err where
  | bufferLength | channelParameter | channelValue | sequenceNumber | dataLength
  | moduleOffset | address | registerCount | unknownModule | unknownCategory
  | illegalCommand
deriving DecidableEq, Repr

/-- The result records of the operations (R72). -/
inductive Result where
  /-- The operations whose result is "none". -/
  | none
  /-- BA_SPLIT. -/
  | split (register : BitVec 12) (bit : BitVec 4)
  /-- BA_JOIN. -/
  | addr (a : Word16)
  /-- BA_OFFSETS. -/
  | offsets (os : List ModuleOffset)
  /-- BA_MODLIST. -/
  | types (ts : List ModuleType)
  /-- MAP_DECODE_IN, MAP_DECODE_OUT, CPL_INPUTS, CPL_OUTPUTS. -/
  | values (vs : List (List ChannelValue))
  /-- MAP_ENCODE. -/
  | words (ws : List Word16)
  /-- SEQ_NEXT. -/
  | frame (f : FrameOut)
  /-- SEQ_READ, CPL_READER. -/
  | bytes (bs : Option (List Byte))
  /-- CPL_IS_VALID_ADDR. -/
  | bool (b : Bool)
  /-- CPL_NEXT: the output registers and the transmit edges. -/
  | cycle (regs : List Word16) (txEdge : List Nat)
deriving DecidableEq, Repr

/-- A response: a status, and a result exactly when the status is OK (R70, R163). -/
inductive Response where
  | ok (r : Result)
  | error (e : Err)
deriving DecidableEq, Repr

/-- The initialisation state of a sequencer instance (R30). -/
inductive InitState where
  | clearBuffers
  | reset
  | done
deriving DecidableEq, Repr

/-- One sequencer instance (R29 to R34). -/
structure SeqState where
  initState : InitState
  lastRxCnt : Counter
  inData : List Byte
  outData : List (List Byte)
  processDataLen : FrameLen
deriving DecidableEq, Repr

/-- Which codec family the machine runs with (assumption log 7). -/
inductive Family where
  /-- The station's own family: the uninterpreted parameter `Config.codecs` (R9, R13). -/
  | given
  /-- The fixture family of 95_test_vectors.md section 1. -/
  | fixture
deriving DecidableEq, Repr

/-- The open parameters of R9 that a run is made with: the MODEL's own fields, which no step writes
(R43). A capacity of `none` is unbounded, the default. -/
structure Params where
  family : Family
  inBufCap : Option Nat
  outQCap : Option Nat
deriving DecidableEq, Repr

/-- The whole state of the block. -/
structure State where
  /-- The parameters of this run (the model's own; assumption log 7, 8). -/
  params : Params
  /-- How many unspecified `last_rx_cnt` values have been drawn (the model's own; assumption log 9). -/
  draws : Nat
  /-- Requests the host has issued and the block has not yet taken, first issued first (R6, R28). -/
  commandPort : List Request
  /-- The response port: the last response (R6, R70). -/
  response : Option Response
  /-- The sequencer pool, keyed by natural numbers (R29); canonical: keys strictly rising. -/
  seq : List (Nat × SeqState)
  /-- R36, R37. -/
  modules : List CodecInst
  /-- R36, R37; index-aligned with `modules`. -/
  offsets : List ModuleOffset
  /-- R38. -/
  encOrder : List Nat
  /-- The pending one-shot overrides (R39); canonical: addresses strictly rising. -/
  write : List (Address × ChannelValue)
  /-- R40. -/
  inValues : List (List ChannelValue)
  /-- R40. -/
  outValues : List (List ChannelValue)
  /-- R41; canonical: keys strictly rising. -/
  lastTxCnt : List (Nat × Counter)
  /-- R41. -/
  txEdge : List Nat
deriving DecidableEq, Repr

/-- The working copies of CPL_NEXT (R144) that its phases 2 and 3 change. -/
structure Cycle where
  ov : List (List ChannelValue)
  write : List (Address × ChannelValue)
  seq : List (Nat × SeqState)
  lastTx : List (Nat × Counter)
  edge : List Nat
deriving DecidableEq, Repr

/-- What can stop the machine: nothing. Every error is a response, after which the next request is
processed normally (R161, R166, R179); no operation and no step raises a fault. -/
inductive Fault where
deriving DecidableEq, Repr

/-- What the model refuses. -/
inductive Refusal where
  /-- Raised by an arm of `exec` whose instruction has no meaning yet. Safe: the model stops. -/
  | notModelled (mnemonic : String)
  /-- Raised by `step` on a request whose fields are no operand record of its operation. Such a
  request does not exist in the spec's typed form (R69; assumption log 2). Safe: the model stops. -/
  | malformedRequest (why : Malformed)
deriving DecidableEq, Repr

/-- Power-on (R45, R181): an empty configuration. The parameters are the uninterpreted family and
the default unbounded capacities (R9); the ports are empty (assumption log 3, 5, 7, 8, 9). -/
def State.reset : State where
  params := ⟨.given, none, none⟩
  draws := 0
  commandPort := []
  response := none
  seq := []
  modules := []
  offsets := []
  encOrder := []
  write := []
  inValues := []
  outValues := []
  lastTxCnt := []
  txEdge := []

end Sys2Proof.Machine
end

