-- ==== Sys2Proof/Machine/Operands.lean ====
section
/-! DEFINITION. The operand forms: bit addresses, offset pairs, identifiers and byte views
(00_scope.md R16, 20_memory.md section 2, 30_encoding.md sections 3 and 4), and the numbering of
statuses, tags and initialisation states. -/

namespace Sys2Proof.Machine

/-! ### Bit addresses (R74, R80) -/

/-- The register field, bits [15:4]. -/
def registerOf (a : BitAddress) : BitVec 12 := a.extractLsb' 4 12

/-- The bit field, bits [3:0]. -/
def bitOf (a : BitAddress) : BitVec 4 := a.extractLsb' 0 4

/-- `(register << 4) | bit`, for fields that fit (R80, R90). -/
def joinFields (register bit : Nat) : BitAddress :=
  (BitVec.ofNat 16 register <<< 4) ||| BitVec.ofNat 16 bit

/-! ### Offset pairs and identifiers (R50, R75, R76) -/

/-- `0xFFFF` means absent; any other word is the bit address itself (R75). -/
def optOffset (w : Word16) : Option BitAddress :=
  if w = Config.absent then none else some w

/-- The pairs `(output_word, input_word)` of a flat list of even length (R75, R92). -/
def offsetPairs : List Word16 → List ModuleOffset
  | o :: i :: rest => ⟨optOffset i, optOffset o⟩ :: offsetPairs rest
  | _ => []

/-- `be32(hi, lo) = (hi << 16) | lo` (R16). -/
def be32 (hi lo : Word16) : Word32 := hi ++ lo

/-- The identifiers of a register list of even length, the first register of a pair high (R50). -/
def identifiers : List Word16 → List Word32
  | hi :: lo :: rest => be32 hi lo :: identifiers rest
  | _ => []

/-! ### Bytes and words (R16, R48) -/

/-- The low byte, byte 0 of a register. -/
def lowByte (w : Word16) : Byte := w.extractLsb' 0 8

/-- The high byte, byte 1 of a register. -/
def highByte (w : Word16) : Byte := w.extractLsb' 8 8

/-- The bytes of a word list, low byte first (R16, R48). -/
def leBytes : List Word16 → List Byte
  | [] => []
  | w :: ws => lowByte w :: highByte w :: leBytes ws

/-- The words of an even-length byte list (R16). -/
def leWords : List Byte → List Word16
  | lo :: hi :: rest => (hi ++ lo : Word16) :: leWords rest
  | _ => []

/-- R102: drop the first byte of a window, append a zero byte. -/
def shift8 (ws : List Word16) : List Word16 := leWords ((leBytes ws).drop 1 ++ [0x00])

/-! ### Numberings (R30, R70, R82, R162) -/

/-- The 4-bit status code of an error (R162). -/
def Err.code : Err → BitVec 4
  | .bufferLength => 1
  | .channelParameter => 2
  | .channelValue => 3
  | .sequenceNumber => 4
  | .dataLength => 5
  | .moduleOffset => 6
  | .address => 7
  | .registerCount => 8
  | .unknownModule => 9
  | .unknownCategory => 10
  | .illegalCommand => 15

/-- The 4-bit status of a response; 0 is OK (R70, R162). -/
def Response.status : Response → BitVec 4
  | .ok _ => 0
  | .error e => e.code

/-- The 2-bit encoding of `init_state`; 3 is never held (R30). -/
def InitState.code : InitState → BitVec 2
  | .clearBuffers => 0
  | .reset => 1
  | .done => 2

/-- A codec's error passes through unchanged (R103, R164). -/
def codecErr : CodecError → Err
  | .bufferLength => .bufferLength
  | .channelParameter => .channelParameter
  | .channelValue => .channelValue
  | .sequenceNumber => .sequenceNumber
  | .dataLength => .dataLength
  | .moduleOffset => .moduleOffset
  | .address => .address
  | .registerCount => .registerCount
  | .unknownModule => .unknownModule
  | .unknownCategory => .unknownCategory

/-- The outcome of a codec call, its error passed through (R164). -/
def codecCall {α : Type} : Except CodecError α → Except Err α
  | .ok a => .ok a
  | .error e => .error (codecErr e)

end Sys2Proof.Machine
end

