-- ==== Sys2Proof/Machine/Fixtures.lean ====
section
/-! DEFINITION. The fixture codec family and fixture module table of 95_test_vectors.md section 1, an
instance of the parameter CODECS on which the spec's vectors and programs are computed. They are not
the vendor's module types (assumption log 7). -/

namespace Sys2Proof.Machine

/-- The fixture codecs of the table: DI4, DO4, DI8, RAW(0) to RAW(4), TUN(8) and TUN(16). -/
inductive Fixture where
  | di4
  | do4
  | di8
  | raw (n : Fin 5)
  | tun (l : FrameLen)
deriving DecidableEq, Repr

/-- The handle of a fixture codec (the numbering is the model's: assumption log 14). -/
def Fixture.inst : Fixture → CodecInst
  | .di4 => ⟨0⟩
  | .do4 => ⟨1⟩
  | .di8 => ⟨2⟩
  | .raw n => ⟨3 + n.val⟩
  | .tun .len8 => ⟨8⟩
  | .tun .len16 => ⟨9⟩

/-- The fixture codec of a handle. -/
def Fixture.ofInst (c : CodecInst) : Option Fixture :=
  match c.handle with
  | 0 => some .di4
  | 1 => some .do4
  | 2 => some .di8
  | 3 => some (.raw 0)
  | 4 => some (.raw 1)
  | 5 => some (.raw 2)
  | 6 => some (.raw 3)
  | 7 => some (.raw 4)
  | 8 => some (.tun .len8)
  | 9 => some (.tun .len16)
  | _ => none

/-- The module type of a fixture codec: one type for both TUN instances. -/
def Fixture.type : Fixture → ModuleType
  | .tun _ => ⟨8⟩
  | f => ⟨f.inst.handle⟩

/-- Channel k of a digital fixture is bit k of the first word. -/
def bitChannels (n : Nat) (w : Word16) : List ChannelValue :=
  (List.range n).map fun k => .bit (w.getLsbD k)

/-- DI4, DI8 and DO4: the bits of the first word, BufferLength when there is none. -/
def decodeBits (n : Nat) : List Word16 → Except CodecError (List ChannelValue)
  | [] => .error .bufferLength
  | w :: _ => .ok (bitChannels n w)

/-- RAW(n): the first min(n, 2 len(ws)) bytes. -/
def decodeRaw (n : Nat) (ws : List Word16) : Except CodecError (List ChannelValue) :=
  .ok [.bytes ((leBytes ws).take n)]

/-- RAW(n): the words of the bytes, a zero byte appended to an odd number of them. -/
def encodeRaw : List ChannelValue → Except CodecError (List Word16)
  | [.bytes bs] => .ok (leWords (if bs.length % 2 = 1 then bs ++ [0x00] else bs))
  | _ => .error .channelValue

/-- DO4: every value a `Bit`, bit k of the word from channel k. -/
def encodeBits : List ChannelValue → Except CodecError Nat
  | [] => .ok 0
  | .bit b :: vs => do
    let rest ← encodeBits vs
    .ok (b.toNat + 2 * rest)
  | _ :: _ => .error .channelValue

/-- Bit `k` of byte `i` of a window. -/
def byteBit (b : List Byte) (i k : Nat) : Bool := (b.getD i 0).getLsbD k

/-- The two low bits of byte 1 from bit `k` on, as a counter. -/
def wireCounter (b : List Byte) (k : Nat) : Counter := ((b.getD 1 0) >>> k) &&& 3

/-- The payload length, byte 1 bits [7:4], and the payload; DataLength when it is above U. -/
def wireData (l : FrameLen) (b : List Byte) : Except CodecError (List Byte) :=
  let len := ((b.getD 1 0) >>> 4).toNat
  if len > l.userDataLen then .error .dataLength else .ok ((b.drop 2).take len)

/-- TUN's input window. -/
def decodeTunIn (l : FrameLen) (ws : List Word16) : Except CodecError (List ChannelValue) := do
  if ws.length < l.bytes / 2 then .error .bufferLength
  else
    let b := leBytes ws
    let data ← wireData l b
    .ok [.tunnelIn ⟨byteBit b 0 0, byteBit b 0 1, byteBit b 0 2, wireCounter b 0, wireCounter b 2, data⟩]

/-- TUN's output window. -/
def decodeTunOut (l : FrameLen) (ws : List Word16) : Except CodecError (List ChannelValue) := do
  if ws.length < l.bytes / 2 then .error .bufferLength
  else
    let b := leBytes ws
    let data ← wireData l b
    .ok [.tunnelOut ⟨byteBit b 0 0, byteBit b 0 1, byteBit b 0 2, byteBit b 0 3, wireCounter b 0,
      wireCounter b 2, data⟩]

/-- The checks the frame-encode contract asks of a tunnel codec, in its order (42_sequencer.md R126). -/
def frameEncodeCheck (l : FrameLen) (fo : FrameOut) : Except CodecError Unit :=
  if fo.txCnt.toNat > 3 then .error .sequenceNumber
  else if fo.rxCntAck.toNat > 3 then .error .sequenceNumber
  else if fo.data.length > l.userDataLen then .error .dataLength
  else .ok ()

/-- The bytes of a TUN output frame: flags, counters and length, payload, zero padding up to L. -/
def tunBytes (l : FrameLen) (fo : FrameOut) : List Byte :=
  let flags := fo.active.toNat + 2 * fo.reset.toNat + 4 * fo.rxBufFlush.toNat + 8 * fo.txBufFlush.toNat
  let counters := fo.txCnt.toNat + 4 * fo.rxCntAck.toNat + 16 * fo.data.length
  BitVec.ofNat 8 flags :: BitVec.ofNat 8 counters ::
    (fo.data ++ List.replicate (l.userDataLen - fo.data.length) 0x00)

/-- TUN's encode: one `TunnelOut`, checked, then laid out. -/
def encodeTun (l : FrameLen) : List ChannelValue → Except CodecError (List Word16)
  | [.tunnelOut fo] => do
    frameEncodeCheck l fo
    .ok (leWords (tunBytes l fo))
  | _ => .error .channelValue

def Fixture.channelCount : Fixture → Nat
  | .di4 => 4
  | .do4 => 4
  | .di8 => 8
  | .raw _ => 1
  | .tun _ => 1

def Fixture.inputByteCount : Fixture → Nat
  | .di4 => 1
  | .do4 => 0
  | .di8 => 1
  | .raw n => n.val
  | .tun l => l.bytes

def Fixture.outputByteCount : Fixture → Nat
  | .di4 => 0
  | .do4 => 1
  | .di8 => 0
  | .raw n => n.val
  | .tun l => l.bytes

def Fixture.decodeInput : Fixture → List Word16 → Except CodecError (List ChannelValue)
  | .di4, ws => decodeBits 4 ws
  | .do4, _ => .ok (List.replicate 4 .none)
  | .di8, ws => decodeBits 8 ws
  | .raw n, ws => decodeRaw n.val ws
  | .tun l, ws => decodeTunIn l ws

def Fixture.decodeOutput : Fixture → List Word16 → Except CodecError (List ChannelValue)
  | .di4, _ => .ok (List.replicate 4 .none)
  | .do4, ws => decodeBits 4 ws
  | .di8, _ => .ok (List.replicate 8 .none)
  | .raw n, ws => decodeRaw n.val ws
  | .tun l, ws => decodeTunOut l ws

def Fixture.encodeOutput : Fixture → List ChannelValue → Except CodecError (List Word16)
  | .di4, vs => if vs.length = 4 then .ok [] else .error .channelValue
  | .do4, vs =>
    if vs.length = 4 then do
      let n ← encodeBits vs
      .ok [BitVec.ofNat 16 n]
    else .error .channelValue
  | .di8, vs => if vs.length = 8 then .ok [] else .error .channelValue
  | .raw _, vs => encodeRaw vs
  | .tun l, vs => encodeTun l vs

/-- `from_parameters` of the table: only TUN reads its parameter block. -/
def fixtureFromParameters (t : ModuleType) (p : List Word16) : Except CodecError CodecInst :=
  if t = Fixture.type (.tun .len8) then
    match p with
    | [] => .error .bufferLength
    | w :: _ =>
      match FrameLen.ofBytes w.toNat with
      | some l => .ok (Fixture.inst (.tun l))
      | none => .error .channelParameter
  else .ok ⟨t.handle⟩

/-- The fixture module table. -/
def fixtureTypeOfId (id : Word32) : Option ModuleType :=
  if id = 0x00000001 then some (Fixture.type .di4)
  else if id = 0x00000002 then some (Fixture.type .do4)
  else if id = 0x00000003 then some (Fixture.type .di8)
  else if id = 0x00000010 then some (Fixture.type (.tun .len8))
  else if id = 0x12345678 then some (Fixture.type (.raw 1))
  else none

/-- The fixture family as an instance of CODECS. A handle that names no fixture behaves as a module of
one channel, with no data, whose codec decodes no value (assumption log 14). -/
def fixtureCodecs : Codecs where
  fromParameters := fixtureFromParameters
  moduleType c := ((Fixture.ofInst c).map Fixture.type).getD ⟨c.handle⟩
  channelCount c := ((Fixture.ofInst c).map Fixture.channelCount).getD 1
  inputByteCount c := ((Fixture.ofInst c).map Fixture.inputByteCount).getD 0
  outputByteCount c := ((Fixture.ofInst c).map Fixture.outputByteCount).getD 0
  decodeInput c ws := ((Fixture.ofInst c).map fun f => f.decodeInput ws).getD (.ok [])
  decodeOutput c ws := ((Fixture.ofInst c).map fun f => f.decodeOutput ws).getD (.ok [])
  encodeOutput c vs := ((Fixture.ofInst c).map fun f => f.encodeOutput vs).getD (.ok [])
  tunnelFrameLen c :=
    match Fixture.ofInst c with
    | some (.tun l) => some l
    | _ => none
  typeOfId := fixtureTypeOfId

/-- The codec family a run is made with (R9, R43). -/
def Family.codecs : Family → Codecs
  | .given => Config.codecs
  | .fixture => fixtureCodecs

end Sys2Proof.Machine
end

