-- ==== Sys2Proof/Machine/Maps.lean ====
section
/-! DEFINITION. Finite maps (00_scope.md R15) as association lists in one canonical form: keys
strictly rising, so that equal maps are equal lists (assumption log 12). -/

namespace Sys2Proof.Machine

/-- The order of natural-number keys. -/
def natLt (a b : Nat) : Bool := decide (a < b)

/-- The order of `Address` keys: by module, then by channel. -/
def addrLt (a b : Address) : Bool :=
  decide (a.module < b.module) || (decide (a.module = b.module) && decide (a.channel < b.channel))

/-- `m[k]` (R15). -/
def mapGet {κ α : Type} [DecidableEq κ] (m : List (κ × α)) (k : κ) : Option α :=
  match m with
  | [] => none
  | (k', v) :: rest => if k = k' then some v else mapGet rest k

/-- `m[k] <- v`: inserts or overwrites (R15). -/
def mapSet {κ α : Type} [DecidableEq κ] (lt : κ → κ → Bool) (m : List (κ × α)) (k : κ) (v : α) :
    List (κ × α) :=
  match m with
  | [] => [(k, v)]
  | (k', v') :: rest =>
    if k = k' then (k, v) :: rest
    else if lt k k' then (k, v) :: (k', v') :: rest
    else (k', v') :: mapSet lt rest k v

/-- `remove(m, k)` (R15). -/
def mapRemove {κ α : Type} [DecidableEq κ] (m : List (κ × α)) (k : κ) : List (κ × α) :=
  m.filter fun e => !decide (e.1 = k)

/-- The canonical form of a map: its keys strictly rise. -/
def mapWf {κ α : Type} (lt : κ → κ → Bool) : List (κ × α) → Bool
  | [] => true
  | (k, _) :: rest => rest.all (fun e => lt k e.1) && mapWf lt rest

end Sys2Proof.Machine
end

