-- ==== Sys2Proof/Machine/Ops.lean ====
section
/-! DEFINITION. The named operations over the state: the two ports, error entry, the sequencer pool
and the pending-write map. -/

namespace Sys2Proof.Machine

/-! ### Parameters -/

/-- The codec family of this run (R13, R43). -/
def State.codecs (s : State) : Codecs := s.params.family.codecs

/-! ### The response port and error entry -/

/-- The response is put on the response port (R6, R70). -/
def State.respond (s : State) (r : Response) : State := { s with response := some r }

/-- ERROR ENTRY (R161, R163, R165): the operation stops, no state of 10_state.md is written, and the
response carries the status code and nothing else. There is no handler and no saved state, so there
is no return from an error: the next request is processed normally (R166, R167). -/
def State.raise (s : State) (e : Err) : State := s.respond (.error e)

/-- The end of an operation begun in `s`: error entry from the state BEFORE the operation, so that no
step of a failed operation is kept (R165, R179), or the operation's state and result. -/
def State.finish (s : State) : Except Err (State × Result) → Host.Outcome State Fault Refusal
  | .error e => .next (s.raise e)
  | .ok (t, r) => .next (t.respond (.ok r))

/-! ### The command port -/

/-- The block takes the first request the host has issued (R6, R28). -/
def State.takeRequest (s : State) : Option (Request × State) :=
  match s.commandPort with
  | [] => none
  | r :: rest => some (r, { s with commandPort := rest })

/-- The answer to a request no instruction is read from, the request taken: a reserved word raises
`IllegalCommand` (R73), a reserved tag `ChannelValue` (R180). A request that is no operand record is
refused (assumption log 2). -/
def State.reject (s : State) : Reject → Host.Outcome State Fault Refusal
  | .reservedWord => .next (s.raise .illegalCommand)
  | .reservedTag => .next (s.raise .channelValue)
  | .malformed why => .refused (.malformedRequest why)

/-! ### The sequencer pool -/

/-- Instance lookup: `Address` where the pool has no instance for the key (R115). -/
def lookupInstance (q : List (Nat × SeqState)) (key : Nat) : Except Err SeqState :=
  match mapGet q key with
  | some p => .ok p
  | none => .error .address

/-- The state with `SEQ[key]` written. -/
def State.setInstance (s : State) (key : Nat) (p : SeqState) : State :=
  { s with seq := mapSet natLt s.seq key p }

/-! ### Addresses -/

/-- `valid(addr)` (R140). -/
def State.validAddr (s : State) (a : Address) : Bool :=
  match s.modules[a.module]? with
  | some c => decide (a.channel < s.codecs.channelCount c)
  | none => false

end Sys2Proof.Machine
end

