-- ==== Sys2Proof/Machine/AddressCodec.lean ====
section
/-! DEFINITION. Unit 0, the address codec: BA_SPLIT, BA_JOIN, BA_OFFSETS and BA_MODLIST
(40_address_codec.md). The unit is stateless (R96). -/

namespace Sys2Proof.Machine

/-- BA_JOIN's check and value (R90). -/
def joinAddr (register bit : Nat) : Except Err BitAddress :=
  if register > Config.maxRegister ∨ bit > 15 then .error .moduleOffset
  else .ok (joinFields register bit)

/-- BA_OFFSETS: RegisterCount for an odd length (R92, R93). -/
def parseOffsets (flat : List Word16) : Except Err (List ModuleOffset) :=
  if flat.length % 2 = 1 then .error .registerCount else .ok (offsetPairs flat)

/-- The lookup of identifiers in register order; the first unknown one raises (R94, R95). -/
def lookupTypes (C : Codecs) : List Word32 → Except Err (List ModuleType)
  | [] => .ok []
  | id :: rest =>
    match C.typeOfId id with
    | none => .error .unknownModule
    | some t => do
      let ts ← lookupTypes C rest
      .ok (t :: ts)

/-- BA_MODLIST: the length check comes before any lookup (R94, R95). -/
def parseModlist (C : Codecs) (regs : List Word16) : Except Err (List ModuleType) :=
  if regs.length = 0 ∨ regs.length % 2 = 1 then .error .registerCount
  else lookupTypes C (identifiers regs)

/-- BA_SPLIT (R89). -/
def execBaSplit (addr : Word16) (s : State) : Host.Outcome State Fault Refusal :=
  s.finish (.ok (s, .split (registerOf addr) (bitOf addr)))

/-- BA_JOIN (R90). -/
def execBaJoin (register bit : Nat) (s : State) : Host.Outcome State Fault Refusal :=
  s.finish do
    let a ← joinAddr register bit
    .ok (s, .addr a)

/-- BA_OFFSETS (R92). -/
def execBaOffsets (flat : List Word16) (s : State) : Host.Outcome State Fault Refusal :=
  s.finish do
    let offs ← parseOffsets flat
    .ok (s, .offsets offs)

/-- BA_MODLIST (R94). -/
def execBaModlist (regs : List Word16) (s : State) : Host.Outcome State Fault Refusal :=
  s.finish do
    let ts ← parseModlist s.codecs regs
    .ok (s, .types ts)

end Sys2Proof.Machine
end

