-- ==== Sys2Proof/Machine/Mapper.lean ====
section
/-! DEFINITION. Unit 1, the mapper: MAP_DECODE_IN, MAP_DECODE_OUT and MAP_ENCODE (41_mapper.md). The
unit is stateless (R112). -/

namespace Sys2Proof.Machine

/-! ### Decode -/

/-- `word_count = max(1, byte_count / 2)`, the division rounded down (R53, R100, R196). -/
def wordCount (byteCount : Nat) : Nat := max 1 (byteCount / 2)

/-- WINDOW (R100 to R102): the register check, the length check, then the bit check. -/
def window (o : BitAddress) (byteCount : Nat) (baseAddr : Word16) (data : List Word16) :
    Except Err (List Word16) :=
  let register := (registerOf o).toNat
  if register < baseAddr.toNat then .error .moduleOffset
  else
    let start := register - baseAddr.toNat
    let stop := start + wordCount byteCount
    if stop > data.length then .error .bufferLength
    else
      let ws := (data.drop start).take (wordCount byteCount)
      if bitOf o = 0 then .ok ws
      else if bitOf o = 8 then .ok (shift8 ws)
      else .error .moduleOffset

/-- One direction's view of a codec: the offset it selects, its byte count and its decode (R81, R99). -/
def inputView (C : Codecs) (c : CodecInst) (off : ModuleOffset) :
    Option BitAddress × Nat × (List Word16 → Except CodecError (List ChannelValue)) :=
  (off.input, C.inputByteCount c, C.decodeInput c)

/-- The output direction (R81, R99). -/
def outputView (C : Codecs) (c : CodecInst) (off : ModuleOffset) :
    Option BitAddress × Nat × (List Word16 → Except CodecError (List ChannelValue)) :=
  (off.output, C.outputByteCount c, C.decodeOutput c)

/-- One module of DECODE (R99): `channel_count` copies of `None` without calling the codec where the
offset is absent, else the codec's decode of the window, unchecked (R103). -/
def decodeModule (channels : Nat) (o : Option BitAddress) (byteCount : Nat)
    (dec : List Word16 → Except CodecError (List ChannelValue)) (baseAddr : Word16)
    (data : List Word16) : Except Err (List ChannelValue) :=
  match o with
  | none => .ok (List.replicate channels .none)
  | some o => do
    let ws ← window o byteCount baseAddr data
    codecCall (dec ws)

/-- DECODE (R99, R113): the modules in operand order, the first error ending it. -/
def decodeModules (C : Codecs)
    (view : CodecInst → ModuleOffset →
      Option BitAddress × Nat × (List Word16 → Except CodecError (List ChannelValue)))
    (baseAddr : Word16) (data : List Word16) :
    List (CodecInst × ModuleOffset) → Except Err (List (List ChannelValue))
  | [] => .ok []
  | (c, off) :: rest => do
    let (o, byteCount, dec) := view c off
    let vs ← decodeModule (C.channelCount c) o byteCount dec baseAddr data
    let vss ← decodeModules C view baseAddr data rest
    .ok (vs :: vss)

/-- DECODE with `select = Input` (R81, R97). -/
def decodeInputs (C : Codecs) (mods : List (CodecInst × ModuleOffset)) (baseAddr : Word16)
    (data : List Word16) : Except Err (List (List ChannelValue)) :=
  decodeModules C (inputView C) baseAddr data mods

/-- DECODE with `select = Output` (R81, R98). -/
def decodeOutputs (C : Codecs) (mods : List (CodecInst × ModuleOffset)) (baseAddr : Word16)
    (data : List Word16) : Except Err (List (List ChannelValue)) :=
  decodeModules C (outputView C) baseAddr data mods

/-! ### Encode -/

/-- The merge of a bit-8 module's byte into a register (R108; 90_conflicts.md C6): the low byte of the
codec's first word goes to bits [15:8]. -/
def mergeHigh (old ws0 : Word16) : Word16 := (old &&& (0x00FF : Word16)) ||| (ws0 <<< 8)

/-- PLACE (R106 to R108). -/
def place (out ws : List Word16) (o : BitAddress) (baseAddr : Word16) : Except Err (List Word16) :=
  let register := (registerOf o).toNat
  if register < baseAddr.toNat then .error .moduleOffset
  else
    let start := register - baseAddr.toNat
    if bitOf o = 0 then
      if out.length ≠ start then .error .moduleOffset else .ok (out ++ ws)
    else if bitOf o = 8 then
      if out.length ≠ start + 1 then .error .moduleOffset
      else
        match ws with
        | [] => .error .bufferLength
        | w :: _ => .ok (out.modify start fun old => mergeHigh old w)
    else .error .moduleOffset

/-- The loop of MAP_ENCODE over modules and their values, in operand order (R105, R111). A module
without an output offset is skipped, its codec not called and its values not read (R109). -/
def encodeModules (C : Codecs) (baseAddr : Word16) :
    List ((CodecInst × ModuleOffset) × List ChannelValue) → List Word16 →
      Except Err (List Word16)
  | [], out => .ok out
  | ((c, off), vs) :: rest, out =>
    match off.output with
    | none => encodeModules C baseAddr rest out
    | some o => do
      let ws ← codecCall (C.encodeOutput c vs)
      let out ← place out ws o baseAddr
      encodeModules C baseAddr rest out

/-- MAP_ENCODE (R105): the arity check, then the loop. -/
def mapEncode (C : Codecs) (mods : List (CodecInst × ModuleOffset)) (baseAddr : Word16)
    (values : List (List ChannelValue)) : Except Err (List Word16) :=
  if mods.length ≠ values.length then .error .channelValue
  else encodeModules C baseAddr (mods.zip values) []

/-! ### The operations -/

/-- MAP_DECODE_IN (R97). -/
def execMapDecodeIn (mods : List (CodecInst × ModuleOffset)) (baseAddr : Word16)
    (data : List Word16) (s : State) : Host.Outcome State Fault Refusal :=
  s.finish do
    let vs ← decodeInputs s.codecs mods baseAddr data
    .ok (s, .values vs)

/-- MAP_DECODE_OUT (R98). -/
def execMapDecodeOut (mods : List (CodecInst × ModuleOffset)) (baseAddr : Word16)
    (data : List Word16) (s : State) : Host.Outcome State Fault Refusal :=
  s.finish do
    let vs ← decodeOutputs s.codecs mods baseAddr data
    .ok (s, .values vs)

/-- MAP_ENCODE (R105). -/
def execMapEncode (mods : List (CodecInst × ModuleOffset)) (baseAddr : Word16)
    (values : List (List ChannelValue)) (s : State) : Host.Outcome State Fault Refusal :=
  s.finish do
    let ws ← mapEncode s.codecs mods baseAddr values
    .ok (s, .words ws)

end Sys2Proof.Machine
end

