-- ==== Sys2Proof/Machine/Flags.lean ====
section
/-! DEFINITION. The tunnel frame's counters and flags: sequence arithmetic (42_sequencer.md R116) and
every write SEQ_NEXT makes to a field of the output frame (R118 to R122, R132). -/

namespace Sys2Proof.Machine

/-- `inc(n) = (n + 1) mod 4`, for a counter of any value (R15, R116). -/
def inc (n : Counter) : Counter := BitVec.ofNat 8 ((n.toNat + 1) % 4)

/-- The flags INIT_STEP writes on ClearBuffers, `data` cleared (R119). -/
def flushRequest (f : FrameOut) : FrameOut :=
  { f with data := [], reset := false, rxBufFlush := true, txBufFlush := true }

/-- The flags INIT_STEP writes on Reset, `data` cleared (R119). -/
def resetRequest (f : FrameOut) : FrameOut :=
  { f with data := [], reset := true, rxBufFlush := false, txBufFlush := false }

/-- The fields TX_STEP writes when it sends a chunk (R120). -/
def sendChunk (txCntAck : Counter) (chunk : List Byte) (f : FrameOut) : FrameOut :=
  { f with txCnt := inc txCntAck, active := true, data := chunk }

/-- TX_STEP's send condition on the counters: true unless the chunk in flight is unacknowledged
(R120; 90_conflicts.md C3). -/
def maySend (txCntAck txCnt : Counter) : Bool := inc txCntAck != txCnt

/-- RX_STEP's accept condition (R121). -/
def accepts (input : FrameIn) (lastRxCnt : Counter) : Bool :=
  input.dataAvailable && input.rxCnt != lastRxCnt

/-- The ACK step (R122). -/
def acknowledge (rxCnt : Counter) (f : FrameOut) : FrameOut := { f with rxCntAck := rxCnt }

end Sys2Proof.Machine
end

