-- ==== Sys2Proof/Machine/Sequencer.lean ====
section
/-! DEFINITION. Unit 2, the sequencer: SEQ_NEW, SEQ_NEXT, SEQ_WRITE and SEQ_READ (42_sequencer.md). -/

namespace Sys2Proof.Machine

/-- A fresh instance (R114). `last_rx_cnt` is unspecified until the Reset step: the free value of
draw `draw` (R31, U3; assumption log 9). -/
def SeqState.fresh (l : FrameLen) (draw : Nat) : SeqState where
  initState := .clearBuffers
  lastRxCnt := Config.freeLastRxCnt draw
  inData := []
  outData := []
  processDataLen := l

/-- Whether `n` items fit a capacity; `none` is unbounded (R127). -/
def fits (cap : Option Nat) (n : Nat) : Bool :=
  match cap with
  | none => true
  | some k => decide (n ≤ k)

/-! ### The steps of SEQ_NEXT -/

/-- INIT_STEP, for an instance in ClearBuffers or Reset (R119). -/
def SeqState.initStep (p : SeqState) (out : FrameOut) : SeqState × FrameOut :=
  match p.initState with
  | .clearBuffers => ({ p with initState := .reset }, flushRequest out)
  | .reset => ({ p with lastRxCnt := Config.lastRxSentinel, initState := .done }, resetRequest out)
  | .done => (p, out)

/-- TX_STEP (R120). -/
def SeqState.txStep (p : SeqState) (input : FrameIn) (output : FrameOut) : SeqState × FrameOut :=
  match p.outData with
  | [] => (p, output)
  | chunk :: rest =>
    if maySend input.txCntAck output.txCnt then
      ({ p with outData := rest }, sendChunk input.txCntAck chunk output)
    else (p, output)

/-- RX_STEP (R121). -/
def SeqState.rxStep (cap : Option Nat) (p : SeqState) (input : FrameIn) : Except Err SeqState :=
  if accepts input p.lastRxCnt then
    if fits cap (p.inData.length + input.data.length) then
      .ok { p with inData := p.inData ++ input.data, lastRxCnt := input.rxCnt }
    else .error .bufferLength
  else .ok p

/-- SEQ_NEXT on one instance (R118): INIT_STEP until Done, TX_STEP and RX_STEP after it, and the ACK
step always (R122). -/
def SeqState.advance (cap : Option Nat) (p : SeqState) (input : FrameIn) (output : FrameOut) :
    Except Err (SeqState × FrameOut) :=
  match p.initState with
  | .done => do
    let (p, out) := p.txStep input output
    let p ← p.rxStep cap input
    .ok (p, acknowledge input.rxCnt out)
  | _ =>
    let (p, out) := p.initStep output
    .ok (p, acknowledge input.rxCnt out)

/-! ### Writing and reading -/

/-- `ceil(n / u)`. -/
def ceilDiv (n u : Nat) : Nat := (n + u - 1) / u

/-- The chunks of a byte list: `bytes[k*U .. min((k+1)*U, len)]` for each k (R123). -/
def chunks (u : Nat) (bytes : List Byte) : List (List Byte) :=
  (List.range (ceilDiv bytes.length u)).map fun k => (bytes.drop (k * u)).take u

/-- SEQ_WRITE on one instance (R117, R123, R127). -/
def SeqState.enqueue (cap : Option Nat) (p : SeqState) (bytes : List Byte) : Except Err SeqState :=
  let cs := chunks p.processDataLen.userDataLen bytes
  if fits cap (p.outData.length + cs.length) then .ok { p with outData := p.outData ++ cs }
  else .error .bufferLength

/-- SEQ_READ on one instance (R124). -/
def SeqState.drain (p : SeqState) : SeqState × Option (List Byte) :=
  match p.inData with
  | [] => (p, none)
  | b :: bs => ({ p with inData := [] }, some (b :: bs))

/-! ### The operations on the pool -/

/-- SEQ_WRITE (R123), also CPL_WRITER (R158). -/
def seqWrite (key : Nat) (bytes : List Byte) (s : State) : Except Err (State × Result) := do
  let p ← lookupInstance s.seq key
  let p' ← p.enqueue s.params.outQCap bytes
  .ok (s.setInstance key p', .none)

/-- SEQ_READ (R124), also CPL_READER (R157). -/
def seqRead (key : Nat) (s : State) : Except Err (State × Result) := do
  let p ← lookupInstance s.seq key
  let (p', r) := p.drain
  .ok (s.setInstance key p', .bytes r)

/-- SEQ_NEW (R114). -/
def seqNew (key frameLen : Nat) (s : State) : Except Err (State × Result) :=
  match FrameLen.ofBytes frameLen with
  | none => .error .channelParameter
  | some l =>
    .ok ({ s.setInstance key (SeqState.fresh l s.draws) with draws := s.draws + 1 }, .none)

/-- SEQ_NEXT (R118). -/
def seqNext (key : Nat) (input : FrameIn) (output : FrameOut) (s : State) :
    Except Err (State × Result) := do
  let p ← lookupInstance s.seq key
  let (p', out) ← p.advance s.params.inBufCap input output
  .ok (s.setInstance key p', .frame out)

/-- SEQ_NEW (R114). -/
def execSeqNew (key frameLen : Nat) (s : State) : Host.Outcome State Fault Refusal :=
  s.finish (seqNew key frameLen s)

/-- SEQ_NEXT (R118). -/
def execSeqNext (key : Nat) (input : FrameIn) (output : FrameOut) (s : State) :
    Host.Outcome State Fault Refusal :=
  s.finish (seqNext key input output s)

/-- SEQ_WRITE (R123). -/
def execSeqWrite (key : Nat) (bytes : List Byte) (s : State) : Host.Outcome State Fault Refusal :=
  s.finish (seqWrite key bytes s)

/-- SEQ_READ (R124). -/
def execSeqRead (key : Nat) (s : State) : Host.Outcome State Fault Refusal :=
  s.finish (seqRead key s)

end Sys2Proof.Machine
end

