-- ==== Sys2Proof/Machine/Controller.lean ====
section
/-! DEFINITION. Unit 3, the controller: the eight CPL operations (43_controller.md). -/

namespace Sys2Proof.Machine

/-! ### Construction -/

/-- One codec per type and parameter block, in module order, the first error ending it (R136, R138). -/
def buildModules (C : Codecs) :
    List (ModuleType × List Word16) → Except Err (List CodecInst)
  | [] => .ok []
  | (t, p) :: rest => do
    let c ← codecCall (C.fromParameters t p)
    let cs ← buildModules C rest
    .ok (c :: cs)

/-- One fresh instance per tunnel module, keyed by module index from `idx` on, each with its own draw
of the free value from `draw` on (R136). -/
def buildPool (C : Codecs) : Nat → Nat → List CodecInst → List (Nat × SeqState)
  | _, _, [] => []
  | idx, draw, c :: rest =>
    match C.tunnelFrameLen c with
    | some l => (idx, SeqState.fresh l draw) :: buildPool C (idx + 1) (draw + 1) rest
    | none => buildPool C (idx + 1) draw rest

/-- The sort key of R137: modules with an output offset first, by bit address. -/
def encKey (off : ModuleOffset) : Nat × Nat :=
  match off.output with
  | some o => (0, o.toNat)
  | none => (1, 0)

/-- `key(i) ≤ key(j)`, lexicographic. -/
def encKeyLe (a b : Nat × Nat) : Bool :=
  decide (a.1 < b.1) || (decide (a.1 = b.1) && decide (a.2 ≤ b.2))

/-- `enc_order`: the stable sort of the indices by key (R137). -/
def encodeOrder (offs : List ModuleOffset) : List Nat :=
  (List.range offs.length).insertionSort fun i j =>
    encKeyLe (encKey (offs.getD i ⟨none, none⟩)) (encKey (offs.getD j ⟨none, none⟩)) = true

/-- CPL_NEW: the checks of R136 in the order of R138, then the commit of R139. -/
def cplNew (types : List ModuleType) (params : List (List Word16)) (offsets : List Word16)
    (s : State) : Except Err (State × Result) :=
  if params.length ≠ types.length then .error .bufferLength
  else if offsets.length ≠ 2 * types.length then .error .moduleOffset
  else do
    let offs ← parseOffsets offsets
    let mods ← buildModules s.codecs (types.zip params)
    let pool := buildPool s.codecs 0 s.draws mods
    .ok ({ s with
      modules := mods, offsets := offs, encOrder := encodeOrder offs, seq := pool
      draws := s.draws + pool.length, write := [], inValues := [], outValues := []
      lastTxCnt := [], txEdge := [] }, .none)

/-! ### Pending writes -/

/-- CPL_SET_OUTPUT checks only the address (R142, R143). -/
def cplSetOutput (addr : Address) (value : ChannelValue) (s : State) :
    Except Err (State × Result) :=
  if s.validAddr addr then .ok ({ s with write := mapSet addrLt s.write addr value }, .none)
  else .error .address

/-! ### The cycle -/

/-- `ov[i][ch] <- v`. -/
def setChannel (ov : List (List ChannelValue)) (i ch : Nat) (v : ChannelValue) :
    List (List ChannelValue) :=
  ov.modify i fun vs => vs.set ch v

/-- The decoded channel 0 of module `i` on both sides, where both are tunnel frames (R146). -/
def tunnelFrames (iv ov : List (List ChannelValue)) (i : Nat) : Option (FrameIn × FrameOut) :=
  match iv.getD i [], ov.getD i [] with
  | .tunnelIn fi :: _, .tunnelOut fo :: _ => some (fi, fo)
  | _, _ => none

/-- TX_EDGE(i, fo') (R153). -/
def txEdgeStep (i : Nat) (fo' : FrameOut) (w : Cycle) : Cycle :=
  { w with
    edge := match mapGet w.lastTx i with
      | some t => if t ≠ fo'.txCnt then w.edge ++ [i] else w.edge
      | none => w.edge
    lastTx := mapSet natLt w.lastTx i fo'.txCnt }

/-- TUNNEL_WRITE(i) on the advanced instance `p` (R150): a pending `Bytes` value of channel 0 is queued
and consumed, any other value raises. -/
def tunnelWrite (cap : Option Nat) (i : Nat) (p : SeqState) (w : Cycle) : Except Err Cycle :=
  match mapGet w.write ⟨i, 0⟩ with
  | none => .ok w
  | some (.bytes bs) => do
    let p' ← p.enqueue cap bs
    .ok { w with seq := mapSet natLt w.seq i p', write := mapRemove w.write ⟨i, 0⟩ }
  | some _ => .error .channelValue

/-- Phase 2 on module `i` (R146): a module with an instance whose channel 0 is a frame on both sides
is advanced; any other module is left as decoded. -/
def tunnelStep (params : Params) (iv : List (List ChannelValue)) (i : Nat) (w : Cycle) :
    Except Err Cycle :=
  match mapGet w.seq i, tunnelFrames iv w.ov i with
  | some p, some (fi, fo) => do
    let (p', fo') ← p.advance params.inBufCap fi fo
    let w := { w with seq := mapSet natLt w.seq i p', ov := setChannel w.ov i 0 (.tunnelOut fo') }
    tunnelWrite params.outQCap i p' (txEdgeStep i fo' w)
  | _, _ => .ok w

/-- One channel of phase 3 (R151). -/
def channelStep (i ch : Nat) (w : Cycle) : Except Err Cycle :=
  match mapGet w.write ⟨i, ch⟩ with
  | none => .ok w
  | some v =>
    if ch ≥ (w.ov.getD i []).length then .error .channelValue
    else .ok { w with ov := setChannel w.ov i ch v, write := mapRemove w.write ⟨i, ch⟩ }

/-- A loop over indices in the order given, the first error ending it. -/
def sweep (f : Nat → Cycle → Except Err Cycle) : List Nat → Cycle → Except Err Cycle
  | [], w => .ok w
  | i :: rest, w => do
    let w ← f i w
    sweep f rest w

/-- Phase 3 on module `i` (R151): only a module with no instance (R148), its channels ascending. -/
def plainStep (C : Codecs) (modules : List CodecInst) (i : Nat) (w : Cycle) : Except Err Cycle :=
  match mapGet w.seq i, modules[i]? with
  | none, some c => sweep (channelStep i) (List.range (C.channelCount c)) w
  | _, _ => .ok w

/-- Phase 1 (R145): the input image is decoded before the output image. -/
def cyclePhase1 (s : State) (processInput processOutput : List Word16) :
    Except Err (List (List ChannelValue) × List (List ChannelValue)) := do
  let mods := s.modules.zip s.offsets
  let iv ← decodeInputs s.codecs mods Config.inBase processInput
  let ov ← decodeOutputs s.codecs mods Config.outBase processOutput
  .ok (iv, ov)

/-- The working copies at the start of phase 2; the new `tx_edge` starts empty (R144, R153). -/
def State.staged (s : State) (ov : List (List ChannelValue)) : Cycle :=
  ⟨ov, s.write, s.seq, s.lastTxCnt, []⟩

/-- Phase 4 (R152): MAP_ENCODE with the modules and their values in `enc_order`. -/
def cyclePhase4 (s : State) (ov : List (List ChannelValue)) : Except Err (List Word16) :=
  mapEncode s.codecs (s.encOrder.filterMap fun j => (s.modules.zip s.offsets)[j]?) Config.outBase
    (s.encOrder.filterMap fun j => ov[j]?)

/-- CPL_NEXT (R144, R147): the four phases on working copies, committed only when all succeed. -/
def cplNext (processInput processOutput : List Word16) (s : State) :
    Except Err (State × Result) := do
  let (iv, ov) ← cyclePhase1 s processInput processOutput
  let indices := List.range s.modules.length
  let w ← sweep (tunnelStep s.params iv) indices (s.staged ov)
  let w ← sweep (plainStep s.codecs s.modules) indices w
  let regs ← cyclePhase4 s w.ov
  .ok ({ s with
    inValues := iv, outValues := w.ov, write := w.write, seq := w.seq
    lastTxCnt := w.lastTx, txEdge := w.edge }, .cycle regs w.edge)

/-! ### The operations -/

/-- CPL_NEW (R135). -/
def execCplNew (types : List ModuleType) (params : List (List Word16)) (offsets : List Word16)
    (s : State) : Host.Outcome State Fault Refusal :=
  s.finish (cplNew types params offsets s)

/-- CPL_IS_VALID_ADDR (R141). -/
def execCplIsValidAddr (addr : Address) (s : State) : Host.Outcome State Fault Refusal :=
  s.finish (.ok (s, .bool (s.validAddr addr)))

/-- CPL_SET_OUTPUT (R142). -/
def execCplSetOutput (addr : Address) (value : ChannelValue) (s : State) :
    Host.Outcome State Fault Refusal :=
  s.finish (cplSetOutput addr value s)

/-- CPL_NEXT (R147). -/
def execCplNext (processInput processOutput : List Word16) (s : State) :
    Host.Outcome State Fault Refusal :=
  s.finish (cplNext processInput processOutput s)

/-- CPL_INPUTS (R155). -/
def execCplInputs (s : State) : Host.Outcome State Fault Refusal :=
  s.finish (.ok (s, .values s.inValues))

/-- CPL_OUTPUTS (R156). -/
def execCplOutputs (s : State) : Host.Outcome State Fault Refusal :=
  s.finish (.ok (s, .values s.outValues))

/-- CPL_READER: exactly SEQ_READ with `key = module` (R157). -/
def execCplReader (module : Nat) (s : State) : Host.Outcome State Fault Refusal :=
  s.finish (seqRead module s)

/-- CPL_WRITER: exactly SEQ_WRITE with `key = module` (R158). -/
def execCplWriter (module : Nat) (bytes : List Byte) (s : State) :
    Host.Outcome State Fault Refusal :=
  s.finish (seqWrite module bytes s)

end Sys2Proof.Machine
end

