-- ==== Sys2Proof/Machine/Dispatch.lean ====
section
/-! DEFINITION. One arm per instruction, each one call of its meaning. -/

namespace Sys2Proof.Machine

def exec (i : Instr) (s : State) : Host.Outcome State Fault Refusal :=
  match i with
  | .baSplit addr => Sys2Proof.Machine.execBaSplit addr s
  | .baJoin register bit => Sys2Proof.Machine.execBaJoin register bit s
  | .baOffsets flat => Sys2Proof.Machine.execBaOffsets flat s
  | .baModlist regs => Sys2Proof.Machine.execBaModlist regs s
  | .mapDecodeIn mods baseAddr data => Sys2Proof.Machine.execMapDecodeIn mods baseAddr data s
  | .mapDecodeOut mods baseAddr data => Sys2Proof.Machine.execMapDecodeOut mods baseAddr data s
  | .mapEncode mods baseAddr values => Sys2Proof.Machine.execMapEncode mods baseAddr values s
  | .seqNew key frameLen => Sys2Proof.Machine.execSeqNew key frameLen s
  | .seqNext key input output => Sys2Proof.Machine.execSeqNext key input output s
  | .seqWrite key bytes => Sys2Proof.Machine.execSeqWrite key bytes s
  | .seqRead key => Sys2Proof.Machine.execSeqRead key s
  | .cplNew types params offsets => Sys2Proof.Machine.execCplNew types params offsets s
  | .cplIsValidAddr addr => Sys2Proof.Machine.execCplIsValidAddr addr s
  | .cplSetOutput addr value => Sys2Proof.Machine.execCplSetOutput addr value s
  | .cplNext processInput processOutput => Sys2Proof.Machine.execCplNext processInput processOutput s
  | .cplInputs => Sys2Proof.Machine.execCplInputs s
  | .cplOutputs => Sys2Proof.Machine.execCplOutputs s
  | .cplReader module => Sys2Proof.Machine.execCplReader module s
  | .cplWriter module bytes => Sys2Proof.Machine.execCplWriter module bytes s

end Sys2Proof.Machine
end

