-- ==== Sys2Proof/Machine/Step.lean ====
section
/-! DEFINITION. One step of the machine: one request, taken whole (00_scope.md R6, 20_memory.md R54). -/

namespace Sys2Proof.Machine

/-- One step. With no request pending the block does nothing (R169, R176; assumption log 4). Otherwise
it takes the first request and either runs its instruction or answers the reject. -/
def step (s : State) : Host.Outcome State Fault Refusal :=
  match s.takeRequest with
  | none => .next s
  | some (r, t) =>
    match decode r with
    | .ok i => exec i t
    | .error e => t.reject e

/-- `s` with the request of an opcode-table word as the next one the block takes, its operand record
all zeros (assumption log 3, 17). -/
def State.withFetchWord (s : State) (nbits w : Nat) : State :=
  { s with commandPort := requestOfTableWord nbits w :: s.commandPort }

end Sys2Proof.Machine
end

