-- ==== Sys2Proof/Safety.lean ====
section
/-! DEFINITION. What the claims call a sound state and a sound codec family: the invariants the spec
gives the state (10_state.md R29, R33, R36 to R42), and the contract it asks of a tunnel codec. -/

namespace Sys2Proof.Machine

/-- A sequencer instance within the spec's bounds: every queued chunk non-empty and at most
`user_data_len` bytes (R33), the buffers within their capacities (R127). -/
structure SoundInstance (params : Params) (p : SeqState) : Prop where
  chunkSizes : ∀ c ∈ p.outData, c ≠ [] ∧ c.length ≤ p.processDataLen.userDataLen
  inDataFits : fits params.inBufCap p.inData.length = true
  outDataFits : fits params.outQCap p.outData.length = true

/-- A state within the spec's invariants. -/
structure SoundState (s : State) : Prop where
  /-- The pool is a map: keys strictly rise. -/
  seqCanonical : mapWf natLt s.seq = true
  /-- Every instance is within its bounds (R33, R127). -/
  instances : ∀ k p, mapGet s.seq k = some p → SoundInstance s.params p
  /-- There is an instance per serial-tunnel module, keyed by module index (R29). -/
  tunnels : ∀ (i : Nat) (c : CodecInst), s.modules[i]? = some c →
    (s.codecs.tunnelFrameLen c).isSome = true → (mapGet s.seq i).isSome = true
  /-- The pending writes are a map. -/
  writeCanonical : mapWf addrLt s.write = true
  /-- Only a valid address is pending (R142). -/
  writeValid : ∀ a v, mapGet s.write a = some v → s.validAddr a = true
  /-- `last_tx_cnt` is a map. -/
  lastTxCanonical : mapWf natLt s.lastTxCnt = true
  /-- `last_tx_cnt` has entries for module indices only (R41). -/
  lastTxModules : ∀ k t, mapGet s.lastTxCnt k = some t → k < s.modules.length
  /-- `modules` and `offsets` are index-aligned (R36, R42). -/
  aligned : s.offsets.length = s.modules.length
  /-- `enc_order` is the order R137 computes from the offsets (R38). -/
  order : s.encOrder = encodeOrder s.offsets
  /-- The snapshots are both empty, or as long as `modules` (R42). -/
  snapshots : (s.inValues = [] ∧ s.outValues = []) ∨
    (s.inValues.length = s.modules.length ∧ s.outValues.length = s.modules.length)
  /-- `tx_edge` lists modules in ascending order (R153). -/
  edgesAscend : s.txEdge.Pairwise (· < ·)
  /-- Every module of `tx_edge` has advanced (R153). -/
  edgesAdvanced : ∀ i ∈ s.txEdge, (mapGet s.lastTxCnt i).isSome = true

/-- What the block requires of a tunnel codec's `encode_output` (R126). The model does not impose it
on a family: a codec may break it (R178; assumption log 10). R126 says "encoding a value TunnelOut(fo)"
and leaves open a codec whose frame is one of several channels (R150, R160): DESIGN CHOICE, the contract
is asked of the one-value list alone (assumption log 21). -/
def KeepsFrameContract (C : Codecs) : Prop :=
  ∀ c l fo e, C.tunnelFrameLen c = some l → frameEncodeCheck l fo = .error e →
    C.encodeOutput c [.tunnelOut fo] = .error e

/-- A frame's counters are wire values, 0 to 3 (R25). -/
def LegalIn (f : FrameIn) : Prop := f.rxCnt.toNat ≤ 3 ∧ f.txCntAck.toNat ≤ 3

/-- A frame's counters are wire values, 0 to 3 (R25). -/
def LegalOut (f : FrameOut) : Prop := f.txCnt.toNat ≤ 3 ∧ f.rxCntAck.toNat ≤ 3

/-- What R25 says of frames a codec's decode function produces; not imposed on a family either. -/
def DecodesLegalCounters (C : Codecs) : Prop :=
  (∀ c ws vs fi, C.decodeInput c ws = .ok vs → .tunnelIn fi ∈ vs → LegalIn fi) ∧
    ∀ c ws vs fo, C.decodeOutput c ws = .ok vs → .tunnelOut fo ∈ vs → LegalOut fo

end Sys2Proof.Machine
end

