-- ==== Sys2Proof/Certificates/Slice0/Obligations.lean ====
section
/-! DEFINITION. The statements for the provers. Each docstring names the rules of spec/ a statement
rests on; the relations before them say in the spec's own terms what an operation's rules ask. -/

namespace Sys2Proof.Claims

open Sys2Proof Sys2Proof.Machine

/-! ### The spec's rules as relations -/

/-- The window of R100 to R102 in the words of the rules: the register and its checks, then the words
unchanged for bit 0, or for bit 8 each word the high byte of its register with the low byte of the
next register of the window above it, zero after the last. -/
def IsWindow (o : BitAddress) (byteCount : Nat) (baseAddr : Word16) (data ws : List Word16) : Prop :=
  let start := o.toNat / 16 - baseAddr.toNat
  let n := max 1 (byteCount / 2)
  baseAddr.toNat ≤ o.toNat / 16 ∧ start + n ≤ data.length ∧ ws.length = n ∧
    ((o.toNat % 16 = 0 ∧ ∀ k < n, ws[k]? = data[start + k]?) ∨
      (o.toNat % 16 = 8 ∧ ∀ k < n, (ws.getD k 0).toNat =
        (data.getD (start + k) 0).toNat / 256 +
          256 * (if k + 1 < n then (data.getD (start + k + 1) 0).toNat % 256 else 0)))

/-- What DECODE yields for one module whose selected offset, byte count and decode function are given
(R99, R103). -/
def DecodesTo (channels : Nat) (o : Option BitAddress) (byteCount : Nat)
    (dec : List Word16 → Except CodecError (List ChannelValue)) (baseAddr : Word16)
    (data : List Word16) (vs : List ChannelValue) : Prop :=
  (o = none ∧ vs = List.replicate channels .none) ∨
    ∃ a ws, o = some a ∧ IsWindow a byteCount baseAddr data ws ∧ dec ws = .ok vs

/-- DECODE with `select = Input` on one module (R81, R99). -/
def DecodesInput (C : Codecs) (baseAddr : Word16) (data : List Word16)
    (m : CodecInst × ModuleOffset) (vs : List ChannelValue) : Prop :=
  DecodesTo (C.channelCount m.1) m.2.input (C.inputByteCount m.1) (C.decodeInput m.1) baseAddr data vs

/-- DECODE with `select = Output` on one module (R81, R99). -/
def DecodesOutput (C : Codecs) (baseAddr : Word16) (data : List Word16)
    (m : CodecInst × ModuleOffset) (vs : List ChannelValue) : Prop :=
  DecodesTo (C.channelCount m.1) m.2.output (C.outputByteCount m.1) (C.decodeOutput m.1) baseAddr data vs

/-- The first error of a module whose selected offset is present (R113): the register below the base,
then the window past the array, then the illegal bit, then the codec's own error. -/
def DecodeRaises (a : BitAddress) (byteCount : Nat)
    (dec : List Word16 → Except CodecError (List ChannelValue)) (baseAddr : Word16)
    (data : List Word16) (e : Err) : Prop :=
  let stop := a.toNat / 16 - baseAddr.toNat + max 1 (byteCount / 2)
  if a.toNat / 16 < baseAddr.toNat then e = .moduleOffset
  else if data.length < stop then e = .bufferLength
  else if a.toNat % 16 ≠ 0 ∧ a.toNat % 16 ≠ 8 then e = .moduleOffset
  else ∃ ws ce, IsWindow a byteCount baseAddr data ws ∧ dec ws = .error ce ∧ e = codecErr ce

/-- One module's placement by R106 to R108: `out` before it, `out'` after it, `ws` its words. -/
def Places (baseAddr : Word16) (o : BitAddress) (ws out out' : List Word16) : Prop :=
  let start := o.toNat / 16 - baseAddr.toNat
  baseAddr.toNat ≤ o.toNat / 16 ∧
    ((o.toNat % 16 = 0 ∧ out.length = start ∧ out' = out ++ ws) ∨
      (o.toNat % 16 = 8 ∧ out.length = start + 1 ∧ ∃ init old w0 rest new, out = init ++ [old] ∧
        ws = w0 :: rest ∧ out' = init ++ [new] ∧
          new.toNat = old.toNat % 256 + 256 * (w0.toNat % 256)))

/-- The loop of MAP_ENCODE (R105, R109): `out` before it, `fin` its result. -/
def EncodesTo (C : Codecs) (baseAddr : Word16) :
    List ((CodecInst × ModuleOffset) × List ChannelValue) → List Word16 → List Word16 → Prop
  | [], out, fin => out = fin
  | ((c, off), vs) :: rest, out, fin =>
    match off.output with
    | none => EncodesTo C baseAddr rest out fin
    | some o => ∃ ws out', C.encodeOutput c vs = .ok ws ∧ Places baseAddr o ws out out' ∧
        EncodesTo C baseAddr rest out' fin

/-- The first error of a module with an output offset, `out` before it (R111). -/
def EncodeRaises (C : Codecs) (baseAddr : Word16) (c : CodecInst) (vs : List ChannelValue)
    (o : BitAddress) (out : List Word16) (e : Err) : Prop :=
  let start := o.toNat / 16 - baseAddr.toNat
  (∃ ce, C.encodeOutput c vs = .error ce ∧ e = codecErr ce) ∨
    ∃ ws, C.encodeOutput c vs = .ok ws ∧
      if o.toNat / 16 < baseAddr.toNat then e = .moduleOffset
      else if o.toNat % 16 = 0 then out.length ≠ start ∧ e = .moduleOffset
      else if o.toNat % 16 = 8 then
        if out.length ≠ start + 1 then e = .moduleOffset else ws = [] ∧ e = .bufferLength
      else e = .moduleOffset

/-- A register word's number of words that a bit-0 module adds to an encode (R107, R110). -/
def bit0Words (C : Codecs) (m : (CodecInst × ModuleOffset) × List ChannelValue) : Nat :=
  match m.1.2.output, C.encodeOutput m.1.1 m.2 with
  | some o, .ok ws => if o.toNat % 16 = 0 then ws.length else 0
  | _, _ => 0

/-- Some codec function of the family returns this error (R164). -/
def CodecReturns (C : Codecs) (ce : CodecError) : Prop :=
  (∃ t p, C.fromParameters t p = .error ce) ∨ (∃ c ws, C.decodeInput c ws = .error ce) ∨
    (∃ c ws, C.decodeOutput c ws = .error ce) ∨ ∃ c vs, C.encodeOutput c vs = .error ce

/-- `key(i) < key(j)`, or the same key and `i < j`: the order of a stable sort by the key of R137. -/
def EncBefore (offs : List ModuleOffset) (i j : Nat) : Prop :=
  match (offs.getD i ⟨none, none⟩).output, (offs.getD j ⟨none, none⟩).output with
  | some a, some b => a.toNat < b.toNat ∨ (a = b ∧ i < j)
  | some _, none => True
  | none, some _ => False
  | none, none => i < j

/-- One chunking of `bytes` by R123: every chunk but the last full, none empty. -/
def IsChunking (u : Nat) (bytes : List Byte) (cs : List (List Byte)) : Prop :=
  cs.flatten = bytes ∧ (∀ c ∈ cs, c ≠ [] ∧ c.length ≤ u) ∧
    ∀ k, k + 1 < cs.length → (cs.getD k []).length = u

/-- `ceil(n / u)` of R123: the least number of chunks of `u` bytes that hold `n` bytes. -/
def IsCeil (n u k : Nat) : Prop := n ≤ k * u ∧ ∀ j, n ≤ j * u → k ≤ j

/-- What R146 to R153 and the table of R160 say of module `i` in a cycle from `s` to `t` whose edge list
is `edge`: `iv` and `ov` are its decoded values, `ov'` its output values after the cycle. -/
def ModuleOutcome (s t : State) (edge : List Nat) (i : Nat) (c : CodecInst)
    (iv ov ov' : List ChannelValue) : Prop :=
  match mapGet s.seq i with
  | none =>
    mapGet t.seq i = none ∧ mapGet t.lastTxCnt i = mapGet s.lastTxCnt i ∧ i ∉ edge ∧
      ∀ ch, if ch < s.codecs.channelCount c then
          mapGet t.write ⟨i, ch⟩ = none ∧
            match mapGet s.write ⟨i, ch⟩ with
            | some v => ov'[ch]? = some v ∧ ch < ov.length
            | none => ov'[ch]? = ov[ch]?
        else ov'[ch]? = ov[ch]? ∧ mapGet t.write ⟨i, ch⟩ = mapGet s.write ⟨i, ch⟩
  | some p =>
    (∀ ch, ch ≠ 0 → mapGet t.write ⟨i, ch⟩ = mapGet s.write ⟨i, ch⟩) ∧
      match iv, ov with
      | .tunnelIn fi :: _, .tunnelOut fo :: ovs =>
        ∃ u fo' p', exec (.seqNext i fi fo) s = .next u ∧ u.response = some (.ok (.frame fo')) ∧
          mapGet u.seq i = some p' ∧ ov' = .tunnelOut fo' :: ovs ∧
          mapGet t.lastTxCnt i = some fo'.txCnt ∧
          (i ∈ edge ↔ ∃ n, mapGet s.lastTxCnt i = some n ∧ n ≠ fo'.txCnt) ∧
          mapGet t.write ⟨i, 0⟩ = none ∧
          match mapGet s.write ⟨i, 0⟩ with
          | none => mapGet t.seq i = some p'
          | some (.bytes bs) => ∃ u', exec (.seqWrite i bs) u = .next u' ∧
              u'.response = some (.ok .none) ∧ mapGet t.seq i = mapGet u'.seq i
          | some _ => False
      | _, _ => mapGet t.seq i = some p ∧ ov' = ov ∧ i ∉ edge ∧
          mapGet t.lastTxCnt i = mapGet s.lastTxCnt i ∧
          mapGet t.write ⟨i, 0⟩ = mapGet s.write ⟨i, 0⟩

/-- SEQ_NEXT on this instance and this frame accepts inbound data (R121). -/
def Accepts (p : SeqState) (fi : FrameIn) : Prop :=
  p.initState = .done ∧ fi.dataAvailable = true ∧ fi.rxCnt ≠ p.lastRxCnt

/-- SEQ_NEXT on this instance and these frames sends a chunk (R120). -/
def Sends (p : SeqState) (fi : FrameIn) (fo : FrameOut) : Prop :=
  p.initState = .done ∧ p.outData ≠ [] ∧ (fi.txCntAck.toNat + 1) % 4 ≠ fo.txCnt.toNat

/-- The frame SEQ_NEXT produces by the rules of R119, R120, R122 and R132. -/
def FrameAfter (p : SeqState) (fi : FrameIn) (fo fo' : FrameOut) : Prop :=
  fo'.rxCntAck = fi.rxCnt ∧
  (p.initState = .clearBuffers → fo' = ⟨fo.active, false, true, true, fo.txCnt, fi.rxCnt, []⟩) ∧
  (p.initState = .reset → fo' = ⟨fo.active, true, false, false, fo.txCnt, fi.rxCnt, []⟩) ∧
  (Sends p fi fo → fo'.txCnt.toNat = (fi.txCntAck.toNat + 1) % 4 ∧ fo'.active = true ∧
    p.outData.head? = some fo'.data ∧ fo'.reset = fo.reset ∧ fo'.rxBufFlush = fo.rxBufFlush ∧
    fo'.txBufFlush = fo.txBufFlush) ∧
  (p.initState = .done → ¬Sends p fi fo → fo' = { fo with rxCntAck := fi.rxCnt })

/-- The pending write of a tunnel module that its advance leaves can be queued: none, or bytes whose
chunks the queue takes after the advance (R123, R127, R150). -/
def WriteQueues (params : Params) (p : SeqState) (fi : FrameIn) (fo : FrameOut) :
    Option ChannelValue → Prop
  | none => True
  | some (.bytes bs) => ∀ cap n, params.outQCap = some cap →
      IsCeil bs.length p.processDataLen.userDataLen n →
      (Sends p fi fo → p.outData.length - 1 + n ≤ cap) ∧
        (¬Sends p fi fo → p.outData.length + n ≤ cap)
  | some _ => False

/-- The output values of module `i` after phases 2 and 3, and that nothing the rules name raises on it
in either phase (R121, R146, R150, R151). -/
def ModuleReady (s : State) (i : Nat) (c : CodecInst) (iv ov ov' : List ChannelValue) : Prop :=
  match mapGet s.seq i with
  | none =>
    ov'.length = ov.length ∧ ∀ ch, if ch < s.codecs.channelCount c then
        match mapGet s.write ⟨i, ch⟩ with
        | some v => ch < ov.length ∧ ov'[ch]? = some v
        | none => ov'[ch]? = ov[ch]?
      else ov'[ch]? = ov[ch]?
  | some p =>
    match iv, ov with
    | .tunnelIn fi :: _, .tunnelOut fo :: ovs =>
      (∃ fo', FrameAfter p fi fo fo' ∧ ov' = .tunnelOut fo' :: ovs) ∧
      (∀ cap, s.params.inBufCap = some cap → Accepts p fi → p.inData.length + fi.data.length ≤ cap) ∧
      WriteQueues s.params p fi fo (mapGet s.write ⟨i, 0⟩)
    | _, _ => ov' = ov

/-- Phase 2 raises nothing on module `i`: the accepted frame of an advanced tunnel module and its
pending write fit (R121, R146, R150). -/
def TunnelReady (s : State) (i : Nat) (iv ov : List ChannelValue) : Prop :=
  match mapGet s.seq i, iv, ov with
  | some p, .tunnelIn fi :: _, .tunnelOut fo :: _ =>
    (∀ cap, s.params.inBufCap = some cap → Accepts p fi → p.inData.length + fi.data.length ≤ cap) ∧
      WriteQueues s.params p fi fo (mapGet s.write ⟨i, 0⟩)
  | _, _, _ => True

/-- The error of phase 2 on module `i`, an advanced tunnel module (R154): SEQ_NEXT's capacity error, then
TUNNEL_WRITE's `ChannelValue` for a pending value that is not `Bytes`, or SEQ_WRITE's capacity error on
the queue the advance leaves (R121, R123, R127, R150). -/
def TunnelRaises (s : State) (i : Nat) (iv ov : List ChannelValue) (e : Err) : Prop :=
  match mapGet s.seq i, iv, ov with
  | some p, .tunnelIn fi :: _, .tunnelOut fo :: _ =>
    let overflows := ∃ cap, s.params.inBufCap = some cap ∧ Accepts p fi ∧
      cap < p.inData.length + fi.data.length
    (overflows ∧ e = .bufferLength) ∨
      ¬overflows ∧ match mapGet s.write ⟨i, 0⟩ with
        | none => False
        | some (.bytes bs) => e = .bufferLength ∧ ∃ cap n, s.params.outQCap = some cap ∧
            IsCeil bs.length p.processDataLen.userDataLen n ∧
            (Sends p fi fo → cap < p.outData.length - 1 + n) ∧
            (¬Sends p fi fo → cap < p.outData.length + n)
        | some _ => e = .channelValue
  | _, _, _ => False

/-- Phase 3 raises on module `i`: it has no instance, and one of its channels has a pending write and no
decoded value (R151). -/
def PlainRaises (s : State) (i : Nat) (c : CodecInst) (ov : List ChannelValue) : Prop :=
  mapGet s.seq i = none ∧ ∃ ch v, ch < s.codecs.channelCount c ∧ mapGet s.write ⟨i, ch⟩ = some v ∧
    ov.length ≤ ch

/-- The configured modules with their offsets, in configuration order (R145). -/
def configured (s : State) : List (CodecInst × ModuleOffset) := s.modules.zip s.offsets

/-- The configured modules in `enc_order` (R152). -/
def encMods (s : State) : List (CodecInst × ModuleOffset) :=
  s.encOrder.filterMap fun j => (configured s)[j]?

/-- A list of per-module values in `enc_order` (R152). -/
def encValues (s : State) (ov : List (List ChannelValue)) : List (List ChannelValue) :=
  s.encOrder.filterMap fun j => ov[j]?

/-- `k` SEQ_NEXT operations on one key with one input, each result echoed back as the next output
frame (R125): the final state and the last frame. -/
def echoRun (key : Nat) (input : FrameIn) : Nat → FrameOut → State → Option (State × FrameOut)
  | 0, output, s => some (s, output)
  | k + 1, output, s =>
    match exec (.seqNext key input output) s with
    | .next t =>
      match t.response with
      | some (.ok (.frame f)) => echoRun key input k f t
      | _ => none
    | _ => none

/-- The far end of a loopback: it returns the chunk and the count of the last output frame (R129). -/
def loopbackFrame (f : FrameOut) : FrameIn := ⟨true, false, false, f.txCnt, f.txCnt, f.data⟩

/-- `k` SEQ_NEXT operations against a loopback far end, each result echoed back as the next output
frame. -/
def loopbackRun (key : Nat) : Nat → FrameOut → State → Option State
  | 0, _, s => some s
  | k + 1, output, s =>
    match exec (.seqNext key (loopbackFrame output) output) s with
    | .next t =>
      match t.response with
      | some (.ok (.frame f)) => loopbackRun key k f t
      | _ => none
    | _ => none

/-- Two instances alike but for an unspecified `last_rx_cnt`: one that is not Done (R31, U3). -/
def AlikeInstance (p q : SeqState) : Prop :=
  p.initState = q.initState ∧ p.inData = q.inData ∧ p.outData = q.outData ∧
    p.processDataLen = q.processDataLen ∧ (p.initState = .done → p.lastRxCnt = q.lastRxCnt)

/-- Two states alike but for unspecified values: the model's counter of free values may differ too. -/
def Alike (s t : State) : Prop :=
  t = { s with seq := t.seq, draws := t.draws } ∧
    List.Forall₂ (fun a b => a.1 = b.1 ∧ AlikeInstance a.2 b.2) s.seq t.seq

/-- How far an instance is in its initialisation (R30). -/
def initRank : InitState → Nat
  | .clearBuffers => 0
  | .reset => 1
  | .done => 2

end Sys2Proof.Claims

open Sys2Proof Sys2Proof.Machine Sys2Proof.Claims

/-! ### Reset, the command port and the response port -/

/-- R181: power-on is an empty configuration, in which every CPL operation behaves as for zero modules. The
spec marks the power-on state as its decision D39. -/
def Obligations.PowerOnIsEmptyConfiguration : Prop :=
  State.reset.modules = [] ∧ State.reset.offsets = [] ∧ State.reset.encOrder = [] ∧
  State.reset.seq = [] ∧ State.reset.write = [] ∧ State.reset.inValues = [] ∧
  State.reset.outValues = [] ∧ State.reset.lastTxCnt = [] ∧ State.reset.txEdge = [] ∧
  (∀ pin pout, exec (.cplNext pin pout) State.reset =
    .next { State.reset with response := some (.ok (.cycle [] [])) }) ∧
  (∀ a v, exec (.cplSetOutput a v) State.reset =
    .next { State.reset with response := some (.error .address) }) ∧
  (∀ a, exec (.cplIsValidAddr a) State.reset =
    .next { State.reset with response := some (.ok (.bool false)) }) ∧
  exec .cplInputs State.reset = .next { State.reset with response := some (.ok (.values [])) } ∧
  exec .cplOutputs State.reset = .next { State.reset with response := some (.ok (.values [])) } ∧
  (∀ m, exec (.cplReader m) State.reset =
    .next { State.reset with response := some (.error .address) }) ∧
  ∀ m bs, exec (.cplWriter m bs) State.reset =
    .next { State.reset with response := some (.error .address) }

/-- The state after power-on is within the spec's invariants (R29, R33, R36 to R42, R45). That these rules
make one invariant is the model's choice. -/
def Obligations.ResetIsSound : Prop := SoundState State.reset

/-- R6, R28: the block takes the first request issued, and where the request decodes to an instruction, the
step is that instruction on the state without the request. That the port holds a list of issued requests
is the model's choice (assumption log 3). -/
def Obligations.StepRunsTheDecodedRequest : Prop :=
  ∀ (s : State) (r : Request) (rest : List Request) (i : Instr),
    s.commandPort = r :: rest → decode r = .ok i →
      step s = exec i { s with commandPort := rest }

/-- With no request the block does nothing and holds its state (R169, R176); that the response port
holds its last response is the model's choice (assumption log 4). -/
def Obligations.NoRequestNoChange : Prop :=
  ∀ s : State, s.commandPort = [] → step s = .next s

/-- The command words of the 19 operations (R72), and a few words and operand records written out from
R72 and R82 that decode to their instructions. The sequence form of a record is the model's choice
(assumption log 1). -/
def Obligations.CommandWordsOfTheOpcodeMap : Prop :=
  [Opcode.baSplit, .baJoin, .baOffsets, .baModlist, .mapDecodeIn, .mapDecodeOut, .mapEncode, .seqNew,
      .seqNext, .seqWrite, .seqRead, .cplNew, .cplIsValidAddr, .cplSetOutput, .cplNext, .cplInputs,
      .cplOutputs, .cplReader, .cplWriter].map commandWord =
    [0x01, 0x02, 0x03, 0x04, 0x11, 0x12, 0x13, 0x21, 0x22, 0x23, 0x24, 0x31, 0x32, 0x33, 0x34, 0x35,
      0x36, 0x37, 0x38] ∧
  decode ⟨0b00000001, [0x8008]⟩ = .ok (.baSplit 0x8008) ∧
  decode ⟨0b00000010, [0x800, 8]⟩ = .ok (.baJoin 0x800 8) ∧
  decode ⟨0b00010001, [1, 2, 1, 8, 0, 0, 1, 0xABCD]⟩ =
    .ok (.mapDecodeIn [(⟨2⟩, ⟨some 0x0008, none⟩)] 0 [0xABCD]) ∧
  decode ⟨0b00100011, [7, 2, 0x41, 0x42]⟩ = .ok (.seqWrite 7 [0x41, 0x42]) ∧
  decode ⟨0b00110011, [1, 3, 1, 1]⟩ = .ok (.cplSetOutput ⟨1, 3⟩ (.bit true)) ∧
  decode ⟨0b00110100, [1, 5, 0]⟩ = .ok (.cplNext [5] [])

/-- R73: a reserved command word raises IllegalCommand and writes no state, whatever follows it. The spec
marks the rule as its decision D3. -/
def Obligations.ReservedWordsRaiseIllegalCommand : Prop :=
  ∀ (s : State) (w : BitVec 8) (ops : List Nat) (rest : List Request),
    s.commandPort = ⟨w, ops⟩ :: rest →
    (w.toNat % 16 = 0 ∨ 64 ≤ w.toNat ∨ (w.toNat / 16 = 0 ∧ 4 < w.toNat % 16) ∨
      (w.toNat / 16 = 1 ∧ 3 < w.toNat % 16) ∨ (w.toNat / 16 = 2 ∧ 4 < w.toNat % 16) ∨
      (w.toNat / 16 = 3 ∧ 8 < w.toNat % 16)) →
    step s = .next { s with commandPort := rest, response := some (.error .illegalCommand) }

/-- R180: a channel-value tag from 8 to 15 raises ChannelValue before the operation runs. The two operations
whose records carry channel values: CPL_SET_OUTPUT's value, and any value of any list of MAP_ENCODE, the
fields before it read. The sequence form of a record is the model's (assumption log 1, 18). The spec
marks the tags and the check as its decision D41. -/
def Obligations.ReservedTagsRaiseChannelValue : Prop :=
  ∀ (s : State) (tag : Nat) (after : List Nat) (rest : List Request), 8 ≤ tag → tag ≤ 15 →
    (∀ m ch, s.commandPort = ⟨0x33, m :: ch :: tag :: after⟩ :: rest →
      step s = .next { s with commandPort := rest, response := some (.error .channelValue) }) ∧
    ∀ (mods : List (CodecInst × ModuleOffset)) (base : Word16) (vss : List (List ChannelValue))
      (vs : List ChannelValue) (nLists nValues : Nat), vss.length < nLists → vs.length < nValues →
      s.commandPort = ⟨0x13, putList putMod mods ++ putBits base ++
        nLists :: (vss.flatMap (putList putValue) ++
          nValues :: (vs.flatMap putValue ++ tag :: after))⟩ :: rest →
      step s = .next { s with commandPort := rest, response := some (.error .channelValue) }

/-- Every instruction's request decodes to it (R69, R72, R82, R83), every operand at every value. -/
def Obligations.DecodeInvertsEncode : Prop :=
  ∀ i : Instr, decode (encode i) = .ok i

/-- A request that decodes is the encoding of the instruction it decodes to: no two requests are read
as one instruction, and no field of a request is dropped (R68, R69, R72, R83). -/
def Obligations.EncodeInvertsDecode : Prop :=
  ∀ (r : Request) (i : Instr), decode r = .ok i → encode i = r

/-- The status codes of R162: OK is 0, each error has its code of the table, distinct, 11 to 14 never
returned. The spec marks the numbers as its decision D4. -/
def Obligations.StatusCodesOfTheTaxonomy : Prop :=
  (∀ r : Result, (Response.ok r).status = 0) ∧ (∀ e : Err, (Response.error e).status = e.code) ∧
  [Err.bufferLength, .channelParameter, .channelValue, .sequenceNumber, .dataLength, .moduleOffset,
      .address, .registerCount, .unknownModule, .unknownCategory, .illegalCommand].map Err.code =
    [1, 2, 3, 4, 5, 6, 7, 8, 9, 10, 15] ∧
  (∀ e : Err, 1 ≤ e.code.toNat ∧ ¬(11 ≤ e.code.toNat ∧ e.code.toNat ≤ 14)) ∧
  ∀ e e' : Err, e.code = e'.code → e = e'

/-! ### Rules of the whole machine -/

/-- Every step from a sound state that answers a next state answers a sound one (R29, R33, R36 to R42,
R127, R137, R142, R153). -/
def Obligations.StepKeepsSoundState : Prop :=
  ∀ s t : State, SoundState s → step s = .next t → SoundState t

/-- R200: every operation completes, with a response; it neither takes requests nor changes the
parameters of the run (R43). -/
def Obligations.EveryOperationAnswers : Prop :=
  ∀ (i : Instr) (s : State), ∃ t r, exec i s = .next t ∧ t.response = some r ∧
    t.commandPort = s.commandPort ∧ t.params = s.params

/-- R165: the state after an error equals the state before the request, but for the response. -/
def Obligations.ErrorsWriteNoState : Prop :=
  ∀ (i : Instr) (s t : State) (e : Err), exec i s = .next t → t.response = some (.error e) →
    t = { s with response := some (.error e) }

/-- R177 for UnknownCategory, and 60_exceptions.md R162 and R178 for the two frame codes: no operation
raises them itself, they reach a response only from a codec function. -/
def Obligations.CodecOnlyCodesComeFromCodecs : Prop :=
  ∀ (i : Instr) (s t : State) (e : Err), exec i s = .next t → t.response = some (.error e) →
    (e = .unknownCategory ∨ e = .sequenceNumber ∨ e = .dataLength) →
    ∃ ce, codecErr ce = e ∧ CodecReturns s.codecs ce

/-- IllegalCommand is raised by reserved command words alone: no operation answers it (R73, R162). -/
def Obligations.NoOperationRaisesIllegalCommand : Prop :=
  ∀ (i : Instr) (s t : State), exec i s = .next t → t.response ≠ some (.error .illegalCommand)

/-- The "written by" table of R36, and R37: which operations write which state. `draws` is the model's own
field (assumption log 9). -/
def Obligations.StateIsWrittenOnlyByItsWriters : Prop :=
  ∀ (i : Instr) (s t : State), exec i s = .next t →
    (i.opcode ≠ .cplNew → t.modules = s.modules ∧ t.offsets = s.offsets ∧ t.encOrder = s.encOrder) ∧
    (i.opcode ∉ [.cplSetOutput, .cplNext, .cplNew] → t.write = s.write) ∧
    (i.opcode ∉ [.cplNext, .cplNew] → t.inValues = s.inValues ∧ t.outValues = s.outValues ∧
      t.lastTxCnt = s.lastTxCnt ∧ t.txEdge = s.txEdge) ∧
    (i.opcode ∉ [.cplNew, .cplNext, .cplWriter, .cplReader, .seqNew, .seqNext, .seqWrite, .seqRead] →
      t.seq = s.seq) ∧
    (i.opcode ∉ [.cplNew, .seqNew] → t.draws = s.draws)

/-- R30, R34, R182: but for SEQ_NEW and CPL_NEW, no operation creates or removes an instance or changes
its frame size, and its initialisation state moves only forward, at most one step. -/
def Obligations.InitialisationOnlyMovesForward : Prop :=
  ∀ (i : Instr) (s t : State), exec i s = .next t → i.opcode ≠ .seqNew → i.opcode ≠ .cplNew →
    ∀ k, match mapGet s.seq k, mapGet t.seq k with
      | none, none => True
      | some p, some q => q.processDataLen = p.processDataLen ∧
          initRank p.initState ≤ initRank q.initState ∧
          initRank q.initState ≤ initRank p.initState + 1
      | _, _ => False

/-- R134: an operation on one key reads and writes only that key's instance. The spec marks the rule as
derived. That SEQ_NEW's unspecified `last_rx_cnt` is the same for equal `draws` rests on the model's
free value (assumption log 9). -/
def Obligations.InstancesAreIndependent : Prop :=
  ∀ (key : Nat) (i : Instr),
    ((∃ input output, i = .seqNext key input output) ∨ (∃ bs, i = .seqWrite key bs) ∨
      i = .seqRead key ∨ (∃ n, i = .seqNew key n) ∨ i = .cplReader key ∨ ∃ bs, i = .cplWriter key bs) →
    (∀ s t : State, exec i s = .next t → ∀ k, k ≠ key → mapGet t.seq k = mapGet s.seq k) ∧
    ∀ s s' t t' : State, s.params = s'.params → s.draws = s'.draws →
      mapGet s.seq key = mapGet s'.seq key → exec i s = .next t → exec i s' = .next t' →
      t.response = t'.response ∧ mapGet t.seq key = mapGet t'.seq key

/-- R31 and 93_implementation_defined.md U3: the unspecified `last_rx_cnt` of an instance that is not Done
shows in no response, and after every operation the two runs differ in nothing else. The free value is
the model's form of it (assumption log 9). -/
def Obligations.UnspecifiedLastRxCntIsNeverObserved : Prop :=
  ∀ (i : Instr) (s s' : State), Alike s s' → ∃ t t', exec i s = .next t ∧ exec i s' = .next t' ∧
    t.response = t'.response ∧ Alike t t'

/-! ### Unit 0 -/

/-- R89: BA_SPLIT, its encoding and its two fields; no state is written. -/
def Obligations.BaSplitGivesRegisterAndBit : Prop :=
  commandWord .baSplit = 0x01 ∧ ∀ (addr : Word16) (s : State), ∃ (register : BitVec 12) (bit : BitVec 4),
    exec (.baSplit addr) s = .next { s with response := some (.ok (.split register bit)) } ∧
      register.toNat = addr.toNat >>> 4 ∧ bit.toNat = addr.toNat &&& 0xF

/-- R90: BA_JOIN, its encoding, its value where both operands fit, and ModuleOffset where one does not. The
spec marks the rejection as its decision D29. -/
def Obligations.BaJoinBuildsTheAddress : Prop :=
  commandWord .baJoin = 0x02 ∧ ∀ (register bit : Nat) (s : State),
    (register ≤ 0x0FFF → bit ≤ 15 → ∃ a : Word16,
      exec (.baJoin register bit) s = .next { s with response := some (.ok (.addr a)) } ∧
        a.toNat = (register <<< 4) ||| bit) ∧
    (register > 0x0FFF ∨ bit > 15 →
      exec (.baJoin register bit) s = .next { s with response := some (.error .moduleOffset) })

/-- R91: the two round-trip laws. The spec marks the second as derived. -/
def Obligations.SplitAndJoinRoundTrip : Prop :=
  (∀ (register bit : Nat) (s : State), register ≤ 0x0FFF → bit ≤ 15 →
    ∃ (a : Word16) (r : BitVec 12) (b : BitVec 4),
      exec (.baJoin register bit) s = .next { s with response := some (.ok (.addr a)) } ∧
      exec (.baSplit a) s = .next { s with response := some (.ok (.split r b)) } ∧
      r.toNat = register ∧ b.toNat = bit) ∧
  ∀ (addr : Word16) (s : State), ∃ (r : BitVec 12) (b : BitVec 4),
    exec (.baSplit addr) s = .next { s with response := some (.ok (.split r b)) } ∧
    exec (.baJoin r.toNat b.toNat) s = .next { s with response := some (.ok (.addr addr)) }

/-- R92, R93: BA_OFFSETS, its encoding, on an even list, the empty one included, and on an odd one. The spec
marks the empty list as its decision D31. -/
def Obligations.BaOffsetsReadsPairs : Prop :=
  commandWord .baOffsets = 0x03 ∧ ∀ (flat : List Word16) (s : State),
    (flat.length % 2 = 0 → ∃ offs : List ModuleOffset,
      exec (.baOffsets flat) s = .next { s with response := some (.ok (.offsets offs)) } ∧
      2 * offs.length = flat.length ∧ ∀ (k : Nat) (off : ModuleOffset), offs[k]? = some off →
        ∃ o i, flat[2 * k]? = some o ∧ flat[2 * k + 1]? = some i ∧
          off.output = (if o = 0xFFFF then none else some o) ∧
          off.input = (if i = 0xFFFF then none else some i)) ∧
    (flat.length % 2 = 1 →
      exec (.baOffsets flat) s = .next { s with response := some (.error .registerCount) })

/-- R94, R95: BA_MODLIST, its encoding, the length check before any lookup, the first unknown identifier
raising. The spec marks the order as its decision D27. -/
def Obligations.BaModlistLooksUpIdentifiers : Prop :=
  commandWord .baModlist = 0x04 ∧ ∀ (regs : List Word16) (s : State),
    (regs = [] ∨ regs.length % 2 = 1 →
      exec (.baModlist regs) s = .next { s with response := some (.error .registerCount) }) ∧
    (regs ≠ [] → regs.length % 2 = 0 → ∀ ts : List ModuleType, 2 * ts.length = regs.length →
      (∀ k < ts.length, s.codecs.typeOfId (BitVec.ofNat 32
        ((regs.getD (2 * k) 0).toNat * 65536 + (regs.getD (2 * k + 1) 0).toNat)) = ts[k]?) →
      exec (.baModlist regs) s = .next { s with response := some (.ok (.types ts)) }) ∧
    (regs ≠ [] → regs.length % 2 = 0 →
      (∃ k, 2 * k < regs.length ∧ s.codecs.typeOfId (BitVec.ofNat 32
        ((regs.getD (2 * k) 0).toNat * 65536 + (regs.getD (2 * k + 1) 0).toNat)) = none) →
      exec (.baModlist regs) s = .next { s with response := some (.error .unknownModule) })

/-- R96: unit 0 writes no field, and its results depend on its operands and on KNOWN_MODULES alone. -/
def Obligations.UnitZeroIsStateless : Prop :=
  ∀ i : Instr, i.opcode ∈ [.baSplit, .baJoin, .baOffsets, .baModlist] →
    ∀ s s' : State, s.codecs.typeOfId = s'.codecs.typeOfId → ∃ r : Response,
      exec i s = .next { s with response := some r } ∧ exec i s' = .next { s' with response := some r }

/-! ### Unit 1 -/

/-- R97, R98, R99: MAP_DECODE_IN and MAP_DECODE_OUT answer a list of value lists exactly when it has one
entry per module, in operand order, each what the rules yield for its module. -/
def Obligations.MapDecodeYieldsEachModule : Prop :=
  ∀ (mods : List (CodecInst × ModuleOffset)) (base : Word16) (data : List Word16)
    (vss : List (List ChannelValue)) (s : State),
    (exec (.mapDecodeIn mods base data) s = .next { s with response := some (.ok (.values vss)) } ↔
      List.Forall₂ (DecodesInput s.codecs base data) mods vss) ∧
    (exec (.mapDecodeOut mods base data) s = .next { s with response := some (.ok (.values vss)) } ↔
      List.Forall₂ (DecodesOutput s.codecs base data) mods vss)

/-- R113: the error order of DECODE. The spec marks it as derived. -/
def Obligations.MapDecodeErrorOrder : Prop :=
  ∀ (before rest : List (CodecInst × ModuleOffset)) (c : CodecInst) (off : ModuleOffset)
    (a : BitAddress) (base : Word16) (data : List Word16) (vss : List (List ChannelValue)) (e : Err)
    (s : State),
    (List.Forall₂ (DecodesInput s.codecs base data) before vss → off.input = some a →
      DecodeRaises a (s.codecs.inputByteCount c) (s.codecs.decodeInput c) base data e →
      exec (.mapDecodeIn (before ++ (c, off) :: rest) base data) s =
        .next { s with response := some (.error e) }) ∧
    (List.Forall₂ (DecodesOutput s.codecs base data) before vss → off.output = some a →
      DecodeRaises a (s.codecs.outputByteCount c) (s.codecs.decodeOutput c) base data e →
      exec (.mapDecodeOut (before ++ (c, off) :: rest) base data) s =
        .next { s with response := some (.error e) })

/-- R104: a one-word bit-8 module decodes a raw register as a standalone register that holds its high
byte. -/
def Obligations.SharedByteDecodesAsStandalone : Prop :=
  ∀ (c : CodecInst) (register : Nat) (base : Word16) (data : List Word16) (w : Word16) (s : State),
    base.toNat ≤ register → register ≤ 0x0FFF → data[register - base.toNat]? = some w →
    (s.codecs.inputByteCount c ≤ 2 →
      exec (.mapDecodeIn [(c, ⟨some (BitVec.ofNat 16 (16 * register + 8)), none⟩)] base data) s =
        exec (.mapDecodeIn [(c, ⟨some 0x0000, none⟩)] 0 [w >>> 8]) s) ∧
    (s.codecs.outputByteCount c ≤ 2 →
      exec (.mapDecodeOut [(c, ⟨none, some (BitVec.ofNat 16 (16 * register + 8))⟩)] base data) s =
        exec (.mapDecodeOut [(c, ⟨none, some 0x0000⟩)] 0 [w >>> 8]) s)

/-- R105 to R109: MAP_ENCODE answers a word list exactly when the arities agree and the loop of the rules
builds that list. The spec marks which byte of the first word is merged, and that the words after it are
dropped, as its decision D6. -/
def Obligations.MapEncodeBuildsTheImage : Prop :=
  ∀ (mods : List (CodecInst × ModuleOffset)) (base : Word16) (values : List (List ChannelValue))
    (ws : List Word16) (s : State),
    exec (.mapEncode mods base values) s = .next { s with response := some (.ok (.words ws)) } ↔
      mods.length = values.length ∧ EncodesTo s.codecs base (mods.zip values) [] ws

/-- R111: the error order of MAP_ENCODE. The spec marks it as derived, and the empty-word check as its
decision D6. -/
def Obligations.MapEncodeErrorOrder : Prop :=
  (∀ (mods : List (CodecInst × ModuleOffset)) (base : Word16) (values : List (List ChannelValue))
    (s : State), mods.length ≠ values.length →
    exec (.mapEncode mods base values) s = .next { s with response := some (.error .channelValue) }) ∧
  ∀ (before rest : List (CodecInst × ModuleOffset)) (c : CodecInst) (off : ModuleOffset)
    (vss vssRest : List (List ChannelValue)) (vs : List ChannelValue) (o : BitAddress)
    (base : Word16) (out : List Word16) (e : Err) (s : State),
    before.length = vss.length → rest.length = vssRest.length →
    EncodesTo s.codecs base (before.zip vss) [] out → off.output = some o →
    EncodeRaises s.codecs base c vs o out e →
    exec (.mapEncode (before ++ (c, off) :: rest) base (vss ++ vs :: vssRest)) s =
      .next { s with response := some (.error e) }

/-- R110: the result has as many words as the bit-0 modules, and the first module with an output offset
starts at the base register with bit 0. The spec marks the rule as derived. -/
def Obligations.MapEncodeIsContiguous : Prop :=
  ∀ (mods : List (CodecInst × ModuleOffset)) (base : Word16) (values : List (List ChannelValue))
    (ws : List Word16) (s : State),
    exec (.mapEncode mods base values) s = .next { s with response := some (.ok (.words ws)) } →
    ws.length = ((mods.zip values).map (bit0Words s.codecs)).sum ∧
    ∀ o, (mods.filterMap fun m => m.2.output).head? = some o →
      o.toNat / 16 = base.toNat ∧ o.toNat % 16 = 0

/-- 90_conflicts.md C6, R102, R108: the merge of a bit-8 module is the inverse of its decode window: the
codec's byte comes back, and the low byte of the shared register stays the other module's. The spec
marks the merged byte as its decision D6. -/
def Obligations.SharedRegisterRoundTrips : Prop :=
  ∀ (lo hi : CodecInst) (register : Nat) (vlo vhi : List ChannelValue) (a b : Word16)
    (bs : List Word16) (s : State),
    register ≤ 0x0FFF → s.codecs.encodeOutput lo vlo = .ok [a] →
    s.codecs.encodeOutput hi vhi = .ok (b :: bs) → s.codecs.outputByteCount hi ≤ 3 →
    ∃ w : Word16,
      exec (.mapEncode [(lo, ⟨none, some (BitVec.ofNat 16 (16 * register))⟩),
          (hi, ⟨none, some (BitVec.ofNat 16 (16 * register + 8))⟩)] (BitVec.ofNat 16 register) [vlo, vhi]) s =
        .next { s with response := some (.ok (.words [w])) } ∧
      w.toNat % 256 = a.toNat % 256 ∧
      ∀ vs, s.codecs.decodeOutput hi [b &&& 0x00FF] = .ok vs →
        exec (.mapDecodeOut [(hi, ⟨none, some (BitVec.ofNat 16 (16 * register + 8))⟩)]
            (BitVec.ofNat 16 register) [w]) s =
          .next { s with response := some (.ok (.values [vs])) }

/-- R112: unit 1 writes no field, and its results depend on its operands and on CODECS alone. The spec marks
the rule as derived. -/
def Obligations.UnitOneIsStateless : Prop :=
  ∀ i : Instr, i.opcode ∈ [.mapDecodeIn, .mapDecodeOut, .mapEncode] →
    ∀ s s' : State, s.codecs = s'.codecs → ∃ r : Response,
      exec i s = .next { s with response := some r } ∧ exec i s' = .next { s' with response := some r }

/-! ### Unit 2 -/

/-- R114: SEQ_NEW makes or replaces one instance, and raises ChannelParameter for any other length. What
`last_rx_cnt` holds is not said (U3). The spec marks the code as its decision D32; the draw counter is
the model's own (assumption log 9). -/
def Obligations.SeqNewMakesAFreshInstance : Prop :=
  ∀ (key frameLen : Nat) (s : State),
    (∀ l : FrameLen, l.bytes = frameLen → ∃ (t : State) (p : SeqState),
      exec (.seqNew key frameLen) s = .next t ∧
      t = { s with seq := t.seq, draws := t.draws, response := some (.ok .none) } ∧
      mapGet t.seq key = some p ∧ p.initState = .clearBuffers ∧ p.inData = [] ∧ p.outData = [] ∧
      p.processDataLen = l ∧ ∀ k, k ≠ key → mapGet t.seq k = mapGet s.seq k) ∧
    (frameLen ≠ 8 → frameLen ≠ 16 →
      exec (.seqNew key frameLen) s = .next { s with response := some (.error .channelParameter) })

/-- R115: an operation on a key with no instance raises Address and writes nothing. The spec marks the code
as its decision D16. -/
def Obligations.UnknownKeyRaisesAddress : Prop :=
  ∀ (key : Nat) (s : State), mapGet s.seq key = none →
    ∀ i, ((∃ input output, i = Instr.seqNext key input output) ∨ (∃ bs, i = .seqWrite key bs) ∨
        i = .seqRead key ∨ i = .cplReader key ∨ ∃ bs, i = .cplWriter key bs) →
      exec i s = .next { s with response := some (.error .address) }

/-- R119, R122: SEQ_NEXT on an instance in ClearBuffers or Reset: the frame, the instance and the frame
condition. That the acknowledgement runs here is the spec's decision D7. -/
def Obligations.SeqNextInitialises : Prop :=
  ∀ (key : Nat) (input : FrameIn) (output : FrameOut) (s : State) (p : SeqState),
    mapGet s.seq key = some p → p.initState ≠ .done →
    ∃ t : State, exec (.seqNext key input output) s = .next t ∧
      t = { s with seq := t.seq, response := t.response } ∧
      (∀ k, k ≠ key → mapGet t.seq k = mapGet s.seq k) ∧
      (p.initState = .clearBuffers →
        t.response = some (.ok (.frame ⟨output.active, false, true, true, output.txCnt, input.rxCnt, []⟩)) ∧
        mapGet t.seq key = some { p with initState := .reset }) ∧
      (p.initState = .reset →
        t.response = some (.ok (.frame ⟨output.active, true, false, false, output.txCnt, input.rxCnt, []⟩)) ∧
        mapGet t.seq key = some { p with initState := .done, lastRxCnt := 4 })

/-- R120, R121, R122, R132, R134: SEQ_NEXT on a Done instance whose buffer takes the inbound data: what is
sent or echoed, what is accepted, and the frame condition. The spec marks R132 and R134 as derived and
the capacity as its decision D22. -/
def Obligations.SeqNextTransfers : Prop :=
  ∀ (key : Nat) (input : FrameIn) (output : FrameOut) (s : State) (p : SeqState),
    mapGet s.seq key = some p → p.initState = .done →
    (∀ cap, s.params.inBufCap = some cap → input.dataAvailable = true → input.rxCnt ≠ p.lastRxCnt →
      p.inData.length + input.data.length ≤ cap) →
    ∃ (t : State) (out : FrameOut) (q : SeqState),
      exec (.seqNext key input output) s = .next t ∧
      t = { s with seq := t.seq, response := some (.ok (.frame out)) } ∧
      mapGet t.seq key = some q ∧ (∀ k, k ≠ key → mapGet t.seq k = mapGet s.seq k) ∧
      q.initState = .done ∧ q.processDataLen = p.processDataLen ∧
      (∀ chunk rest, p.outData = chunk :: rest → (input.txCntAck.toNat + 1) % 4 ≠ output.txCnt.toNat →
        out = { output with active := true, data := chunk, rxCntAck := input.rxCnt
                            txCnt := BitVec.ofNat 8 ((input.txCntAck.toNat + 1) % 4) } ∧
        q.outData = rest) ∧
      (p.outData = [] ∨ (input.txCntAck.toNat + 1) % 4 = output.txCnt.toNat →
        out = { output with rxCntAck := input.rxCnt } ∧ q.outData = p.outData) ∧
      (input.dataAvailable = true → input.rxCnt ≠ p.lastRxCnt →
        q.inData = p.inData ++ input.data ∧ q.lastRxCnt = input.rxCnt) ∧
      (input.dataAvailable = false ∨ input.rxCnt = p.lastRxCnt →
        q.inData = p.inData ∧ q.lastRxCnt = p.lastRxCnt)

/-- R121, R127: an accepted frame that a finite IN_BUF_CAP cannot take raises BufferLength. The spec marks
the check as its decision D22. -/
def Obligations.InboundOverflowRaisesBufferLength : Prop :=
  ∀ (key : Nat) (input : FrameIn) (output : FrameOut) (s : State) (p : SeqState) (cap : Nat),
    mapGet s.seq key = some p → p.initState = .done → s.params.inBufCap = some cap →
    input.dataAvailable = true → input.rxCnt ≠ p.lastRxCnt →
    cap < p.inData.length + input.data.length →
    exec (.seqNext key input output) s = .next { s with response := some (.error .bufferLength) }

/-- R122: every SEQ_NEXT that answers a frame acknowledges the inbound count, in every `init_state`, whether
or not the frame was accepted. The spec marks this reading as its decision D7. -/
def Obligations.EverySeqNextAcknowledges : Prop :=
  ∀ (key : Nat) (input : FrameIn) (output f : FrameOut) (s t : State),
    exec (.seqNext key input output) s = .next t → t.response = some (.ok (.frame f)) →
    f.rxCntAck = input.rxCnt

/-- R125: while the chunk in flight is unacknowledged and no frame is accepted, each SEQ_NEXT of a loop that
echoes its result returns the same frame, and no instance changes. The spec marks the rule as derived.
-/
def Obligations.StallIsIdempotent : Prop :=
  ∀ (key n : Nat) (input : FrameIn) (output : FrameOut) (s : State) (p : SeqState),
    mapGet s.seq key = some p → p.initState = .done → p.outData ≠ [] →
    output.txCnt.toNat = (input.txCntAck.toNat + 1) % 4 →
    (input.dataAvailable = false ∨ input.rxCnt = p.lastRxCnt) →
    ∃ t, echoRun key input (n + 1) output s = some (t, { output with rxCntAck := input.rxCnt }) ∧
      t = { s with seq := t.seq, response := t.response } ∧ ∀ k, mapGet t.seq k = mapGet s.seq k

/-- R128: a chunk sent with tx_cnt 3 is acknowledged by tx_cnt_ack 3, and the next one is sent with 0. -/
def Obligations.SequenceCountWrapsAround : Prop :=
  ∀ (key : Nat) (input : FrameIn) (output : FrameOut) (s : State) (p : SeqState) (chunk : List Byte)
    (rest : List (List Byte)),
    mapGet s.seq key = some p → p.initState = .done → p.outData = chunk :: rest →
    input.dataAvailable = false → input.txCntAck = 3 → output.txCnt = 3 →
    ∃ t f, exec (.seqNext key input output) s = .next t ∧ t.response = some (.ok (.frame f)) ∧
      f.txCnt = 0 ∧ f.data = chunk

/-- R130: a fresh instance with chunks queued, three SEQ_NEXT operations with the same input: flush request,
reset request, and the third sends exactly when its send condition holds. The spec marks when the third
sends as derived. -/
def Obligations.InitialisationSequence : Prop :=
  ∀ (key : Nat) (input : FrameIn) (o1 o2 o3 : FrameOut) (s : State) (p : SeqState) (chunk : List Byte)
    (rest : List (List Byte)),
    mapGet s.seq key = some p → p.initState = .clearBuffers → p.outData = chunk :: rest →
    (∀ cap, s.params.inBufCap = some cap → input.dataAvailable = true → input.rxCnt ≠ 4 →
      p.inData.length + input.data.length ≤ cap) →
    ∃ t1 t2 t3 f1 f2 f3,
      exec (.seqNext key input o1) s = .next t1 ∧ t1.response = some (.ok (.frame f1)) ∧
      f1.reset = false ∧ f1.rxBufFlush = true ∧ f1.txBufFlush = true ∧ f1.data = [] ∧
      exec (.seqNext key input o2) t1 = .next t2 ∧ t2.response = some (.ok (.frame f2)) ∧
      f2.reset = true ∧ f2.rxBufFlush = false ∧ f2.txBufFlush = false ∧ f2.data = [] ∧
      exec (.seqNext key input o3) t2 = .next t3 ∧ t3.response = some (.ok (.frame f3)) ∧
      (if (input.txCntAck.toNat + 1) % 4 ≠ o3.txCnt.toNat then f3.data = chunk ∧ f3.active = true
        else f3.data = o3.data ∧ f3.active = o3.active)

/-- R123, R127, R158: SEQ_WRITE and CPL_WRITER append the chunks of the bytes in order, where the queue
takes them, and raise BufferLength where it does not. The spec marks the empty write as its decision D9
and the capacity as D22. -/
def Obligations.WriteQueuesChunks : Prop :=
  ∀ (key : Nat) (bytes : List Byte) (i : Instr) (s : State) (p : SeqState) (n : Nat),
    (i = .seqWrite key bytes ∨ i = .cplWriter key bytes) → mapGet s.seq key = some p →
    IsCeil bytes.length p.processDataLen.userDataLen n →
    ((∀ cap, s.params.outQCap = some cap → p.outData.length + n ≤ cap) →
      ∃ (t : State) (cs : List (List Byte)), exec i s = .next t ∧
        t = { s with seq := t.seq, response := some (.ok .none) } ∧
        mapGet t.seq key = some { p with outData := p.outData ++ cs } ∧
        (∀ k, k ≠ key → mapGet t.seq k = mapGet s.seq k) ∧
        cs.length = n ∧ IsChunking p.processDataLen.userDataLen bytes cs) ∧
    ∀ cap, s.params.outQCap = some cap → cap < p.outData.length + n →
      exec i s = .next { s with response := some (.error .bufferLength) }

/-- R124, R65, R157: SEQ_READ and CPL_READER drain all of `in_data` and answer it, or answer `None`; a
second read answers `None`. -/
def Obligations.ReadDrainsTheBuffer : Prop :=
  ∀ (key : Nat) (i : Instr) (s : State) (p : SeqState),
    (i = .seqRead key ∨ i = .cplReader key) → mapGet s.seq key = some p →
    ∃ t u : State, exec i s = .next t ∧
      t = { s with seq := t.seq
                   response := some (.ok (.bytes (if p.inData = [] then none else some p.inData))) } ∧
      mapGet t.seq key = some { p with inData := [] } ∧
      (∀ k, k ≠ key → mapGet t.seq k = mapGet s.seq k) ∧
      exec i t = .next u ∧ u.response = some (.ok (.bytes none))

/-- R129: a written byte stream, chunked, sent against a loopback far end and reassembled, is read back
exactly: from a Done instance with empty buffers whose first inbound count is fresh, with unbounded
capacities. The spec marks the condition on the far end as derived. -/
def Obligations.LoopbackDeliversTheByteStream : Prop :=
  ∀ (key n : Nat) (bytes : List Byte) (output : FrameOut) (s : State) (p : SeqState),
    mapGet s.seq key = some p → p.initState = .done → p.inData = [] → p.outData = [] →
    s.params.inBufCap = none → s.params.outQCap = none → bytes ≠ [] →
    p.lastRxCnt.toNat ≠ (output.txCnt.toNat + 1) % 4 →
    IsCeil bytes.length p.processDataLen.userDataLen n →
    ∃ t1 t2 t3 t4 f, exec (.seqWrite key bytes) s = .next t1 ∧
      exec (.seqNext key ⟨false, false, false, 0, output.txCnt, []⟩ output) t1 = .next t2 ∧
      t2.response = some (.ok (.frame f)) ∧ loopbackRun key n f t2 = some t3 ∧
      exec (.seqRead key) t3 = .next t4 ∧ t4.response = some (.ok (.bytes (some bytes)))

/-- R126: a frame SEQ_NEXT produces from legal frames, on an instance whose chunks are within its frame's
capacity, passes the frame-encode contract. The spec marks it as derived. -/
def Obligations.ProducedFramesPassTheContract : Prop :=
  ∀ (key : Nat) (input : FrameIn) (output f : FrameOut) (s t : State) (p : SeqState),
    mapGet s.seq key = some p → SoundInstance s.params p → LegalIn input → LegalOut output →
    output.data.length ≤ p.processDataLen.userDataLen →
    exec (.seqNext key input output) s = .next t → t.response = some (.ok (.frame f)) →
    frameEncodeCheck p.processDataLen f = .ok ()

/-! ### Unit 3 -/

/-- R136, R139: CPL_NEW with matching lengths and codecs that construct replaces all controller state. The
spec marks the discarding of earlier instances as its decision D32 and the tunnel test as D34. -/
def Obligations.CplNewCommitsTheConfiguration : Prop :=
  ∀ (types : List ModuleType) (params : List (List Word16)) (offsets : List Word16)
    (mods : List CodecInst) (s : State),
    params.length = types.length → offsets.length = 2 * types.length →
    List.Forall₂ (fun tp c => s.codecs.fromParameters tp.1 tp.2 = .ok c) (types.zip params) mods →
    ∃ t : State, exec (.cplNew types params offsets) s = .next t ∧
      t.response = some (.ok .none) ∧ t.modules = mods ∧
      exec (.baOffsets offsets) s = .next { s with response := some (.ok (.offsets t.offsets)) } ∧
      t.write = [] ∧ t.inValues = [] ∧ t.outValues = [] ∧ t.lastTxCnt = [] ∧ t.txEdge = [] ∧
      t.params = s.params ∧ t.commandPort = s.commandPort ∧
      ∀ k, match mods[k]?.bind s.codecs.tunnelFrameLen with
        | some l => ∃ p, mapGet t.seq k = some p ∧ p.initState = .clearBuffers ∧ p.inData = [] ∧
            p.outData = [] ∧ p.processDataLen = l
        | none => mapGet t.seq k = none

/-- R138: the error order of CPL_NEW. The spec marks it as derived. -/
def Obligations.CplNewErrorOrder : Prop :=
  ∀ (types : List ModuleType) (params : List (List Word16)) (offsets : List Word16) (s : State),
    (params.length ≠ types.length →
      exec (.cplNew types params offsets) s = .next { s with response := some (.error .bufferLength) }) ∧
    (params.length = types.length → offsets.length ≠ 2 * types.length →
      exec (.cplNew types params offsets) s = .next { s with response := some (.error .moduleOffset) }) ∧
    (params.length = types.length → offsets.length = 2 * types.length →
      ∀ (before rest : List (ModuleType × List Word16)) (t : ModuleType) (p : List Word16)
        (mods : List CodecInst) (ce : CodecError),
        types.zip params = before ++ (t, p) :: rest →
        List.Forall₂ (fun tp c => s.codecs.fromParameters tp.1 tp.2 = .ok c) before mods →
        s.codecs.fromParameters t p = .error ce →
        exec (.cplNew types params offsets) s =
          .next { s with response := some (.error (codecErr ce)) })

/-- R137: after CPL_NEW `enc_order` is a permutation of the module indices in the order of a stable sort by
output bit address, modules without an output offset last. The spec marks the key as its decision D10.
-/
def Obligations.EncodeOrderIsAStableSort : Prop :=
  ∀ (types : List ModuleType) (params : List (List Word16)) (offsets : List Word16) (s t : State),
    exec (.cplNew types params offsets) s = .next t → t.response = some (.ok .none) →
    t.encOrder.Perm (List.range types.length) ∧ t.encOrder.Pairwise (EncBefore t.offsets)

/-- R140, R141: CPL_IS_VALID_ADDR, its encoding, answers the validity predicate and writes nothing. -/
def Obligations.IsValidAddrAnswersThePredicate : Prop :=
  commandWord .cplIsValidAddr = 0x32 ∧ ∀ (a : Address) (s : State), ∃ b : Bool,
    exec (.cplIsValidAddr a) s = .next { s with response := some (.ok (.bool b)) } ∧
    (b = true ↔ ∃ c, s.modules[a.module]? = some c ∧ a.channel < s.codecs.channelCount c)

/-- R142: CPL_SET_OUTPUT, its encoding, inserts or overwrites one pending value of any variant at a valid
address, and raises Address at any other. -/
def Obligations.SetOutputPendsOneWrite : Prop :=
  commandWord .cplSetOutput = 0x33 ∧ ∀ (a : Address) (v : ChannelValue) (s : State),
    (∀ c, s.modules[a.module]? = some c → a.channel < s.codecs.channelCount c →
      ∃ t : State, exec (.cplSetOutput a v) s = .next t ∧
        t = { s with write := t.write, response := some (.ok .none) } ∧
        mapGet t.write a = some v ∧ ∀ a', a' ≠ a → mapGet t.write a' = mapGet s.write a') ∧
    ((∀ c, s.modules[a.module]? = some c → s.codecs.channelCount c ≤ a.channel) →
      exec (.cplSetOutput a v) s = .next { s with response := some (.error .address) })

/-- R155, R156: CPL_INPUTS and CPL_OUTPUTS, their encodings, answer the snapshots and write nothing. -/
def Obligations.SnapshotsAreReadOnly : Prop :=
  commandWord .cplInputs = 0x35 ∧ commandWord .cplOutputs = 0x36 ∧ ∀ s : State,
    exec .cplInputs s = .next { s with response := some (.ok (.values s.inValues)) } ∧
    exec .cplOutputs s = .next { s with response := some (.ok (.values s.outValues)) }

/-- R157, R158: CPL_READER and CPL_WRITER, their encodings, are exactly SEQ_READ and SEQ_WRITE with
`key = module`. -/
def Obligations.ReaderAndWriterAreTheSequencers : Prop :=
  commandWord .cplReader = 0x37 ∧ commandWord .cplWriter = 0x38 ∧ ∀ (m : Nat) (bs : List Byte) (s : State),
    exec (.cplReader m) s = exec (.seqRead m) s ∧ exec (.cplWriter m bs) s = exec (.seqWrite m bs) s

/-- R145 to R153, R160: what a cycle that completes did to every module, every pending write, the snapshots,
the edges and the output registers, and what it left alone. The spec marks the staging, the pending
tunnel writes and the edges as its decisions D11 to D15. -/
def Obligations.CompletedCycleFollowsTheRules : Prop :=
  ∀ (pin pout : List Word16) (s t : State) (regs : List Word16) (edge : List Nat), SoundState s →
    exec (.cplNext pin pout) s = .next t → t.response = some (.ok (.cycle regs edge)) →
    ∃ iv ov : List (List ChannelValue),
      exec (.mapDecodeIn (configured s) 0x0000 pin) s =
        .next { s with response := some (.ok (.values iv)) } ∧
      exec (.mapDecodeOut (configured s) 0x0800 pout) s =
        .next { s with response := some (.ok (.values ov)) } ∧
      t = { s with inValues := iv, outValues := t.outValues, write := t.write, seq := t.seq
                   lastTxCnt := t.lastTxCnt, txEdge := edge
                   response := some (.ok (.cycle regs edge)) } ∧
      t.outValues.length = s.modules.length ∧ edge.Pairwise (· < ·) ∧
      (∀ (i : Nat) (c : CodecInst), s.modules[i]? = some c →
        ModuleOutcome s t edge i c (iv.getD i []) (ov.getD i []) (t.outValues.getD i [])) ∧
      (∀ i, s.modules.length ≤ i → mapGet t.seq i = mapGet s.seq i ∧
        mapGet t.lastTxCnt i = mapGet s.lastTxCnt i ∧ i ∉ edge ∧
        ∀ ch, mapGet t.write ⟨i, ch⟩ = mapGet s.write ⟨i, ch⟩) ∧
      exec (.mapEncode (encMods s) 0x0800 (encValues s t.outValues)) s =
        .next { s with response := some (.ok (.words regs)) }

/-- R147: a cycle completes whenever both images decode, nothing raises on a module in phases 2 and 3, and
the resulting values encode; it answers the encoded registers. It rests on the spec's decisions D11 to
D15, as the one before. -/
def Obligations.CycleCompletes : Prop :=
  ∀ (pin pout : List Word16) (s : State) (iv ov ov' : List (List ChannelValue)) (regs : List Word16),
    SoundState s →
    List.Forall₂ (DecodesInput s.codecs 0x0000 pin) (configured s) iv →
    List.Forall₂ (DecodesOutput s.codecs 0x0800 pout) (configured s) ov →
    ov'.length = s.modules.length →
    (∀ (i : Nat) (c : CodecInst), s.modules[i]? = some c →
      ModuleReady s i c (iv.getD i []) (ov.getD i []) (ov'.getD i [])) →
    EncodesTo s.codecs 0x0800 ((encMods s).zip (encValues s ov')) [] regs →
    ∃ t edge, exec (.cplNext pin pout) s = .next t ∧
      t.response = some (.ok (.cycle regs edge)) ∧ t.inValues = iv ∧ t.outValues = ov'

/-- R154 items 1 and 2: a cycle whose input image does not decode answers that error, and one whose input
image decodes and whose output image does not answers that one. The spec marks the order as derived. -/
def Obligations.CycleReportsDecodeErrorsFirst : Prop :=
  ∀ (pin pout : List Word16) (s : State) (e : Err),
    (exec (.mapDecodeIn (configured s) 0x0000 pin) s = .next { s with response := some (.error e) } →
      exec (.cplNext pin pout) s = .next { s with response := some (.error e) }) ∧
    ∀ iv, exec (.mapDecodeIn (configured s) 0x0000 pin) s =
        .next { s with response := some (.ok (.values iv)) } →
      exec (.mapDecodeOut (configured s) 0x0800 pout) s =
        .next { s with response := some (.error e) } →
      exec (.cplNext pin pout) s = .next { s with response := some (.error e) }

/-- R154 item 3 with R150, R121, R123 and R127: a cycle whose images decode answers the error of the first
module, by index, on which phase 2 raises, whatever phases 3 and 4 would do. The spec marks the order as
derived, the refused variant as its decision D12 and the capacities as D22. -/
def Obligations.CycleReportsTunnelErrors : Prop :=
  ∀ (pin pout : List Word16) (s : State) (iv ov : List (List ChannelValue)) (i : Nat) (e : Err),
    List.Forall₂ (DecodesInput s.codecs 0x0000 pin) (configured s) iv →
    List.Forall₂ (DecodesOutput s.codecs 0x0800 pout) (configured s) ov →
    i < s.modules.length → (∀ j < i, TunnelReady s j (iv.getD j []) (ov.getD j [])) →
    TunnelRaises s i (iv.getD i []) (ov.getD i []) e →
    exec (.cplNext pin pout) s = .next { s with response := some (.error e) }

/-- R154 item 4 with R151: a cycle whose images decode and whose phase 2 raises nothing answers
`ChannelValue` when a plain module has a pending write past its decoded values, whatever phase 4 would do.
The spec marks the order as derived and the check as its decision D17. -/
def Obligations.CycleReportsPlainWriteErrors : Prop :=
  ∀ (pin pout : List Word16) (s : State) (iv ov : List (List ChannelValue)) (i : Nat) (c : CodecInst),
    List.Forall₂ (DecodesInput s.codecs 0x0000 pin) (configured s) iv →
    List.Forall₂ (DecodesOutput s.codecs 0x0800 pout) (configured s) ov →
    (∀ j < s.modules.length, TunnelReady s j (iv.getD j []) (ov.getD j [])) →
    s.modules[i]? = some c → PlainRaises s i c (ov.getD i []) →
    exec (.cplNext pin pout) s = .next { s with response := some (.error .channelValue) }

/-- R154 item 5 with R152: a cycle whose images decode and whose phases 2 and 3 raise nothing answers the
error that MAP_ENCODE answers for the resulting values in `enc_order`. The spec marks the order as derived. -/
def Obligations.CycleReportsEncodeErrors : Prop :=
  ∀ (pin pout : List Word16) (s : State) (iv ov ov' : List (List ChannelValue)) (e : Err),
    SoundState s →
    List.Forall₂ (DecodesInput s.codecs 0x0000 pin) (configured s) iv →
    List.Forall₂ (DecodesOutput s.codecs 0x0800 pout) (configured s) ov →
    ov'.length = s.modules.length →
    (∀ (i : Nat) (c : CodecInst), s.modules[i]? = some c →
      ModuleReady s i c (iv.getD i []) (ov.getD i []) (ov'.getD i [])) →
    exec (.mapEncode (encMods s) 0x0800 (encValues s ov')) s =
      .next { s with response := some (.error e) } →
    exec (.cplNext pin pout) s = .next { s with response := some (.error e) }
end

