-- ==== Sys2Proof/Laws/Operands.lean ====
section
/-! SUPPORT. The operand forms as arithmetic: the fields of a bit address, bytes of words, SHIFT8. -/

namespace Sys2Proof.Machine

theorem registerOf_toNat (a : BitAddress) : (registerOf a).toNat = a.toNat / 16 := by
  have := a.isLt
  simp only [registerOf, BitVec.extractLsb'_toNat, Nat.shiftRight_eq_div_pow]
  omega

theorem bitOf_toNat (a : BitAddress) : (bitOf a).toNat = a.toNat % 16 := by
  simp [bitOf, BitVec.extractLsb'_toNat]

theorem bitOf_eq_zero_iff (a : BitAddress) : bitOf a = 0 ↔ a.toNat % 16 = 0 := by
  rw [← bitOf_toNat, ← BitVec.toNat_inj]
  simp

theorem bitOf_eq_eight_iff (a : BitAddress) : bitOf a = 8 ↔ a.toNat % 16 = 8 := by
  rw [← bitOf_toNat, ← BitVec.toNat_inj]
  simp

/-- `(register << 4) | bit` is `16 * register + bit` for fields that fit (R80, R90). -/
theorem joinFields_toNat {register bit : Nat} (hr : register ≤ 0x0FFF) (hb : bit ≤ 15) :
    (joinFields register bit).toNat = 16 * register + bit := by
  have h1 : register % 65536 = register := Nat.mod_eq_of_lt (by omega)
  have h2 : bit % 65536 = bit := Nat.mod_eq_of_lt (by omega)
  have h3 : (register <<< 4) % 65536 = 16 * register := by
    rw [Nat.shiftLeft_eq]
    omega
  have h4 : 16 * register ||| bit = 16 * register + bit := by
    have := Nat.two_pow_add_eq_or_of_lt (i := 4) (b := bit) (by omega) register
    simpa using this.symm
  simp [joinFields, h1, h2, h3, h4]

theorem lowByte_toNat (w : Word16) : (lowByte w).toNat = w.toNat % 256 := by
  simp [lowByte, BitVec.extractLsb'_toNat]

theorem highByte_toNat (w : Word16) : (highByte w).toNat = w.toNat / 256 := by
  have := w.isLt
  simp only [highByte, BitVec.extractLsb'_toNat, Nat.shiftRight_eq_div_pow]
  omega

/-- A word of two bytes, the high one first. -/
theorem pair_toNat (hi lo : Byte) : (hi ++ lo : Word16).toNat = 256 * hi.toNat + lo.toNat := by
  have hl := lo.isLt
  have := Nat.two_pow_add_eq_or_of_lt (i := 8) (b := lo.toNat) (by omega) hi.toNat
  rw [BitVec.toNat_append, Nat.shiftLeft_eq, Nat.mul_comm]
  omega

/-- `be32(hi, lo)` is `65536 * hi + lo` (R16, R50). -/
theorem be32_toNat (hi lo : Word16) : (be32 hi lo).toNat = hi.toNat * 65536 + lo.toNat := by
  have hl := lo.isLt
  have := Nat.two_pow_add_eq_or_of_lt (i := 16) (b := lo.toNat) (by omega) hi.toNat
  rw [be32, BitVec.toNat_append, Nat.shiftLeft_eq, Nat.mul_comm]
  omega

@[simp] theorem leBytes_length (ws : List Word16) : (leBytes ws).length = 2 * ws.length := by
  induction ws with
  | nil => rfl
  | cons w ws ih => simp [leBytes, ih]; omega

/-- `le_words` inverts `le_bytes` (R16). -/
theorem leWords_leBytes (ws : List Word16) : leWords (leBytes ws) = ws := by
  induction ws with
  | nil => rfl
  | cons w ws ih =>
    rw [leBytes, leWords, ih]
    congr 1
    apply BitVec.eq_of_toNat_eq
    rw [pair_toNat, lowByte_toNat, highByte_toNat]
    omega

/-- SHIFT8 word by word (R102): the word takes its register's high byte and the next register's low
byte. -/
theorem shift8_cons (w v : Word16) (ws : List Word16) :
    shift8 (w :: v :: ws) = (lowByte v ++ highByte w : Word16) :: shift8 (v :: ws) := by
  simp [shift8, leBytes, leWords]

theorem shift8_single (w : Word16) : shift8 [w] = [((0x00 : Byte) ++ highByte w : Word16)] := by
  simp [shift8, leBytes, leWords]

/-- SHIFT8 keeps the number of words (R102). -/
theorem shift8_length (ws : List Word16) (h : ws ≠ []) : (shift8 ws).length = ws.length := by
  induction ws with
  | nil => exact absurd rfl h
  | cons w ws ih =>
    cases ws with
    | nil => simp [shift8_single]
    | cons v ws => rw [shift8_cons, List.length_cons, ih (by simp), List.length_cons (as := v :: ws)]

/-- SHIFT8 as arithmetic: high byte of the register, low byte of the next one in the window, zero after
the last (R102). -/
theorem shift8_getD (ws : List Word16) (k : Nat) (h : k < ws.length) :
    ((shift8 ws).getD k 0).toNat = (ws.getD k 0).toNat / 256 +
      256 * (if k + 1 < ws.length then (ws.getD (k + 1) 0).toNat % 256 else 0) := by
  induction ws generalizing k with
  | nil => simp at h
  | cons w ws ih =>
    cases ws with
    | nil =>
      obtain rfl : k = 0 := by simpa using h
      simpa [shift8_single, highByte_toNat] using pair_toNat 0x00 (highByte w)
    | cons v ws =>
      cases k with
      | zero => simp [shift8_cons, pair_toNat, lowByte_toNat, highByte_toNat]; omega
      | succ k =>
        rw [shift8_cons]
        have := ih k (by simpa using h)
        simpa using this

end Sys2Proof.Machine
end

