-- ==== Sys2Proof/Laws/Maps.lean ====
section
/-! SUPPORT. Finite maps: read after write, the canonical form kept by every operation, and equal maps
are equal lists. -/

namespace Sys2Proof.Machine

variable {κ α : Type} [DecidableEq κ]

@[simp] theorem mapGet_nil (k : κ) : mapGet ([] : List (κ × α)) k = none := rfl

theorem mapGet_cons (e : κ × α) (m : List (κ × α)) (k : κ) :
    mapGet (e :: m) k = if k = e.1 then some e.2 else mapGet m k := rfl

@[simp] theorem mapGet_mapSet_self (lt : κ → κ → Bool) (m : List (κ × α)) (k : κ) (v : α) :
    mapGet (mapSet lt m k v) k = some v := by
  induction m with
  | nil => simp [mapSet, mapGet]
  | cons e m ih =>
    rw [mapSet]
    split
    · simp [mapGet]
    · rename_i h
      split <;> simp [mapGet, h, ih]

theorem mapGet_mapSet_other (lt : κ → κ → Bool) (m : List (κ × α)) (k k' : κ) (v : α) (h : k' ≠ k) :
    mapGet (mapSet lt m k v) k' = mapGet m k' := by
  induction m with
  | nil => simp [mapSet, mapGet, h]
  | cons e m ih =>
    rw [mapSet]
    split
    · rename_i he
      subst he
      simp [mapGet, h]
    · split <;> simp [mapGet, h, ih]

/-- Read after write. -/
theorem mapGet_mapSet (lt : κ → κ → Bool) (m : List (κ × α)) (k k' : κ) (v : α) :
    mapGet (mapSet lt m k v) k' = if k' = k then some v else mapGet m k' := by
  split
  · rename_i h
    rw [h, mapGet_mapSet_self]
  · exact mapGet_mapSet_other lt m k k' v ‹_›

/-- Read after removal. -/
theorem mapGet_mapRemove (m : List (κ × α)) (k k' : κ) :
    mapGet (mapRemove m k) k' = if k' = k then none else mapGet m k' := by
  induction m with
  | nil => simp [mapRemove]
  | cons e m ih =>
    rw [mapRemove, List.filter_cons]
    by_cases he : e.1 = k
    · simp only [he, decide_true, Bool.not_true, Bool.false_eq_true, if_false]
      rw [show List.filter _ m = mapRemove m k from rfl, ih, mapGet_cons]
      by_cases hk : k' = k <;> simp [hk, he]
    · simp only [he, decide_false, Bool.not_false, if_true]
      rw [show List.filter _ m = mapRemove m k from rfl, mapGet_cons, mapGet_cons, ih]
      by_cases hk : k' = k
      · simp [hk, Ne.symm he]
      · simp [hk]

/-- An entry read is an entry listed. -/
theorem mapGet_mem {m : List (κ × α)} {k : κ} {v : α} (h : mapGet m k = some v) : (k, v) ∈ m := by
  induction m with
  | nil => simp at h
  | cons e m ih =>
    rw [mapGet_cons] at h
    split at h
    · rename_i he
      cases h
      simp [he]
    · simp [ih h]

/-- A key order is strict and total. -/
structure KeyOrder (lt : κ → κ → Bool) : Prop where
  irrefl : ∀ a, lt a a = false
  trans : ∀ a b c, lt a b = true → lt b c = true → lt a c = true
  total : ∀ a b, a ≠ b → lt a b = false → lt b a = true

theorem natLt_order : KeyOrder natLt where
  irrefl := by simp [natLt]
  trans := by simp only [natLt, decide_eq_true_eq]; omega
  total := by simp only [natLt, decide_eq_true_eq, decide_eq_false_iff_not]; omega

theorem addrLt_order : KeyOrder addrLt where
  irrefl := by simp [addrLt]
  trans := by
    intro a b c
    simp only [addrLt, Bool.or_eq_true, Bool.and_eq_true, decide_eq_true_eq]
    omega
  total := by
    intro a b hab
    have hne : ¬(a.module = b.module ∧ a.channel = b.channel) := fun h => hab (by
      cases a; cases b; simp_all)
    simp only [addrLt, Bool.or_eq_true, Bool.or_eq_false_iff, Bool.and_eq_true, Bool.and_eq_false_iff,
      decide_eq_true_eq, decide_eq_false_iff_not]
    omega

omit [DecidableEq κ] in
theorem mapWf_cons (lt : κ → κ → Bool) (e : κ × α) (m : List (κ × α)) :
    mapWf lt (e :: m) = true ↔ (∀ e' ∈ m, lt e.1 e'.1 = true) ∧ mapWf lt m = true := by
  simp [mapWf, List.all_eq_true]

/-- Writing keeps the keys of a map but for the key written. -/
theorem mem_mapSet {lt : κ → κ → Bool} {m : List (κ × α)} {k : κ} {v : α} {e : κ × α}
    (h : e ∈ mapSet lt m k v) : e = (k, v) ∨ e ∈ m := by
  induction m with
  | nil => simpa [mapSet] using h
  | cons e' m ih =>
    rw [mapSet] at h
    split at h
    · simp only [List.mem_cons] at h ⊢
      tauto
    · split at h
      · simp only [List.mem_cons] at h ⊢
        tauto
      · simp only [List.mem_cons] at h ⊢
        rcases h with h | h
        · tauto
        · have := ih h
          tauto

/-- Writing keeps the canonical form. -/
theorem mapWf_mapSet {lt : κ → κ → Bool} (o : KeyOrder lt) {m : List (κ × α)}
    (h : mapWf lt m = true) (k : κ) (v : α) : mapWf lt (mapSet lt m k v) = true := by
  induction m with
  | nil => simp [mapSet, mapWf]
  | cons e m ih =>
    rw [mapWf_cons] at h
    rw [mapSet]
    split
    · rename_i he
      rw [mapWf_cons]
      exact ⟨fun e' he' => by rw [he]; exact h.1 e' he', h.2⟩
    · rename_i hne
      split
      · rename_i hlt
        rw [mapWf_cons, mapWf_cons]
        refine ⟨fun e' he' => ?_, h⟩
        rcases List.mem_cons.1 he' with rfl | he'
        · exact hlt
        · exact o.trans _ _ _ hlt (h.1 e' he')
      · rename_i hlt
        rw [mapWf_cons]
        refine ⟨fun e' he' => ?_, ih h.2⟩
        rcases mem_mapSet he' with rfl | he'
        · exact o.total _ _ hne (by simpa using hlt)
        · exact h.1 e' he'

/-- Removing keeps the canonical form. -/
theorem mapWf_mapRemove {lt : κ → κ → Bool} {m : List (κ × α)} (h : mapWf lt m = true) (k : κ) :
    mapWf lt (mapRemove m k) = true := by
  induction m with
  | nil => simp [mapRemove, mapWf]
  | cons e m ih =>
    rw [mapWf_cons] at h
    rw [mapRemove, List.filter_cons]
    split
    · rw [show List.filter _ m = mapRemove m k from rfl, mapWf_cons]
      exact ⟨fun e' he' => h.1 e' (List.mem_filter.1 he').1, ih h.2⟩
    · exact ih h.2

/-- In a canonical map, a key below every listed key is not read. -/
theorem mapGet_below {lt : κ → κ → Bool} (o : KeyOrder lt) {m : List (κ × α)} {k : κ}
    (h : ∀ e ∈ m, lt k e.1 = true) : mapGet m k = none := by
  induction m with
  | nil => rfl
  | cons e m ih =>
    rw [mapGet_cons, if_neg, ih fun e' he' => h e' (List.mem_cons_of_mem _ he')]
    intro hk
    have := h e (List.mem_cons_self ..)
    rw [hk, o.irrefl] at this
    cases this

/-- Canonical maps that read alike are equal. -/
theorem map_ext {lt : κ → κ → Bool} (o : KeyOrder lt) {m m' : List (κ × α)}
    (h : mapWf lt m = true) (h' : mapWf lt m' = true) (heq : ∀ k, mapGet m k = mapGet m' k) :
    m = m' := by
  induction m generalizing m' with
  | nil =>
    cases m' with
    | nil => rfl
    | cons e m' => simpa [mapGet_cons] using heq e.1
  | cons e m ih =>
    cases m' with
    | nil => simpa [mapGet_cons] using heq e.1
    | cons e' m' =>
      rw [mapWf_cons] at h h'
      have hk : e.1 = e'.1 := by
        by_contra hne
        cases hlt : lt e.1 e'.1 with
        | true =>
          have := heq e.1
          rw [mapGet_cons, if_pos rfl, mapGet_cons, if_neg hne, mapGet_below o] at this
          · cases this
          · exact fun x hx => o.trans _ _ _ hlt (h'.1 x hx)
        | false =>
          have hgt := o.total _ _ hne hlt
          have := heq e'.1
          rw [mapGet_cons, if_neg (Ne.symm hne), mapGet_cons, if_pos rfl, mapGet_below o] at this
          · cases this
          · exact fun x hx => o.trans _ _ _ hgt (h.1 x hx)
      have hv : e.2 = e'.2 := by
        have := heq e.1
        rw [mapGet_cons, if_pos rfl, mapGet_cons, if_pos hk] at this
        simpa using this
      have htail : m = m' := by
        refine ih h.2 h'.2 fun k => ?_
        have := heq k
        rw [mapGet_cons, mapGet_cons, ← hk] at this
        by_cases hke : k = e.1
        · rw [hke, mapGet_below o h.1, mapGet_below o (by rw [hk]; exact h'.1)]
        · simpa [hke] using this
      rw [Prod.ext hk hv, htail]

end Sys2Proof.Machine
end

