-- ==== Sys2Proof/Laws/State.lean ====
section
/-! SUPPORT. One lemma per field per update of the state and of an instance, so that no proof unfolds a
record update. -/

namespace Sys2Proof.Machine

/-! ### The response port -/

@[simp] theorem respond_params (s : State) (r : Response) : (s.respond r).params = s.params := rfl
@[simp] theorem respond_draws (s : State) (r : Response) : (s.respond r).draws = s.draws := rfl
@[simp] theorem respond_commandPort (s : State) (r : Response) :
    (s.respond r).commandPort = s.commandPort := rfl
@[simp] theorem respond_response (s : State) (r : Response) : (s.respond r).response = some r := rfl
@[simp] theorem respond_seq (s : State) (r : Response) : (s.respond r).seq = s.seq := rfl
@[simp] theorem respond_modules (s : State) (r : Response) : (s.respond r).modules = s.modules := rfl
@[simp] theorem respond_offsets (s : State) (r : Response) : (s.respond r).offsets = s.offsets := rfl
@[simp] theorem respond_encOrder (s : State) (r : Response) : (s.respond r).encOrder = s.encOrder := rfl
@[simp] theorem respond_write (s : State) (r : Response) : (s.respond r).write = s.write := rfl
@[simp] theorem respond_inValues (s : State) (r : Response) : (s.respond r).inValues = s.inValues := rfl
@[simp] theorem respond_outValues (s : State) (r : Response) :
    (s.respond r).outValues = s.outValues := rfl
@[simp] theorem respond_lastTxCnt (s : State) (r : Response) :
    (s.respond r).lastTxCnt = s.lastTxCnt := rfl
@[simp] theorem respond_txEdge (s : State) (r : Response) : (s.respond r).txEdge = s.txEdge := rfl
@[simp] theorem respond_codecs (s : State) (r : Response) : (s.respond r).codecs = s.codecs := rfl
@[simp] theorem respond_validAddr (s : State) (r : Response) (a : Address) :
    (s.respond r).validAddr a = s.validAddr a := rfl

/-- Error entry writes the response port only (R165). -/
theorem raise_eq (s : State) (e : Err) : s.raise e = { s with response := some (.error e) } := rfl

/-! ### The pool -/

@[simp] theorem setInstance_params (s : State) (k : Nat) (p : SeqState) :
    (s.setInstance k p).params = s.params := rfl
@[simp] theorem setInstance_draws (s : State) (k : Nat) (p : SeqState) :
    (s.setInstance k p).draws = s.draws := rfl
@[simp] theorem setInstance_commandPort (s : State) (k : Nat) (p : SeqState) :
    (s.setInstance k p).commandPort = s.commandPort := rfl
@[simp] theorem setInstance_response (s : State) (k : Nat) (p : SeqState) :
    (s.setInstance k p).response = s.response := rfl
@[simp] theorem setInstance_seq (s : State) (k : Nat) (p : SeqState) :
    (s.setInstance k p).seq = mapSet natLt s.seq k p := rfl
@[simp] theorem setInstance_modules (s : State) (k : Nat) (p : SeqState) :
    (s.setInstance k p).modules = s.modules := rfl
@[simp] theorem setInstance_offsets (s : State) (k : Nat) (p : SeqState) :
    (s.setInstance k p).offsets = s.offsets := rfl
@[simp] theorem setInstance_encOrder (s : State) (k : Nat) (p : SeqState) :
    (s.setInstance k p).encOrder = s.encOrder := rfl
@[simp] theorem setInstance_write (s : State) (k : Nat) (p : SeqState) :
    (s.setInstance k p).write = s.write := rfl
@[simp] theorem setInstance_inValues (s : State) (k : Nat) (p : SeqState) :
    (s.setInstance k p).inValues = s.inValues := rfl
@[simp] theorem setInstance_outValues (s : State) (k : Nat) (p : SeqState) :
    (s.setInstance k p).outValues = s.outValues := rfl
@[simp] theorem setInstance_lastTxCnt (s : State) (k : Nat) (p : SeqState) :
    (s.setInstance k p).lastTxCnt = s.lastTxCnt := rfl
@[simp] theorem setInstance_txEdge (s : State) (k : Nat) (p : SeqState) :
    (s.setInstance k p).txEdge = s.txEdge := rfl
@[simp] theorem setInstance_codecs (s : State) (k : Nat) (p : SeqState) :
    (s.setInstance k p).codecs = s.codecs := rfl
@[simp] theorem setInstance_validAddr (s : State) (k : Nat) (p : SeqState) (a : Address) :
    (s.setInstance k p).validAddr a = s.validAddr a := rfl

/-! ### The frame fields SEQ_NEXT writes -/

@[simp] theorem flushRequest_reset (f : FrameOut) : (flushRequest f).reset = false := rfl
@[simp] theorem flushRequest_rxBufFlush (f : FrameOut) : (flushRequest f).rxBufFlush = true := rfl
@[simp] theorem flushRequest_txBufFlush (f : FrameOut) : (flushRequest f).txBufFlush = true := rfl
@[simp] theorem flushRequest_data (f : FrameOut) : (flushRequest f).data = [] := rfl
@[simp] theorem flushRequest_active (f : FrameOut) : (flushRequest f).active = f.active := rfl
@[simp] theorem flushRequest_txCnt (f : FrameOut) : (flushRequest f).txCnt = f.txCnt := rfl
@[simp] theorem resetRequest_reset (f : FrameOut) : (resetRequest f).reset = true := rfl
@[simp] theorem resetRequest_rxBufFlush (f : FrameOut) : (resetRequest f).rxBufFlush = false := rfl
@[simp] theorem resetRequest_txBufFlush (f : FrameOut) : (resetRequest f).txBufFlush = false := rfl
@[simp] theorem resetRequest_data (f : FrameOut) : (resetRequest f).data = [] := rfl
@[simp] theorem resetRequest_active (f : FrameOut) : (resetRequest f).active = f.active := rfl
@[simp] theorem resetRequest_txCnt (f : FrameOut) : (resetRequest f).txCnt = f.txCnt := rfl
@[simp] theorem sendChunk_txCnt (a : Counter) (c : List Byte) (f : FrameOut) :
    (sendChunk a c f).txCnt = inc a := rfl
@[simp] theorem sendChunk_active (a : Counter) (c : List Byte) (f : FrameOut) :
    (sendChunk a c f).active = true := rfl
@[simp] theorem sendChunk_data (a : Counter) (c : List Byte) (f : FrameOut) :
    (sendChunk a c f).data = c := rfl
@[simp] theorem acknowledge_rxCntAck (n : Counter) (f : FrameOut) :
    (acknowledge n f).rxCntAck = n := rfl
@[simp] theorem acknowledge_txCnt (n : Counter) (f : FrameOut) :
    (acknowledge n f).txCnt = f.txCnt := rfl
@[simp] theorem acknowledge_data (n : Counter) (f : FrameOut) :
    (acknowledge n f).data = f.data := rfl

/-! ### The working copies of a cycle -/

@[simp] theorem staged_ov (s : State) (ov : List (List ChannelValue)) : (s.staged ov).ov = ov := rfl
@[simp] theorem staged_write (s : State) (ov : List (List ChannelValue)) :
    (s.staged ov).write = s.write := rfl
@[simp] theorem staged_seq (s : State) (ov : List (List ChannelValue)) :
    (s.staged ov).seq = s.seq := rfl
@[simp] theorem staged_lastTx (s : State) (ov : List (List ChannelValue)) :
    (s.staged ov).lastTx = s.lastTxCnt := rfl
@[simp] theorem staged_edge (s : State) (ov : List (List ChannelValue)) :
    (s.staged ov).edge = [] := rfl
@[simp] theorem txEdgeStep_ov (i : Nat) (f : FrameOut) (w : Cycle) : (txEdgeStep i f w).ov = w.ov := rfl
@[simp] theorem txEdgeStep_write (i : Nat) (f : FrameOut) (w : Cycle) :
    (txEdgeStep i f w).write = w.write := rfl
@[simp] theorem txEdgeStep_seq (i : Nat) (f : FrameOut) (w : Cycle) :
    (txEdgeStep i f w).seq = w.seq := rfl
@[simp] theorem txEdgeStep_lastTx (i : Nat) (f : FrameOut) (w : Cycle) :
    (txEdgeStep i f w).lastTx = mapSet natLt w.lastTx i f.txCnt := rfl

end Sys2Proof.Machine
end

