-- ==== Sys2Proof/Laws/Ops.lean ====
section
/-! SUPPORT. What the shared operations can do, said once: the end of an operation, instance lookup,
codec calls, the command port; and every instruction as one effect ended by `finish`. -/

namespace Sys2Proof.Machine

/-! ### Errors in sequence -/

theorem bind_ok_iff {ε α β : Type} {x : Except ε α} {f : α → Except ε β} {b : β} :
    (x >>= f) = .ok b ↔ ∃ a, x = .ok a ∧ f a = .ok b := by
  cases x <;> simp [bind, Except.bind]

theorem bind_error_iff {ε α β : Type} {x : Except ε α} {f : α → Except ε β} {e : ε} :
    (x >>= f) = .error e ↔ x = .error e ∨ ∃ a, x = .ok a ∧ f a = .error e := by
  cases x <;> simp [bind, Except.bind]

@[simp] theorem ok_bind {ε α β : Type} (a : α) (f : α → Except ε β) :
    ((Except.ok a : Except ε α) >>= f) = f a := rfl

@[simp] theorem error_bind {ε α β : Type} (e : ε) (f : α → Except ε β) :
    ((Except.error e : Except ε α) >>= f) = .error e := rfl

/-! ### The end of an operation -/

/-- An operation answers a next state in one of two ways: its error from the state before it, or its
state and result (R165, R179). -/
theorem finish_next_iff {s t : State} {x : Except Err (State × Result)} :
    s.finish x = .next t ↔
      (∃ e, x = .error e ∧ t = s.raise e) ∨ ∃ u r, x = .ok (u, r) ∧ t = u.respond (.ok r) := by
  cases x with
  | error e => simp [State.finish, eq_comm]
  | ok ur => obtain ⟨u, r⟩ := ur; simp [State.finish, eq_comm]

theorem finish_ok (s u : State) (r : Result) : s.finish (.ok (u, r)) = .next (u.respond (.ok r)) := rfl

theorem finish_error (s : State) (e : Err) : s.finish (.error e) = .next (s.raise e) := rfl

/-- The response tells which of the two ways an operation took. -/
theorem finish_response_ok {s t : State} {x : Except Err (State × Result)} {r : Result}
    (h : s.finish x = .next t) (hr : t.response = some (.ok r)) :
    ∃ u, x = .ok (u, r) ∧ t = u.respond (.ok r) := by
  rcases finish_next_iff.1 h with ⟨e, rfl, rfl⟩ | ⟨u, r', rfl, rfl⟩
  · simp [State.raise] at hr
  · simp only [respond_response, Option.some.injEq, Response.ok.injEq] at hr
    subst hr
    exact ⟨u, rfl, rfl⟩

theorem finish_response_error {s t : State} {x : Except Err (State × Result)} {e : Err}
    (h : s.finish x = .next t) (hr : t.response = some (.error e)) :
    x = .error e ∧ t = s.raise e := by
  rcases finish_next_iff.1 h with ⟨e', rfl, rfl⟩ | ⟨u, r', rfl, rfl⟩
  · simp only [State.raise, respond_response, Option.some.injEq, Response.error.injEq] at hr
    subst hr
    exact ⟨rfl, rfl⟩
  · simp at hr

/-! ### Lookup, codec calls, ports -/

theorem lookupInstance_ok_iff {q : List (Nat × SeqState)} {k : Nat} {p : SeqState} :
    lookupInstance q k = .ok p ↔ mapGet q k = some p := by
  rw [lookupInstance]
  cases mapGet q k <;> simp

theorem lookupInstance_error_iff {q : List (Nat × SeqState)} {k : Nat} {e : Err} :
    lookupInstance q k = .error e ↔ mapGet q k = none ∧ e = .address := by
  rw [lookupInstance]
  cases mapGet q k <;> simp [eq_comm]

theorem codecCall_ok_iff {α : Type} {x : Except CodecError α} {a : α} :
    codecCall x = .ok a ↔ x = .ok a := by
  cases x <;> simp [codecCall]

theorem codecCall_error_iff {α : Type} {x : Except CodecError α} {e : Err} :
    codecCall x = .error e ↔ ∃ ce, x = .error ce ∧ e = codecErr ce := by
  cases x <;> simp [codecCall, eq_comm]

theorem takeRequest_nil {s : State} (h : s.commandPort = []) : s.takeRequest = none := by
  simp [State.takeRequest, h]

theorem takeRequest_cons {s : State} {r : Request} {rest : List Request}
    (h : s.commandPort = r :: rest) :
    s.takeRequest = some (r, { s with commandPort := rest }) := by
  simp [State.takeRequest, h]

/-- Address validity is the predicate of R140. -/
theorem validAddr_iff {s : State} {a : Address} :
    s.validAddr a = true ↔ ∃ c, s.modules[a.module]? = some c ∧ a.channel < s.codecs.channelCount c := by
  rw [State.validAddr]
  cases s.modules[a.module]? <;> simp

/-! ### Every instruction is one effect -/

/-- What each instruction computes before `finish` ends it. -/
def effect (i : Instr) (s : State) : Except Err (State × Result) :=
  match i with
  | .baSplit addr => .ok (s, .split (registerOf addr) (bitOf addr))
  | .baJoin register bit => do
    let a ← joinAddr register bit
    .ok (s, .addr a)
  | .baOffsets flat => do
    let offs ← parseOffsets flat
    .ok (s, .offsets offs)
  | .baModlist regs => do
    let ts ← parseModlist s.codecs regs
    .ok (s, .types ts)
  | .mapDecodeIn mods baseAddr data => do
    let vs ← decodeInputs s.codecs mods baseAddr data
    .ok (s, .values vs)
  | .mapDecodeOut mods baseAddr data => do
    let vs ← decodeOutputs s.codecs mods baseAddr data
    .ok (s, .values vs)
  | .mapEncode mods baseAddr values => do
    let ws ← mapEncode s.codecs mods baseAddr values
    .ok (s, .words ws)
  | .seqNew key frameLen => seqNew key frameLen s
  | .seqNext key input output => seqNext key input output s
  | .seqWrite key bytes => seqWrite key bytes s
  | .seqRead key => seqRead key s
  | .cplNew types params offsets => cplNew types params offsets s
  | .cplIsValidAddr addr => .ok (s, .bool (s.validAddr addr))
  | .cplSetOutput addr value => cplSetOutput addr value s
  | .cplNext processInput processOutput => cplNext processInput processOutput s
  | .cplInputs => .ok (s, .values s.inValues)
  | .cplOutputs => .ok (s, .values s.outValues)
  | .cplReader module => seqRead module s
  | .cplWriter module bytes => seqWrite module bytes s

/-- The one inversion of `exec`. -/
theorem exec_eq_finish (i : Instr) (s : State) : exec i s = s.finish (effect i s) := by
  cases i <;> rfl

end Sys2Proof.Machine
end

