-- ==== Sys2Proof/Laws/Mapper.lean ====
section
/-! SUPPORT. What the mapper's operations can do: the window, DECODE on one module and on a list, the
placement, and the loop of MAP_ENCODE. -/

namespace Sys2Proof.Machine

/-! ### The window -/

/-- The raw words of a window (R100). -/
theorem windowWords_length {data : List Word16} {start n : Nat} (h : start + n ≤ data.length) :
    ((data.drop start).take n).length = n := by
  simp only [List.length_take, List.length_drop]
  omega

/-- WINDOW answers words exactly when its three checks pass (R100 to R102). -/
theorem window_ok_iff {o : BitAddress} {byteCount : Nat} {base : Word16} {data ws : List Word16} :
    window o byteCount base data = .ok ws ↔
      base.toNat ≤ o.toNat / 16 ∧
      o.toNat / 16 - base.toNat + wordCount byteCount ≤ data.length ∧
      ((o.toNat % 16 = 0 ∧
          ws = (data.drop (o.toNat / 16 - base.toNat)).take (wordCount byteCount)) ∨
        (o.toNat % 16 = 8 ∧
          ws = shift8 ((data.drop (o.toNat / 16 - base.toNat)).take (wordCount byteCount)))) := by
  simp only [window, registerOf_toNat, bitOf_eq_zero_iff, bitOf_eq_eight_iff]
  split
  · simp only [reduceCtorEq, false_iff]
    omega
  · split
    · simp only [reduceCtorEq, false_iff]
      omega
    · split
      · rename_i h1 h2 h3
        simp only [Except.ok.injEq, h3]
        constructor
        · rintro rfl
          exact ⟨by omega, by omega, .inl ⟨trivial, rfl⟩⟩
        · rintro ⟨-, -, ⟨-, rfl⟩ | ⟨h, -⟩⟩
          · rfl
          · omega
      · split
        · rename_i h1 h2 h3 h4
          simp only [Except.ok.injEq, h4]
          constructor
          · rintro rfl
            exact ⟨by omega, by omega, .inr ⟨trivial, rfl⟩⟩
          · rintro ⟨-, -, ⟨h, -⟩ | ⟨-, rfl⟩⟩
            · omega
            · rfl
        · simp only [reduceCtorEq, false_iff]
          omega

/-- The errors of WINDOW, in their order (R113). -/
theorem window_error_iff {o : BitAddress} {byteCount : Nat} {base : Word16} {data : List Word16}
    {e : Err} :
    window o byteCount base data = .error e ↔
      (o.toNat / 16 < base.toNat ∧ e = .moduleOffset) ∨
      (base.toNat ≤ o.toNat / 16 ∧
        data.length < o.toNat / 16 - base.toNat + wordCount byteCount ∧ e = .bufferLength) ∨
      (base.toNat ≤ o.toNat / 16 ∧
        o.toNat / 16 - base.toNat + wordCount byteCount ≤ data.length ∧
        o.toNat % 16 ≠ 0 ∧ o.toNat % 16 ≠ 8 ∧ e = .moduleOffset) := by
  simp only [window, registerOf_toNat, bitOf_eq_zero_iff, bitOf_eq_eight_iff]
  split
  · simp only [Except.error.injEq]
    constructor
    · rintro rfl
      exact .inl ⟨by omega, rfl⟩
    · rintro (⟨-, rfl⟩ | ⟨h, -⟩ | ⟨h, -⟩)
      · rfl
      · omega
      · omega
  · split
    · simp only [Except.error.injEq]
      constructor
      · rintro rfl
        exact .inr (.inl ⟨by omega, by omega, rfl⟩)
      · rintro (⟨h, -⟩ | ⟨-, -, rfl⟩ | ⟨-, h, -⟩)
        · omega
        · rfl
        · omega
    · split
      · simp only [reduceCtorEq, false_iff]
        omega
      · split
        · simp only [reduceCtorEq, false_iff]
          omega
        · simp only [Except.error.injEq]
          constructor
          · rintro rfl
            exact .inr (.inr ⟨by omega, by omega, by omega, by omega, rfl⟩)
          · rintro (⟨h, -⟩ | ⟨-, h, -⟩ | ⟨-, -, -, -, rfl⟩)
            · omega
            · omega
            · rfl

/-! ### DECODE -/

/-- One module decodes to `channel_count` copies of `None`, or to what its codec makes of its window
(R99, R103). -/
theorem decodeModule_ok_iff {n : Nat} {o : Option BitAddress} {byteCount : Nat}
    {dec : List Word16 → Except CodecError (List ChannelValue)} {base : Word16}
    {data : List Word16} {vs : List ChannelValue} :
    decodeModule n o byteCount dec base data = .ok vs ↔
      (o = none ∧ vs = List.replicate n .none) ∨
        ∃ a ws, o = some a ∧ window a byteCount base data = .ok ws ∧ dec ws = .ok vs := by
  cases o with
  | none => simp [decodeModule, eq_comm]
  | some a => simp [decodeModule, bind_ok_iff, codecCall_ok_iff]

/-- A module raises only where its offset is present: its window's error, or its codec's (R113). -/
theorem decodeModule_error_iff {n : Nat} {o : Option BitAddress} {byteCount : Nat}
    {dec : List Word16 → Except CodecError (List ChannelValue)} {base : Word16}
    {data : List Word16} {e : Err} :
    decodeModule n o byteCount dec base data = .error e ↔
      ∃ a, o = some a ∧ (window a byteCount base data = .error e ∨
        ∃ ws ce, window a byteCount base data = .ok ws ∧ dec ws = .error ce ∧ e = codecErr ce) := by
  cases o with
  | none => simp [decodeModule]
  | some a => simp [decodeModule, bind_error_iff, codecCall_error_iff]

/-- DECODE answers one list of values per module, in order (R99). -/
theorem decodeModules_ok_iff {C : Codecs}
    {view : CodecInst → ModuleOffset →
      Option BitAddress × Nat × (List Word16 → Except CodecError (List ChannelValue))}
    {base : Word16} {data : List Word16} {mods : List (CodecInst × ModuleOffset)}
    {vss : List (List ChannelValue)} :
    decodeModules C view base data mods = .ok vss ↔
      List.Forall₂ (fun m vs => decodeModule (C.channelCount m.1) (view m.1 m.2).1
        (view m.1 m.2).2.1 (view m.1 m.2).2.2 base data = .ok vs) mods vss := by
  induction mods generalizing vss with
  | nil => simp [decodeModules, eq_comm]
  | cons m mods ih =>
    obtain ⟨c, off⟩ := m
    simp only [decodeModules, bind_ok_iff, ih]
    constructor
    · rintro ⟨vs, hvs, rest, hrest, h⟩
      cases h
      exact .cons hvs hrest
    · intro h
      cases h with
      | cons hvs hrest => exact ⟨_, hvs, _, hrest, rfl⟩

/-- DECODE on modules that decode followed by one that raises: that error (R99, R113). -/
theorem decodeModules_error_append {C : Codecs}
    {view : CodecInst → ModuleOffset →
      Option BitAddress × Nat × (List Word16 → Except CodecError (List ChannelValue))}
    {base : Word16} {data : List Word16} {before rest : List (CodecInst × ModuleOffset)}
    {c : CodecInst} {off : ModuleOffset} {vss : List (List ChannelValue)} {e : Err}
    (hb : decodeModules C view base data before = .ok vss)
    (he : decodeModule (C.channelCount c) (view c off).1 (view c off).2.1 (view c off).2.2 base data =
      .error e) :
    decodeModules C view base data (before ++ (c, off) :: rest) = .error e := by
  induction before generalizing vss with
  | nil => simp [decodeModules, he]
  | cons m before ih =>
    obtain ⟨c', off'⟩ := m
    simp only [decodeModules, bind_ok_iff] at hb
    obtain ⟨vs, hvs, rest', hrest, -⟩ := hb
    simp [decodeModules, hvs, ih hrest]

/-- Where DECODE raises, some module of it does. -/
theorem decodeModules_error {C : Codecs}
    {view : CodecInst → ModuleOffset →
      Option BitAddress × Nat × (List Word16 → Except CodecError (List ChannelValue))}
    {base : Word16} {data : List Word16} {mods : List (CodecInst × ModuleOffset)} {e : Err}
    (h : decodeModules C view base data mods = .error e) :
    ∃ m ∈ mods, decodeModule (C.channelCount m.1) (view m.1 m.2).1 (view m.1 m.2).2.1
      (view m.1 m.2).2.2 base data = .error e := by
  induction mods with
  | nil => cases h
  | cons m mods ih =>
    obtain ⟨c, off⟩ := m
    simp only [decodeModules, bind_error_iff, reduceCtorEq, and_false, exists_false, or_false] at h
    rcases h with h | ⟨_, -, h⟩
    · exact ⟨(c, off), by simp, h⟩
    · obtain ⟨m, hm, he⟩ := ih h
      exact ⟨m, by simp [hm], he⟩

/-! ### PLACE and the encode loop -/

/-- The merge keeps the register's low byte and puts the word's low byte high (R108). -/
theorem mergeHigh_toNat (old w : Word16) :
    (mergeHigh old w).toNat = old.toNat % 256 + 256 * (w.toNat % 256) := by
  have h1 : (old &&& 0x00FF).toNat = old.toNat % 256 := by
    rw [BitVec.toNat_and]
    exact Nat.and_two_pow_sub_one_eq_mod old.toNat 8
  have h2 : (w <<< 8).toNat = (w.toNat % 256) * 256 := by
    rw [BitVec.toNat_shiftLeft, Nat.shiftLeft_eq]
    omega
  have h3 := Nat.two_pow_add_eq_or_of_lt (i := 8) (b := old.toNat % 256) (by omega) (w.toNat % 256)
  rw [show (2 : Nat) ^ 8 = 256 from rfl] at h3
  rw [mergeHigh, BitVec.toNat_or, h1, h2, Nat.or_comm, Nat.mul_comm _ 256, ← h3, Nat.add_comm]

theorem place_ok_iff {out ws out' : List Word16} {o : BitAddress} {base : Word16} :
    place out ws o base = .ok out' ↔
      base.toNat ≤ o.toNat / 16 ∧
      ((o.toNat % 16 = 0 ∧ out.length = o.toNat / 16 - base.toNat ∧ out' = out ++ ws) ∨
        (o.toNat % 16 = 8 ∧ out.length = o.toNat / 16 - base.toNat + 1 ∧ ∃ w rest, ws = w :: rest ∧
          out' = out.modify (o.toNat / 16 - base.toNat) fun old => mergeHigh old w)) := by
  simp only [place, registerOf_toNat, bitOf_eq_zero_iff, bitOf_eq_eight_iff]
  by_cases h1 : o.toNat / 16 < base.toNat
  · simp [h1, Nat.not_le.2 h1]
  by_cases h2 : o.toNat % 16 = 0
  · by_cases h3 : out.length = o.toNat / 16 - base.toNat
    · simp [h1, h2, h3, Nat.not_lt.1 h1, eq_comm]
    · simp [h1, h2, h3]
  by_cases h3 : o.toNat % 16 = 8
  · by_cases h4 : out.length = o.toNat / 16 - base.toNat + 1
    · cases ws with
      | nil => simp [h1, h3, h4]
      | cons w ws => simp [h1, h3, h4, Nat.not_lt.1 h1, eq_comm]
    · simp [h1, h3, h4]
  · simp [h1, h2, h3]

/-- The errors of PLACE, in their order (R111). -/
theorem place_error_iff {out ws : List Word16} {o : BitAddress} {base : Word16} {e : Err} :
    place out ws o base = .error e ↔
      if o.toNat / 16 < base.toNat then e = .moduleOffset
      else if o.toNat % 16 = 0 then out.length ≠ o.toNat / 16 - base.toNat ∧ e = .moduleOffset
      else if o.toNat % 16 = 8 then
        if out.length ≠ o.toNat / 16 - base.toNat + 1 then e = .moduleOffset
        else ws = [] ∧ e = .bufferLength
      else e = .moduleOffset := by
  simp only [place, registerOf_toNat, bitOf_eq_zero_iff, bitOf_eq_eight_iff]
  by_cases h1 : o.toNat / 16 < base.toNat
  · simp [h1, eq_comm]
  by_cases h2 : o.toNat % 16 = 0
  · by_cases h3 : out.length = o.toNat / 16 - base.toNat <;> simp [h1, h2, h3, eq_comm]
  by_cases h3 : o.toNat % 16 = 8
  · by_cases h4 : out.length = o.toNat / 16 - base.toNat + 1
    · cases ws <;> simp [h1, h3, h4, eq_comm]
    · simp [h1, h3, h4, eq_comm]
  · simp [h1, h2, h3, eq_comm]

/-- A module without an output offset is skipped (R109). -/
theorem encodeModules_absent {C : Codecs} {base : Word16} {c : CodecInst} {off : ModuleOffset}
    {vs : List ChannelValue} {rest : List ((CodecInst × ModuleOffset) × List ChannelValue)}
    {out : List Word16} (h : off.output = none) :
    encodeModules C base (((c, off), vs) :: rest) out = encodeModules C base rest out := by
  rw [encodeModules, h]

/-- A module with an output offset is encoded, then placed, then the loop goes on (R105). -/
theorem encodeModules_present {C : Codecs} {base : Word16} {c : CodecInst} {off : ModuleOffset}
    {o : BitAddress} {vs : List ChannelValue}
    {rest : List ((CodecInst × ModuleOffset) × List ChannelValue)} {out : List Word16}
    (h : off.output = some o) :
    encodeModules C base (((c, off), vs) :: rest) out =
      codecCall (C.encodeOutput c vs) >>= fun ws => place out ws o base >>= fun out' =>
        encodeModules C base rest out' := by
  rw [encodeModules, h]

/-- Encoding a list in two parts. -/
theorem encodeModules_append {C : Codecs} {base : Word16}
    {before rest : List ((CodecInst × ModuleOffset) × List ChannelValue)} {out : List Word16} :
    encodeModules C base (before ++ rest) out =
      encodeModules C base before out >>= fun out' => encodeModules C base rest out' := by
  induction before generalizing out with
  | nil => simp [encodeModules]
  | cons m before ih =>
    obtain ⟨⟨c, off⟩, vs⟩ := m
    cases h : off.output with
    | none => rw [List.cons_append, encodeModules_absent h, encodeModules_absent h, ih]
    | some o =>
      rw [List.cons_append, encodeModules_present h, encodeModules_present h]
      cases codecCall (C.encodeOutput c vs) with
      | error e => rfl
      | ok ws =>
        simp only [ok_bind]
        cases place out ws o base with
        | error e => rfl
        | ok out' => simp [ih]

/-- MAP_ENCODE with matching arities is the loop (R105). -/
theorem mapEncode_eq {C : Codecs} {mods : List (CodecInst × ModuleOffset)} {base : Word16}
    {values : List (List ChannelValue)} (h : mods.length = values.length) :
    mapEncode C mods base values = encodeModules C base (mods.zip values) [] := by
  rw [mapEncode, if_neg (by simpa using h)]

theorem mapEncode_arity {C : Codecs} {mods : List (CodecInst × ModuleOffset)} {base : Word16}
    {values : List (List ChannelValue)} (h : mods.length ≠ values.length) :
    mapEncode C mods base values = .error .channelValue := by
  rw [mapEncode, if_pos h]

end Sys2Proof.Machine
end

