-- ==== Sys2Proof/Laws/Sequencer.lean ====
section
/-! SUPPORT. What the sequencer's shared operations can do: counters, the steps of SEQ_NEXT, chunking,
queueing and draining. -/

namespace Sys2Proof.Machine

/-! ### Counters and conditions -/

theorem inc_toNat (n : Counter) : (inc n).toNat = (n.toNat + 1) % 4 := by
  rw [inc, BitVec.toNat_ofNat]
  omega

theorem maySend_iff (a t : Counter) : maySend a t = true ↔ (a.toNat + 1) % 4 ≠ t.toNat := by
  rw [maySend, bne_iff_ne, ne_eq, ← BitVec.toNat_inj, inc_toNat]

theorem accepts_iff (input : FrameIn) (n : Counter) :
    accepts input n = true ↔ input.dataAvailable = true ∧ input.rxCnt ≠ n := by
  simp [accepts]

theorem fits_iff (cap : Option Nat) (n : Nat) :
    fits cap n = true ↔ ∀ k, cap = some k → n ≤ k := by
  cases cap <;> simp [fits]

theorem fits_mono {cap : Option Nat} {m n : Nat} (h : fits cap n = true) (hm : m ≤ n) :
    fits cap m = true := by
  rw [fits_iff] at *
  exact fun k hk => hm.trans (h k hk)

@[simp] theorem fits_zero (cap : Option Nat) : fits cap 0 = true := by
  simp [fits_iff]

/-! ### The steps of SEQ_NEXT -/

/-- TX_STEP sends the head of the queue, or does nothing (R120). -/
theorem txStep_cases (p : SeqState) (input : FrameIn) (output : FrameOut) :
    (∃ chunk rest, p.outData = chunk :: rest ∧ maySend input.txCntAck output.txCnt = true ∧
      p.txStep input output = ({ p with outData := rest }, sendChunk input.txCntAck chunk output)) ∨
    ((p.outData = [] ∨ maySend input.txCntAck output.txCnt = false) ∧
      p.txStep input output = (p, output)) := by
  rw [SeqState.txStep]
  cases h : p.outData with
  | nil => exact .inr ⟨.inl rfl, rfl⟩
  | cons chunk rest =>
    cases hs : maySend input.txCntAck output.txCnt with
    | true => exact .inl ⟨chunk, rest, rfl, rfl, by simp⟩
    | false => exact .inr ⟨.inr rfl, by simp⟩

/-- RX_STEP accepts the frame, or does nothing (R121). -/
theorem rxStep_ok_iff {cap : Option Nat} {p q : SeqState} {input : FrameIn} :
    p.rxStep cap input = .ok q ↔
      (accepts input p.lastRxCnt = true ∧ fits cap (p.inData.length + input.data.length) = true ∧
        q = { p with inData := p.inData ++ input.data, lastRxCnt := input.rxCnt }) ∨
      (accepts input p.lastRxCnt = false ∧ q = p) := by
  rw [SeqState.rxStep]
  cases accepts input p.lastRxCnt <;>
    cases fits cap (p.inData.length + input.data.length) <;> simp [eq_comm]

/-- RX_STEP raises only BufferLength, only on an accepted frame over the capacity (R121, R127). -/
theorem rxStep_error_iff {cap : Option Nat} {p : SeqState} {input : FrameIn} {e : Err} :
    p.rxStep cap input = .error e ↔
      accepts input p.lastRxCnt = true ∧ fits cap (p.inData.length + input.data.length) = false ∧
        e = .bufferLength := by
  rw [SeqState.rxStep]
  cases accepts input p.lastRxCnt <;>
    cases fits cap (p.inData.length + input.data.length) <;> simp [eq_comm]

/-- TX_STEP leaves what RX_STEP reads. -/
theorem txStep_frame (p : SeqState) (input : FrameIn) (output : FrameOut) :
    (p.txStep input output).1.inData = p.inData ∧
      (p.txStep input output).1.lastRxCnt = p.lastRxCnt ∧
      (p.txStep input output).1.initState = p.initState ∧
      (p.txStep input output).1.processDataLen = p.processDataLen := by
  rcases txStep_cases p input output with ⟨_, _, _, _, h⟩ | ⟨_, h⟩ <;> simp [h]

theorem advance_clearBuffers {cap : Option Nat} {p : SeqState} {input : FrameIn} {output : FrameOut}
    (h : p.initState = .clearBuffers) :
    p.advance cap input output =
      .ok ({ p with initState := .reset }, acknowledge input.rxCnt (flushRequest output)) := by
  simp [SeqState.advance, SeqState.initStep, h]

theorem advance_reset {cap : Option Nat} {p : SeqState} {input : FrameIn} {output : FrameOut}
    (h : p.initState = .reset) :
    p.advance cap input output =
      .ok ({ p with lastRxCnt := 4, initState := .done },
        acknowledge input.rxCnt (resetRequest output)) := by
  simp [SeqState.advance, SeqState.initStep, h, Config.lastRxSentinel]

theorem advance_done {cap : Option Nat} {p : SeqState} {input : FrameIn} {output : FrameOut}
    (h : p.initState = .done) :
    p.advance cap input output = (p.txStep input output).1.rxStep cap input >>= fun q =>
      .ok (q, acknowledge input.rxCnt (p.txStep input output).2) := by
  simp [SeqState.advance, h]

/-- Everything SEQ_NEXT can do to an instance (R118 to R122). -/
theorem advance_ok_cases {cap : Option Nat} {p q : SeqState} {input : FrameIn} {output out : FrameOut}
    (h : p.advance cap input output = .ok (q, out)) :
    (p.initState = .clearBuffers ∧ q = { p with initState := .reset } ∧
      out = acknowledge input.rxCnt (flushRequest output)) ∨
    (p.initState = .reset ∧ q = { p with lastRxCnt := 4, initState := .done } ∧
      out = acknowledge input.rxCnt (resetRequest output)) ∨
    (p.initState = .done ∧ (p.txStep input output).1.rxStep cap input = .ok q ∧
      out = acknowledge input.rxCnt (p.txStep input output).2) := by
  cases hi : p.initState with
  | clearBuffers =>
    rw [advance_clearBuffers hi] at h
    cases h
    exact .inl ⟨rfl, rfl, rfl⟩
  | reset =>
    rw [advance_reset hi] at h
    cases h
    exact .inr (.inl ⟨rfl, rfl, rfl⟩)
  | done =>
    rw [advance_done hi, bind_ok_iff] at h
    obtain ⟨q', hq, h⟩ := h
    cases h
    exact .inr (.inr ⟨rfl, hq, rfl⟩)

/-- SEQ_NEXT raises only BufferLength, from RX_STEP on a Done instance (R118). -/
theorem advance_error {cap : Option Nat} {p : SeqState} {input : FrameIn} {output : FrameOut} {e : Err}
    (h : p.advance cap input output = .error e) :
    e = .bufferLength ∧ p.initState = .done ∧ accepts input p.lastRxCnt = true ∧
      fits cap (p.inData.length + input.data.length) = false := by
  cases hi : p.initState with
  | clearBuffers => rw [advance_clearBuffers hi] at h; cases h
  | reset => rw [advance_reset hi] at h; cases h
  | done =>
    rw [advance_done hi, bind_error_iff] at h
    rcases h with h | ⟨_, _, h⟩
    · obtain ⟨h1, h2, h3, _⟩ := txStep_frame p input output
      rw [rxStep_error_iff, h2, h1] at h
      exact ⟨h.2.2, rfl, h.1, h.2.1⟩
    · cases h

/-- SEQ_NEXT on one instance raises exactly where a Done instance accepts a frame its buffer cannot
take (R121, R127). -/
theorem advance_error_iff {cap : Option Nat} {p : SeqState} {input : FrameIn} {output : FrameOut}
    {e : Err} :
    p.advance cap input output = .error e ↔
      e = .bufferLength ∧ p.initState = .done ∧ accepts input p.lastRxCnt = true ∧
        fits cap (p.inData.length + input.data.length) = false := by
  refine ⟨advance_error, fun ⟨he, hd, ha, hf⟩ => ?_⟩
  obtain ⟨h1, h2, -⟩ := txStep_frame p input output
  rw [advance_done hd, bind_error_iff]
  exact .inl (rxStep_error_iff.2 ⟨h2 ▸ ha, h1 ▸ hf, he⟩)

/-- With an unbounded buffer SEQ_NEXT on an instance never raises (R118). -/
theorem advance_unbounded (p : SeqState) (input : FrameIn) (output : FrameOut) :
    ∃ q out, p.advance none input output = .ok (q, out) := by
  cases h : p.advance none input output with
  | ok r => exact ⟨r.1, r.2, rfl⟩
  | error e => simpa [fits] using (advance_error h).2.2.2

/-- The frame size never changes, and `init_state` moves at most one step forward (R30, R34). -/
theorem advance_progress {cap : Option Nat} {p q : SeqState} {input : FrameIn} {output out : FrameOut}
    (h : p.advance cap input output = .ok (q, out)) :
    q.processDataLen = p.processDataLen ∧
      ((p.initState = .clearBuffers ∧ q.initState = .reset) ∨
        (p.initState ≠ .clearBuffers ∧ q.initState = .done)) := by
  rcases advance_ok_cases h with ⟨hi, rfl, _⟩ | ⟨hi, rfl, _⟩ | ⟨hi, hq, _⟩
  · simp [hi]
  · simp [hi]
  · obtain ⟨_, _, h3, h4⟩ := txStep_frame p input output
    rcases rxStep_ok_iff.1 hq with ⟨_, _, rfl⟩ | ⟨_, rfl⟩ <;> simp [h3, h4, hi]

/-! ### Chunks -/

theorem userDataLen_pos (l : FrameLen) : 0 < l.userDataLen := by
  cases l <;> simp [FrameLen.userDataLen]

/-- `ceilDiv n u` is the least number of `u`s that reach `n`. -/
theorem ceilDiv_spec {u : Nat} (hu : 0 < u) (n : Nat) :
    n ≤ ceilDiv n u * u ∧ ∀ j, n ≤ j * u → ceilDiv n u ≤ j := by
  constructor
  · have := Nat.div_add_mod (n + u - 1) u
    have := Nat.mod_lt (n + u - 1) hu
    rw [ceilDiv, Nat.mul_comm]
    omega
  · intro j hj
    rw [ceilDiv, Nat.div_le_iff_le_mul_add_pred hu, Nat.mul_comm]
    omega

theorem ceilDiv_of_ge {u n : Nat} (hu : 0 < u) (hn : 0 < n) :
    ceilDiv n u = ceilDiv (n - u) u + 1 := by
  by_cases h : u ≤ n
  · rw [ceilDiv, ceilDiv, show n + u - 1 = (n - u + u - 1) + u by omega, Nat.add_div_right _ hu]
  · have h1 : ceilDiv n u ≤ 1 := (ceilDiv_spec hu n).2 1 (by omega)
    have h2 : ceilDiv (n - u) u = 0 := by
      have := (ceilDiv_spec hu (n - u)).2 0 (by omega)
      omega
    have h3 : ceilDiv n u ≠ 0 := fun h0 => by
      have := (ceilDiv_spec hu n).1
      rw [h0] at this
      omega
    omega

@[simp] theorem chunks_nil (u : Nat) : chunks u [] = [] := by
  have : ceilDiv 0 u = 0 := by
    rw [ceilDiv]
    cases u with
    | zero => rfl
    | succ u => exact Nat.div_eq_of_lt (by omega)
  simp [chunks, this]

theorem chunks_length (u : Nat) (bytes : List Byte) :
    (chunks u bytes).length = ceilDiv bytes.length u := by
  simp [chunks]

/-- Chunking takes the first `u` bytes, then chunks the rest (R123). -/
theorem chunks_cons {u : Nat} (hu : 0 < u) {bytes : List Byte} (hb : bytes ≠ []) :
    chunks u bytes = bytes.take u :: chunks u (bytes.drop u) := by
  have hlen : 0 < bytes.length := List.length_pos_iff.2 hb
  rw [chunks, ceilDiv_of_ge hu hlen, List.range_succ_eq_map, List.map_cons, List.map_map, chunks,
    List.length_drop]
  congr 1
  · simp
  · apply List.map_congr_left
    intro k _
    simp [List.drop_drop, Nat.succ_mul, Nat.add_comm]

/-- Every chunk is non-empty and at most `u` bytes long (R33, R123). -/
theorem chunks_bounds {u : Nat} (hu : 0 < u) {bytes c : List Byte} (h : c ∈ chunks u bytes) :
    c ≠ [] ∧ c.length ≤ u := by
  induction hn : bytes.length using Nat.strong_induction_on generalizing bytes with
  | _ n ih =>
    by_cases hb : bytes = []
    · simp [hb] at h
    · have hpos : 0 < bytes.length := List.length_pos_iff.2 hb
      rw [chunks_cons hu hb, List.mem_cons] at h
      rcases h with rfl | h
      · refine ⟨fun h0 => ?_, by simp⟩
        have := congrArg List.length h0
        simp only [List.length_take, List.length_nil] at this
        omega
      · refine ih (bytes.length - u) (by omega) h ?_
        simp

/-! ### Queueing and draining -/

theorem enqueue_ok_iff {cap : Option Nat} {p q : SeqState} {bytes : List Byte} :
    p.enqueue cap bytes = .ok q ↔
      fits cap (p.outData.length + (chunks p.processDataLen.userDataLen bytes).length) = true ∧
        q = { p with outData := p.outData ++ chunks p.processDataLen.userDataLen bytes } := by
  simp only [SeqState.enqueue]
  cases fits cap (p.outData.length + (chunks p.processDataLen.userDataLen bytes).length) <;>
    simp [eq_comm]

theorem enqueue_error_iff {cap : Option Nat} {p : SeqState} {bytes : List Byte} {e : Err} :
    p.enqueue cap bytes = .error e ↔
      fits cap (p.outData.length + (chunks p.processDataLen.userDataLen bytes).length) = false ∧
        e = .bufferLength := by
  simp only [SeqState.enqueue]
  cases fits cap (p.outData.length + (chunks p.processDataLen.userDataLen bytes).length) <;>
    simp [eq_comm]

/-- SEQ_READ answers the whole buffer when it is non-empty, and leaves it empty (R124). -/
theorem drain_eq (p : SeqState) :
    p.drain = ({ p with inData := [] }, if p.inData = [] then none else some p.inData) := by
  rw [SeqState.drain]
  cases h : p.inData with
  | nil =>
    simp only [if_true, Prod.mk.injEq, and_true]
    cases p
    simp_all
  | cons b bs => simp

/-! ### The operations on the pool -/

theorem seqWrite_ok_iff {key : Nat} {bytes : List Byte} {s t : State} {r : Result} :
    seqWrite key bytes s = .ok (t, r) ↔ ∃ p q, mapGet s.seq key = some p ∧
      p.enqueue s.params.outQCap bytes = .ok q ∧ t = s.setInstance key q ∧ r = .none := by
  simp only [seqWrite, bind_ok_iff, lookupInstance_ok_iff]
  constructor
  · rintro ⟨p, hp, q, hq, h⟩
    cases h
    exact ⟨p, q, hp, hq, rfl, rfl⟩
  · rintro ⟨p, q, hp, hq, rfl, rfl⟩
    exact ⟨p, hp, q, hq, rfl⟩

theorem seqRead_ok_iff {key : Nat} {s t : State} {r : Result} :
    seqRead key s = .ok (t, r) ↔ ∃ p, mapGet s.seq key = some p ∧
      t = s.setInstance key { p with inData := [] } ∧
      r = .bytes (if p.inData = [] then none else some p.inData) := by
  simp only [seqRead, bind_ok_iff, lookupInstance_ok_iff, drain_eq]
  constructor
  · rintro ⟨p, hp, h⟩
    cases h
    exact ⟨p, hp, rfl, rfl⟩
  · rintro ⟨p, hp, rfl, rfl⟩
    exact ⟨p, hp, rfl⟩

theorem seqNext_ok_iff {key : Nat} {input : FrameIn} {output : FrameOut} {s t : State} {r : Result} :
    seqNext key input output s = .ok (t, r) ↔ ∃ p q out, mapGet s.seq key = some p ∧
      p.advance s.params.inBufCap input output = .ok (q, out) ∧ t = s.setInstance key q ∧
      r = .frame out := by
  simp only [seqNext, bind_ok_iff, lookupInstance_ok_iff]
  constructor
  · rintro ⟨p, hp, ⟨q, out⟩, hq, h⟩
    cases h
    exact ⟨p, q, out, hp, hq, rfl, rfl⟩
  · rintro ⟨p, q, out, hp, hq, rfl, rfl⟩
    exact ⟨p, hp, (q, out), hq, rfl⟩

theorem seqNew_ok_iff {key frameLen : Nat} {s t : State} {r : Result} :
    seqNew key frameLen s = .ok (t, r) ↔ ∃ l, FrameLen.ofBytes frameLen = some l ∧
      t = { s.setInstance key (SeqState.fresh l s.draws) with draws := s.draws + 1 } ∧ r = .none := by
  rw [seqNew]
  cases FrameLen.ofBytes frameLen <;> simp [eq_comm]

theorem seqNew_error_iff {key frameLen : Nat} {s : State} {e : Err} :
    seqNew key frameLen s = .error e ↔ FrameLen.ofBytes frameLen = none ∧ e = .channelParameter := by
  rw [seqNew]
  cases FrameLen.ofBytes frameLen <;> simp [eq_comm]

theorem ofBytes_eq_some_iff (n : Nat) (l : FrameLen) : FrameLen.ofBytes n = some l ↔ l.bytes = n := by
  rw [FrameLen.ofBytes]
  cases l <;> simp only [FrameLen.bytes] <;> split <;> (try split) <;> simp_all <;> omega

theorem ofBytes_eq_none_iff (n : Nat) : FrameLen.ofBytes n = none ↔ n ≠ 8 ∧ n ≠ 16 := by
  rw [FrameLen.ofBytes]
  split <;> (try split) <;> simp_all

end Sys2Proof.Machine
end

