-- ==== Sys2Proof/Laws/Controller.lean ====
section
/-! SUPPORT. What the controller's operations can do: construction, the loops of a cycle, one module's
part of each phase, and CPL_NEXT as its four phases. -/

namespace Sys2Proof.Machine

/-! ### Construction -/

/-- One codec per type, in module order (R136). -/
theorem buildModules_ok_iff {C : Codecs} {tps : List (ModuleType × List Word16)}
    {mods : List CodecInst} :
    buildModules C tps = .ok mods ↔
      List.Forall₂ (fun tp c => C.fromParameters tp.1 tp.2 = .ok c) tps mods := by
  induction tps generalizing mods with
  | nil => simp [buildModules, eq_comm]
  | cons tp tps ih =>
    obtain ⟨t, p⟩ := tp
    simp only [buildModules, bind_ok_iff, codecCall_ok_iff, ih]
    constructor
    · rintro ⟨c, hc, cs, hcs, h⟩
      cases h
      exact .cons hc hcs
    · intro h
      cases h with
      | cons hc hcs => exact ⟨_, hc, _, hcs, rfl⟩

/-- The first codec that does not construct ends the construction (R138). -/
theorem buildModules_error_append {C : Codecs} {before rest : List (ModuleType × List Word16)}
    {t : ModuleType} {p : List Word16} {mods : List CodecInst} {ce : CodecError}
    (hb : buildModules C before = .ok mods) (he : C.fromParameters t p = .error ce) :
    buildModules C (before ++ (t, p) :: rest) = .error (codecErr ce) := by
  induction before generalizing mods with
  | nil => simp [buildModules, codecCall_error_iff.2 ⟨ce, he, rfl⟩]
  | cons tp before ih =>
    obtain ⟨t', p'⟩ := tp
    simp only [buildModules, bind_ok_iff] at hb
    obtain ⟨c, hc, cs, hcs, -⟩ := hb
    simp [buildModules, hc, ih hcs]

/-- A construction error is a codec's (R138). -/
theorem buildModules_error {C : Codecs} {tps : List (ModuleType × List Word16)} {e : Err}
    (h : buildModules C tps = .error e) :
    ∃ t p ce, C.fromParameters t p = .error ce ∧ e = codecErr ce := by
  induction tps with
  | nil => cases h
  | cons tp tps ih =>
    obtain ⟨t, p⟩ := tp
    simp only [buildModules, bind_error_iff, codecCall_error_iff, reduceCtorEq, and_false,
      exists_false, or_false] at h
    rcases h with ⟨ce, h, rfl⟩ | ⟨_, -, h⟩
    · exact ⟨t, p, ce, h, rfl⟩
    · exact ih h

/-- The pool of a construction holds a fresh instance exactly at the tunnel modules (R136). -/
theorem mapGet_buildPool {C : Codecs} {mods : List CodecInst} {idx draw k : Nat} :
    (k < idx → mapGet (buildPool C idx draw mods) k = none) ∧
    match mods[k]?.bind C.tunnelFrameLen with
    | some l => ∃ d, mapGet (buildPool C idx draw mods) (idx + k) = some (SeqState.fresh l d)
    | none => mapGet (buildPool C idx draw mods) (idx + k) = none := by
  induction mods generalizing idx draw k with
  | nil => simp [buildPool]
  | cons c mods ih =>
    constructor
    · intro hk
      rw [buildPool]
      split
      · rw [mapGet_cons, if_neg (by simp only; omega)]
        exact (ih (k := k)).1 (by omega)
      · exact (ih (k := k)).1 (by omega)
    · cases k with
      | zero =>
        cases h : C.tunnelFrameLen c with
        | some l => exact (by simp [h, buildPool, mapGet_cons])
        | none => simpa [h, buildPool] using (ih (k := idx)).1 (by omega)
      | succ k =>
        have key : ∀ d, match mods[k]?.bind C.tunnelFrameLen with
            | some l => ∃ d', mapGet (buildPool C (idx + 1) d mods) (idx + (k + 1)) =
                some (SeqState.fresh l d')
            | none => mapGet (buildPool C (idx + 1) d mods) (idx + (k + 1)) = none := fun d => by
          have := (ih (idx := idx + 1) (draw := d) (k := k)).2
          rwa [show idx + 1 + k = idx + (k + 1) by omega] at this
        rw [List.getElem?_cons_succ]
        cases h : C.tunnelFrameLen c with
        | some l =>
          have hg : mapGet (buildPool C idx draw (c :: mods)) (idx + (k + 1)) =
              mapGet (buildPool C (idx + 1) (draw + 1) mods) (idx + (k + 1)) := by
            rw [buildPool, h]
            exact (mapGet_cons _ _ _).trans (if_neg (by simp only; omega))
          rw [hg]
          exact key _
        | none =>
          rw [buildPool, h]
          exact key _

/-- A pool's keys are module indices from `idx` on. -/
theorem buildPool_keys {C : Codecs} {mods : List CodecInst} {idx draw : Nat} {e : Nat × SeqState}
    (h : e ∈ buildPool C idx draw mods) : idx ≤ e.1 := by
  induction mods generalizing idx draw with
  | nil => cases h
  | cons c mods ih =>
    rw [buildPool] at h
    split at h
    · rcases List.mem_cons.1 h with rfl | h
      · exact Nat.le_refl _
      · exact Nat.le_of_succ_le (ih h)
    · exact Nat.le_of_succ_le (ih h)

/-- A construction's pool is in canonical form. -/
theorem buildPool_wf {C : Codecs} {mods : List CodecInst} {idx draw : Nat} :
    mapWf natLt (buildPool C idx draw mods) = true := by
  induction mods generalizing idx draw with
  | nil => rfl
  | cons c mods ih =>
    rw [buildPool]
    split
    · rw [mapWf_cons]
      refine ⟨fun e he => ?_, ih⟩
      simpa [natLt] using Nat.lt_of_succ_le (buildPool_keys he)
    · exact ih

theorem offsetPairs_length {flat : List Word16} {n : Nat} (h : flat.length = 2 * n) :
    (offsetPairs flat).length = n := by
  induction n generalizing flat with
  | zero => simp [List.length_eq_zero_iff.1 h, offsetPairs]
  | succ n ih =>
    match flat, h with
    | o :: i :: rest, h => simpa [offsetPairs] using ih (by simp at h; omega)

/-- Everything CPL_NEW does when it succeeds (R136, R137, R139). -/
theorem cplNew_ok_iff {types : List ModuleType} {params : List (List Word16)}
    {offsets : List Word16} {s t : State} {r : Result} :
    cplNew types params offsets s = .ok (t, r) ↔
      params.length = types.length ∧ offsets.length = 2 * types.length ∧
      ∃ mods, buildModules s.codecs (types.zip params) = .ok mods ∧ r = .none ∧
        t = { s with
          modules := mods, offsets := offsetPairs offsets
          encOrder := encodeOrder (offsetPairs offsets), seq := buildPool s.codecs 0 s.draws mods
          draws := s.draws + (buildPool s.codecs 0 s.draws mods).length, write := []
          inValues := [], outValues := [], lastTxCnt := [], txEdge := [] } := by
  rw [cplNew]
  by_cases h1 : params.length = types.length
  · by_cases h2 : offsets.length = 2 * types.length
    · have h3 : parseOffsets offsets = .ok (offsetPairs offsets) := by
        rw [parseOffsets, if_neg (by omega)]
      simp only [h1, h2, ne_eq, not_true_eq_false, if_false, h3, ok_bind, bind_ok_iff, true_and]
      constructor
      · rintro ⟨mods, hm, h⟩
        cases h
        exact ⟨mods, hm, rfl, rfl⟩
      · rintro ⟨mods, hm, rfl, rfl⟩
        exact ⟨mods, hm, rfl⟩
    · simp [h1, h2]
  · simp [h1]

/-- CPL_NEW raises BufferLength, ModuleOffset, or a codec's error (R135, R138). -/
theorem cplNew_error {types : List ModuleType} {params : List (List Word16)}
    {offsets : List Word16} {s : State} {e : Err} (h : cplNew types params offsets s = .error e) :
    e = .bufferLength ∨ e = .moduleOffset ∨
      ∃ t p ce, s.codecs.fromParameters t p = .error ce ∧ e = codecErr ce := by
  rw [cplNew] at h
  split at h
  · cases h
    exact .inl rfl
  · split at h
    · cases h
      exact .inr (.inl rfl)
    · have h3 : parseOffsets offsets = .ok (offsetPairs offsets) := by
        rw [parseOffsets, if_neg (by omega)]
      simp only [h3, ok_bind, bind_error_iff, reduceCtorEq, and_false, exists_false, or_false] at h
      exact .inr (.inr (buildModules_error h))

/-! ### Loops over modules -/

/-- What every round of a loop keeps, the loop keeps. -/
theorem sweep_keeps {f : Nat → Cycle → Except Err Cycle} {P : Cycle → Prop} {is : List Nat}
    (hf : ∀ i ∈ is, ∀ w w', f i w = .ok w' → P w → P w') {w w' : Cycle}
    (h : sweep f is w = .ok w') (hw : P w) : P w' := by
  induction is generalizing w with
  | nil => cases h; exact hw
  | cons i is ih =>
    simp only [sweep, bind_ok_iff] at h
    obtain ⟨u, hu, h⟩ := h
    exact ih (fun j hj => hf j (by simp [hj])) h (hf i (by simp) w u hu hw)

/-- Where each round changes only its own index's view, the loop does to every index's view what its
round does, from the view before the loop. -/
theorem sweep_local {γ : Type} {f : Nat → Cycle → Except Err Cycle} {view : Nat → Cycle → γ}
    (hf : ∀ i w w', f i w = .ok w' → ∀ j, j ≠ i → view j w' = view j w) {is : List Nat}
    (hn : is.Nodup) {w w' : Cycle} (h : sweep f is w = .ok w') :
    (∀ j, j ∉ is → view j w' = view j w) ∧
      ∀ i ∈ is, ∃ u u', f i u = .ok u' ∧ view i u = view i w ∧ view i w' = view i u' := by
  induction is generalizing w with
  | nil => cases h; simp
  | cons i is ih =>
    simp only [sweep, bind_ok_iff] at h
    obtain ⟨u, hu, h⟩ := h
    obtain ⟨hi, hn⟩ := List.nodup_cons.1 hn
    obtain ⟨h1, h2⟩ := ih hn h
    refine ⟨fun j hj => ?_, fun j hj => ?_⟩
    · rw [List.mem_cons, not_or] at hj
      rw [h1 j hj.2, hf i w u hu j hj.1]
    · rcases List.mem_cons.1 hj with rfl | hj
      · exact ⟨w, u, hu, rfl, h1 _ hi⟩
      · obtain ⟨v, v', hv, h3, h4⟩ := h2 j hj
        have hne : j ≠ i := fun hji => hi (hji ▸ hj)
        exact ⟨v, v', hv, h3.trans (hf i w u hu j hne), h4⟩

/-- Where each round changes only its own index's view, a loop none of whose rounds raises on the view
before it completes. -/
theorem sweep_completes {γ : Type} {f : Nat → Cycle → Except Err Cycle} {view : Nat → Cycle → γ}
    (hf : ∀ i w w', f i w = .ok w' → ∀ j, j ≠ i → view j w' = view j w) {is : List Nat}
    (hn : is.Nodup) {w : Cycle}
    (h : ∀ i ∈ is, ∀ u, view i u = view i w → ∃ u', f i u = .ok u') : ∃ w', sweep f is w = .ok w' := by
  induction is generalizing w with
  | nil => exact ⟨w, rfl⟩
  | cons i is ih =>
    obtain ⟨hi, hn⟩ := List.nodup_cons.1 hn
    obtain ⟨u, hu⟩ := h i (by simp) w rfl
    obtain ⟨w', hw'⟩ := ih hn (w := u) fun j hj v hv => by
      have hne : j ≠ i := fun hji => hi (hji ▸ hj)
      exact h j (by simp [hj]) v (hv.trans (hf i w u hu j hne))
    exact ⟨w', by simp [sweep, hu, hw']⟩

/-- Where each round changes only its own index's view, a loop raises the error of the first round that
raises on the view before it. -/
theorem sweep_raises {γ : Type} {f : Nat → Cycle → Except Err Cycle} {view : Nat → Cycle → γ}
    (hf : ∀ i w w', f i w = .ok w' → ∀ j, j ≠ i → view j w' = view j w) {before rest : List Nat} {i : Nat}
    (hn : (before ++ i :: rest).Nodup) {w : Cycle} {e : Err}
    (h : ∀ j ∈ before, ∀ u, view j u = view j w → ∃ u', f j u = .ok u')
    (he : ∀ u, view i u = view i w → f i u = .error e) : sweep f (before ++ i :: rest) w = .error e := by
  induction before generalizing w with
  | nil => simp [sweep, he w rfl]
  | cons k before ih =>
    obtain ⟨hk, hn⟩ := List.nodup_cons.1 hn
    obtain ⟨u, hu⟩ := h k (by simp) w rfl
    have keep : ∀ j ∈ before ++ i :: rest, view j u = view j w := fun j hj =>
      hf k w u hu j fun hjk => hk (hjk ▸ hj)
    simp only [List.cons_append, sweep, hu, ok_bind]
    refine ih hn (fun j hj v hv => h j (by simp [hj]) v (hv.trans (keep j (by simp [hj])))) fun v hv => ?_
    exact he v (hv.trans (keep i (by simp)))

/-- Where a loop raises, one of its rounds does. -/
theorem sweep_error {f : Nat → Cycle → Except Err Cycle} {is : List Nat} {w : Cycle} {e : Err}
    (h : sweep f is w = .error e) : ∃ i ∈ is, ∃ u, f i u = .error e := by
  induction is generalizing w with
  | nil => cases h
  | cons i is ih =>
    simp only [sweep, bind_error_iff] at h
    rcases h with h | ⟨u, -, h⟩
    · exact ⟨i, by simp, w, h⟩
    · obtain ⟨j, hj, v, hv⟩ := ih h
      exact ⟨j, by simp [hj], v, hv⟩

/-! ### One module's part of a cycle -/

/-- All that the phases of a cycle read and write of module `i`. -/
structure ModuleView where
  ov : Option (List ChannelValue)
  write : Nat → Option ChannelValue
  seq : Option SeqState
  lastTx : Option Counter
  edge : Prop

def moduleView (i : Nat) (w : Cycle) : ModuleView :=
  ⟨w.ov[i]?, fun ch => mapGet w.write ⟨i, ch⟩, mapGet w.seq i, mapGet w.lastTx i, i ∈ w.edge⟩

theorem setChannel_length (ov : List (List ChannelValue)) (i ch : Nat) (v : ChannelValue) :
    (setChannel ov i ch v).length = ov.length := by
  simp [setChannel]

theorem getElem?_setChannel_self (ov : List (List ChannelValue)) (i ch : Nat) (v : ChannelValue) :
    (setChannel ov i ch v)[i]? = ov[i]?.map fun vs => vs.set ch v := by
  simp [setChannel]

theorem getElem?_setChannel_other {ov : List (List ChannelValue)} {i j ch : Nat}
    {v : ChannelValue} (h : j ≠ i) : (setChannel ov i ch v)[j]? = ov[j]? := by
  simp [setChannel, Ne.symm h]

/-- Phase 2's write on module `i` queues a pending `Bytes` value and consumes it, or finds none
(R150). -/
theorem tunnelWrite_ok_iff {cap : Option Nat} {i : Nat} {p : SeqState} {w w' : Cycle} :
    tunnelWrite cap i p w = .ok w' ↔
      (mapGet w.write ⟨i, 0⟩ = none ∧ w' = w) ∨
      ∃ bs q, mapGet w.write ⟨i, 0⟩ = some (.bytes bs) ∧ p.enqueue cap bs = .ok q ∧
        w' = { w with seq := mapSet natLt w.seq i q, write := mapRemove w.write ⟨i, 0⟩ } := by
  rw [tunnelWrite]
  cases h : mapGet w.write ⟨i, 0⟩ with
  | none => simp [eq_comm]
  | some v => cases v <;> simp [bind_ok_iff, eq_comm (a := w')]

/-- Phase 2's write on module `i` raises on a pending value that is not `Bytes`, and where the queue
cannot take the bytes (R127, R150). -/
theorem tunnelWrite_error_iff {cap : Option Nat} {i : Nat} {p : SeqState} {w : Cycle} {e : Err} :
    tunnelWrite cap i p w = .error e ↔ ∃ v, mapGet w.write ⟨i, 0⟩ = some v ∧
      match v with
      | .bytes bs => p.enqueue cap bs = .error e
      | _ => e = .channelValue := by
  rw [tunnelWrite]
  cases mapGet w.write ⟨i, 0⟩ with
  | none => simp
  | some v => cases v <;> simp [bind_error_iff, eq_comm (a := Err.channelValue)]

theorem tunnelWrite_error {cap : Option Nat} {i : Nat} {p : SeqState} {w : Cycle} {e : Err}
    (h : tunnelWrite cap i p w = .error e) : e = .channelValue ∨ e = .bufferLength := by
  simp only [tunnelWrite] at h
  split at h
  · cases h
  · simp only [bind_error_iff, enqueue_error_iff, reduceCtorEq, and_false, exists_false,
      or_false] at h
    exact .inr h.2
  · cases h
    exact .inl rfl

/-- Phase 2 on module `i` advances its instance, or leaves the cycle as it is (R146). -/
theorem tunnelStep_ok_iff {params : Params} {iv : List (List ChannelValue)} {i : Nat}
    {w w' : Cycle} :
    tunnelStep params iv i w = .ok w' ↔
      (∃ p fi fo q fo', mapGet w.seq i = some p ∧ tunnelFrames iv w.ov i = some (fi, fo) ∧
        p.advance params.inBufCap fi fo = .ok (q, fo') ∧
        tunnelWrite params.outQCap i q (txEdgeStep i fo' { w with
          seq := mapSet natLt w.seq i q, ov := setChannel w.ov i 0 (.tunnelOut fo') }) = .ok w') ∨
      ((mapGet w.seq i = none ∨ tunnelFrames iv w.ov i = none) ∧ w' = w) := by
  simp only [tunnelStep]
  cases h1 : mapGet w.seq i with
  | none => simp [eq_comm]
  | some p =>
    cases h2 : tunnelFrames iv w.ov i with
    | none => simp [eq_comm]
    | some f =>
      obtain ⟨fi, fo⟩ := f
      simp [bind_ok_iff]

/-- Phase 2 on module `i` raises where its instance's advance raises, and where its write does after the
advance (R146, R154). -/
theorem tunnelStep_error_iff {params : Params} {iv : List (List ChannelValue)} {i : Nat} {w : Cycle}
    {e : Err} :
    tunnelStep params iv i w = .error e ↔
      ∃ p fi fo, mapGet w.seq i = some p ∧ tunnelFrames iv w.ov i = some (fi, fo) ∧
        (p.advance params.inBufCap fi fo = .error e ∨
          ∃ q fo', p.advance params.inBufCap fi fo = .ok (q, fo') ∧
            tunnelWrite params.outQCap i q (txEdgeStep i fo' { w with
              seq := mapSet natLt w.seq i q, ov := setChannel w.ov i 0 (.tunnelOut fo') }) =
                .error e) := by
  simp only [tunnelStep]
  cases mapGet w.seq i with
  | none => simp
  | some p =>
    cases tunnelFrames iv w.ov i with
    | none => simp
    | some f =>
      obtain ⟨fi, fo⟩ := f
      simp [bind_error_iff]

theorem tunnelStep_error {params : Params} {iv : List (List ChannelValue)} {i : Nat} {w : Cycle}
    {e : Err} (h : tunnelStep params iv i w = .error e) : e = .channelValue ∨ e = .bufferLength := by
  simp only [tunnelStep] at h
  split at h
  · simp only [bind_error_iff] at h
    rcases h with h | ⟨_, -, h⟩
    · exact .inr (advance_error h).1
    · exact tunnelWrite_error h
  · cases h

/-- Phase 3 on one channel applies its pending value, or finds none (R151). -/
theorem channelStep_ok_iff {i ch : Nat} {w w' : Cycle} :
    channelStep i ch w = .ok w' ↔
      (mapGet w.write ⟨i, ch⟩ = none ∧ w' = w) ∨
      ∃ v, mapGet w.write ⟨i, ch⟩ = some v ∧ ch < (w.ov.getD i []).length ∧
        w' = { w with ov := setChannel w.ov i ch v, write := mapRemove w.write ⟨i, ch⟩ } := by
  rw [channelStep]
  cases mapGet w.write ⟨i, ch⟩ with
  | none => simp [eq_comm]
  | some v =>
    by_cases h : ch < (w.ov.getD i []).length
    · simp only [ge_iff_le, Nat.not_le.2 h, if_false, h, true_and, Except.ok.injEq,
        Option.some.injEq, exists_eq_left', reduceCtorEq, false_and, false_or]
      exact eq_comm
    · simp only [ge_iff_le, Nat.not_lt.1 h, if_true, h, false_and, and_false, exists_false,
        reduceCtorEq, or_self]

/-- Phase 3 on one channel raises where the channel has a pending value and no decoded one (R151). -/
theorem channelStep_error_iff {i ch : Nat} {w : Cycle} {e : Err} :
    channelStep i ch w = .error e ↔
      (∃ v, mapGet w.write ⟨i, ch⟩ = some v) ∧ (w.ov.getD i []).length ≤ ch ∧ e = .channelValue := by
  rw [channelStep]
  cases mapGet w.write ⟨i, ch⟩ with
  | none => simp
  | some v =>
    by_cases h : (w.ov.getD i []).length ≤ ch
    · simp only [ge_iff_le, h, if_true, Except.error.injEq, Option.some.injEq, exists_eq',
        true_and, eq_comm]
    · simp only [ge_iff_le, h, if_false, reduceCtorEq, false_and, and_false]

theorem channelStep_error {i ch : Nat} {w : Cycle} {e : Err} (h : channelStep i ch w = .error e) :
    e = .channelValue := by
  rw [channelStep] at h
  split at h
  · cases h
  · split at h <;> cases h
    rfl

/-- Phase 3 on module `i` goes over its channels, or leaves the cycle as it is (R148, R151). -/
theorem plainStep_eq {C : Codecs} {modules : List CodecInst} {i : Nat} {w : Cycle} :
    plainStep C modules i w =
      match mapGet w.seq i, modules[i]? with
      | none, some c => sweep (channelStep i) (List.range (C.channelCount c)) w
      | _, _ => .ok w := rfl

theorem plainStep_error {C : Codecs} {modules : List CodecInst} {i : Nat} {w : Cycle} {e : Err}
    (h : plainStep C modules i w = .error e) : e = .channelValue := by
  rw [plainStep_eq] at h
  split at h
  · obtain ⟨_, -, _, h⟩ := sweep_error h
    exact channelStep_error h
  · cases h

/-- What every channel's round keeps, phase 3 keeps. -/
theorem plainStep_keeps {C : Codecs} {modules : List CodecInst} {i : Nat} {P : Cycle → Prop}
    (hf : ∀ ch w w', channelStep i ch w = .ok w' → P w → P w') {w w' : Cycle}
    (h : plainStep C modules i w = .ok w') (hw : P w) : P w' := by
  rw [plainStep_eq] at h
  split at h
  · exact sweep_keeps (fun ch _ => hf ch) h hw
  · cases h
    exact hw

/-- Phase 2 on module `i` touches no other module. -/
theorem tunnelStep_local {params : Params} {iv : List (List ChannelValue)} {i : Nat} {w w' : Cycle}
    (h : tunnelStep params iv i w = .ok w') {j : Nat} (hj : j ≠ i) :
    moduleView j w' = moduleView j w := by
  have hw : ∀ ch, (⟨j, ch⟩ : Address) ≠ ⟨i, 0⟩ := fun ch h => hj (by cases h; rfl)
  rcases tunnelStep_ok_iff.1 h with ⟨p, fi, fo, q, fo', -, -, -, h⟩ | ⟨-, rfl⟩
  · have hv : moduleView j (txEdgeStep i fo' { w with
        seq := mapSet natLt w.seq i q, ov := setChannel w.ov i 0 (.tunnelOut fo') }) =
        moduleView j w := by
      simp only [moduleView, txEdgeStep, getElem?_setChannel_other hj,
        mapGet_mapSet_other natLt _ _ _ _ hj, ModuleView.mk.injEq, true_and, eq_iff_iff]
      split
      · split <;> simp [hj]
      · rfl
    rw [← hv]
    rcases tunnelWrite_ok_iff.1 h with ⟨-, rfl⟩ | ⟨bs, q', -, -, rfl⟩
    · rfl
    · simp [moduleView, mapGet_mapSet_other natLt _ _ _ _ hj, mapGet_mapRemove, hw]
  · rfl

/-- Phase 3 on one channel of module `i` touches no other module. -/
theorem channelStep_local {i ch : Nat} {w w' : Cycle} (h : channelStep i ch w = .ok w') {j : Nat}
    (hj : j ≠ i) : moduleView j w' = moduleView j w := by
  have hw : ∀ c, (⟨j, c⟩ : Address) ≠ ⟨i, ch⟩ := fun c h => hj (by cases h; rfl)
  rcases channelStep_ok_iff.1 h with ⟨-, rfl⟩ | ⟨v, -, -, rfl⟩
  · rfl
  · simp [moduleView, getElem?_setChannel_other hj, mapGet_mapRemove, hw]

theorem plainStep_local {C : Codecs} {modules : List CodecInst} {i : Nat} {w w' : Cycle}
    (h : plainStep C modules i w = .ok w') {j : Nat} (hj : j ≠ i) :
    moduleView j w' = moduleView j w :=
  plainStep_keeps (P := fun u => moduleView j u = moduleView j w)
    (fun _ _ _ hu hP => (channelStep_local hu hj).trans hP) h rfl

/-- Phase 3 touches neither instances nor transmit counts nor edges. -/
theorem plainStep_frame {C : Codecs} {modules : List CodecInst} {i : Nat} {w w' : Cycle}
    (h : plainStep C modules i w = .ok w') :
    w'.seq = w.seq ∧ w'.lastTx = w.lastTx ∧ w'.edge = w.edge := by
  refine plainStep_keeps (P := fun u => u.seq = w.seq ∧ u.lastTx = w.lastTx ∧ u.edge = w.edge)
    (fun ch u u' hu hP => ?_) h ⟨rfl, rfl, rfl⟩
  rcases channelStep_ok_iff.1 hu with ⟨-, rfl⟩ | ⟨v, -, -, rfl⟩ <;> exact hP

/-- The cycle keeps the number of modules with output values. -/
theorem tunnelStep_ov_length {params : Params} {iv : List (List ChannelValue)} {i : Nat}
    {w w' : Cycle} (h : tunnelStep params iv i w = .ok w') : w'.ov.length = w.ov.length := by
  rcases tunnelStep_ok_iff.1 h with ⟨p, fi, fo, q, fo', -, -, -, h⟩ | ⟨-, rfl⟩
  · rcases tunnelWrite_ok_iff.1 h with ⟨-, rfl⟩ | ⟨bs, q', -, -, rfl⟩ <;>
      simp [setChannel_length]
  · rfl

theorem plainStep_ov_length {C : Codecs} {modules : List CodecInst} {i : Nat} {w w' : Cycle}
    (h : plainStep C modules i w = .ok w') : w'.ov.length = w.ov.length :=
  plainStep_keeps (P := fun u => u.ov.length = w.ov.length) (fun ch u u' hu hP => by
    rcases channelStep_ok_iff.1 hu with ⟨-, rfl⟩ | ⟨v, -, -, rfl⟩
    · exact hP
    · simpa [setChannel_length] using hP) h rfl

/-- All that phase 3 reads and writes of one channel of module `i`: its value, its pending write, and
how many values the module has. -/
def channelView (i ch : Nat) (w : Cycle) : Option ChannelValue × Option ChannelValue × Nat :=
  ((w.ov.getD i [])[ch]?, mapGet w.write ⟨i, ch⟩, (w.ov.getD i []).length)

theorem getD_setChannel_self (ov : List (List ChannelValue)) (i ch : Nat) (v : ChannelValue) :
    (setChannel ov i ch v).getD i [] = (ov.getD i []).set ch v := by
  rw [List.getD_eq_getElem?_getD, List.getD_eq_getElem?_getD, getElem?_setChannel_self]
  cases ov[i]? <;> simp

/-- Phase 3 on one channel touches no other channel of the module. -/
theorem channelStep_channelView {i ch : Nat} {w w' : Cycle} (h : channelStep i ch w = .ok w')
    {j : Nat} (hj : j ≠ ch) : channelView i j w' = channelView i j w := by
  have hw : (⟨i, j⟩ : Address) ≠ ⟨i, ch⟩ := fun h => hj (by cases h; rfl)
  rcases channelStep_ok_iff.1 h with ⟨-, rfl⟩ | ⟨v, -, -, rfl⟩
  · rfl
  · simp only [channelView, getD_setChannel_self, List.length_set, mapGet_mapRemove, if_neg hw,
      List.getElem?_set_ne (Ne.symm hj)]

/-- Phase 3 on all channels of a module: every pending write of a channel is applied and consumed, and
nothing else changes (R151). -/
theorem channels_ok {i n : Nat} {w w' : Cycle}
    (h : sweep (channelStep i) (List.range n) w = .ok w') (ch : Nat) :
    if ch < n then
      mapGet w'.write ⟨i, ch⟩ = none ∧
        match mapGet w.write ⟨i, ch⟩ with
        | some v => (w'.ov.getD i [])[ch]? = some v ∧ ch < (w.ov.getD i []).length
        | none => (w'.ov.getD i [])[ch]? = (w.ov.getD i [])[ch]?
    else (w'.ov.getD i [])[ch]? = (w.ov.getD i [])[ch]? ∧
      mapGet w'.write ⟨i, ch⟩ = mapGet w.write ⟨i, ch⟩ := by
  obtain ⟨h1, h2⟩ := sweep_local (view := channelView i)
    (fun c u u' hu j hj => channelStep_channelView hu hj) List.nodup_range h
  split
  · rename_i hch
    obtain ⟨u, u', hu, e1, e2⟩ := h2 ch (List.mem_range.2 hch)
    simp only [channelView, Prod.mk.injEq] at e1 e2
    obtain ⟨a1, a2, a3⟩ := e1
    obtain ⟨b1, b2, -⟩ := e2
    rw [b1, b2, ← a1, ← a2, ← a3]
    rcases channelStep_ok_iff.1 hu with ⟨hn, rfl⟩ | ⟨v, hv, hl, rfl⟩
    · exact ⟨hn, by rw [hn]⟩
    · rw [hv]
      exact ⟨by simp [mapGet_mapRemove],
        by rw [getD_setChannel_self]; exact List.getElem?_set_self hl, hl⟩
  · rename_i hch
    have := h1 ch (by simpa using hch)
    simp only [channelView, Prod.mk.injEq] at this
    exact ⟨this.1, this.2.1⟩

/-- Phase 3 on a module completes where every pending write of its channels has a value to replace. -/
theorem channels_complete {i n : Nat} {w : Cycle}
    (h : ∀ ch < n, ∀ v, mapGet w.write ⟨i, ch⟩ = some v → ch < (w.ov.getD i []).length) :
    ∃ w', sweep (channelStep i) (List.range n) w = .ok w' := by
  refine sweep_completes (view := channelView i)
    (fun c u u' hu j hj => channelStep_channelView hu hj) List.nodup_range fun ch hch u hu => ?_
  simp only [channelView, Prod.mk.injEq] at hu
  obtain ⟨-, a2, a3⟩ := hu
  cases hv : mapGet u.write ⟨i, ch⟩ with
  | none => exact ⟨u, channelStep_ok_iff.2 (.inl ⟨hv, rfl⟩)⟩
  | some v =>
    refine ⟨_, channelStep_ok_iff.2 (.inr ⟨v, hv, ?_, rfl⟩)⟩
    rw [a3]
    exact h ch (List.mem_range.1 hch) v (a2 ▸ hv)

/-- Phase 3 on a module with a pending value past its decoded ones raises (R151). -/
theorem channels_raise {i n ch : Nat} {v : ChannelValue} {w : Cycle} (hch : ch < n)
    (hv : mapGet w.write ⟨i, ch⟩ = some v) (hl : (w.ov.getD i []).length ≤ ch) :
    sweep (channelStep i) (List.range n) w = .error .channelValue := by
  cases h : sweep (channelStep i) (List.range n) w with
  | ok w' =>
    have := channels_ok h ch
    rw [if_pos hch, hv] at this
    exact absurd this.2.2 (Nat.not_lt.2 hl)
  | error e =>
    obtain ⟨_, -, _, h⟩ := sweep_error h
    rw [channelStep_error h]

/-! ### The cycle -/

/-- Phase 1 decodes both images, the input image first (R145). -/
theorem cyclePhase1_ok_iff {s : State} {pin pout : List Word16}
    {r : List (List ChannelValue) × List (List ChannelValue)} :
    cyclePhase1 s pin pout = .ok r ↔
      decodeInputs s.codecs (s.modules.zip s.offsets) 0x0000 pin = .ok r.1 ∧
      decodeOutputs s.codecs (s.modules.zip s.offsets) 0x0800 pout = .ok r.2 := by
  obtain ⟨iv, ov⟩ := r
  simp only [cyclePhase1, bind_ok_iff, Config.inBase, Config.outBase]
  constructor
  · rintro ⟨iv', h1, ov', h2, h⟩
    cases h
    exact ⟨h1, h2⟩
  · rintro ⟨h1, h2⟩
    exact ⟨iv, h1, ov, h2, rfl⟩

/-- Everything CPL_NEXT does when it succeeds (R144, R147). -/
theorem cplNext_ok_iff {pin pout : List Word16} {s t : State} {r : Result} :
    cplNext pin pout s = .ok (t, r) ↔ ∃ iv ov w1 w2 regs,
      decodeInputs s.codecs (s.modules.zip s.offsets) 0x0000 pin = .ok iv ∧
      decodeOutputs s.codecs (s.modules.zip s.offsets) 0x0800 pout = .ok ov ∧
      sweep (tunnelStep s.params iv) (List.range s.modules.length) (s.staged ov) = .ok w1 ∧
      sweep (plainStep s.codecs s.modules) (List.range s.modules.length) w1 = .ok w2 ∧
      cyclePhase4 s w2.ov = .ok regs ∧
      t = { s with
        inValues := iv, outValues := w2.ov, write := w2.write, seq := w2.seq
        lastTxCnt := w2.lastTx, txEdge := w2.edge } ∧
      r = .cycle regs w2.edge := by
  simp only [cplNext, bind_ok_iff, cyclePhase1_ok_iff]
  constructor
  · rintro ⟨⟨iv, ov⟩, ⟨h1, h2⟩, w1, h3, w2, h4, regs, h5, h⟩
    cases h
    exact ⟨iv, ov, w1, w2, regs, h1, h2, h3, h4, h5, rfl, rfl⟩
  · rintro ⟨iv, ov, w1, w2, regs, h1, h2, h3, h4, h5, rfl, rfl⟩
    exact ⟨(iv, ov), ⟨h1, h2⟩, w1, h3, w2, h4, regs, h5, rfl⟩

/-- CPL_NEXT raises in phases 2 to 4 exactly as R154 orders them, both images decoding. -/
theorem cplNext_error_of_decodes {pin pout : List Word16} {s : State} {iv ov : List (List ChannelValue)}
    {e : Err} (hi : decodeInputs s.codecs (s.modules.zip s.offsets) 0x0000 pin = .ok iv)
    (ho : decodeOutputs s.codecs (s.modules.zip s.offsets) 0x0800 pout = .ok ov) :
    cplNext pin pout s = .error e ↔
      sweep (tunnelStep s.params iv) (List.range s.modules.length) (s.staged ov) = .error e ∨
      ∃ w1, sweep (tunnelStep s.params iv) (List.range s.modules.length) (s.staged ov) = .ok w1 ∧
        (sweep (plainStep s.codecs s.modules) (List.range s.modules.length) w1 = .error e ∨
          ∃ w2, sweep (plainStep s.codecs s.modules) (List.range s.modules.length) w1 = .ok w2 ∧
            cyclePhase4 s w2.ov = .error e) := by
  have h1 : cyclePhase1 s pin pout = .ok (iv, ov) := cyclePhase1_ok_iff.2 ⟨hi, ho⟩
  simp [cplNext, h1, bind_error_iff]

/-- The five places CPL_NEXT can raise (R154). -/
theorem cplNext_error {pin pout : List Word16} {s : State} {e : Err}
    (h : cplNext pin pout s = .error e) :
    decodeInputs s.codecs (s.modules.zip s.offsets) 0x0000 pin = .error e ∨
    decodeOutputs s.codecs (s.modules.zip s.offsets) 0x0800 pout = .error e ∨
    (∃ iv i u, tunnelStep s.params iv i u = .error e) ∨
    (∃ i u, plainStep s.codecs s.modules i u = .error e) ∨ ∃ ov, cyclePhase4 s ov = .error e := by
  simp only [cplNext, cyclePhase1, bind_error_iff, reduceCtorEq, and_false, exists_false,
    or_false] at h
  rcases h with (h | ⟨_, -, h⟩) | ⟨⟨iv, ov⟩, -, h | ⟨w1, -, h | ⟨w2, -, h⟩⟩⟩
  · exact .inl h
  · exact .inr (.inl h)
  · obtain ⟨i, -, u, hu⟩ := sweep_error h
    exact .inr (.inr (.inl ⟨iv, i, u, hu⟩))
  · obtain ⟨i, -, u, hu⟩ := sweep_error h
    exact .inr (.inr (.inr (.inl ⟨i, u, hu⟩)))
  · exact .inr (.inr (.inr (.inr ⟨w2.ov, h⟩)))

/-- Phase 2 touches the pool only at keys it holds. -/
theorem tunnelStep_seq_isSome {params : Params} {iv : List (List ChannelValue)} {i : Nat}
    {w w' : Cycle} (h : tunnelStep params iv i w = .ok w') (k : Nat) :
    (mapGet w'.seq k).isSome = (mapGet w.seq k).isSome := by
  by_cases hk : k = i
  · subst hk
    rcases tunnelStep_ok_iff.1 h with ⟨p, fi, fo, q, fo', hp, -, -, h⟩ | ⟨-, rfl⟩
    · rcases tunnelWrite_ok_iff.1 h with ⟨-, rfl⟩ | ⟨bs, q', -, -, rfl⟩ <;> simp [hp]
    · rfl
  · have := congrArg ModuleView.seq (tunnelStep_local h hk)
    simp only [moduleView] at this
    rw [this]

end Sys2Proof.Machine
end

