-- ==== Sys2Proof/Laws/Decode.lean ====
section
/-! SUPPORT. The readers and writers of operand fields: each reader reads back what its writer wrote,
and reads nothing else. -/

namespace Sys2Proof

open Sys2Proof.Machine

/-- A reader and a writer of one field that invert each other: what is written is read, whatever
follows it, and what is read was written. -/
structure FieldCodec {α : Type} (take : List Nat → Except Reject (α × List Nat))
    (put : α → List Nat) : Prop where
  reads : ∀ a ts, take (put a ++ ts) = .ok (a, ts)
  wrote : ∀ ts a rest, take ts = .ok (a, rest) → ts = put a ++ rest

theorem takeNat_codec : FieldCodec takeNat fun n => [n] where
  reads _ _ := rfl
  wrote := by
    intro ts a rest h
    cases ts with
    | nil => cases h
    | cons n ts => cases h; rfl

theorem takeBits_codec (w : Nat) : FieldCodec (takeBits w) putBits where
  reads v ts := by simp [takeBits, putBits, takeNat, v.isLt]
  wrote := by
    intro ts a rest h
    cases ts with
    | nil => cases h
    | cons n ts =>
      simp only [takeBits, takeNat, ok_bind] at h
      split at h
      · rename_i hn
        cases h
        simp [putBits, Nat.mod_eq_of_lt hn]
      · cases h

theorem takeBool_codec : FieldCodec takeBool putBool where
  reads b ts := by cases b <;> rfl
  wrote := by
    intro ts a rest h
    match ts, h with
    | 0 :: ts, h => cases h; rfl
    | 1 :: ts, h => cases h; rfl

theorem takeMany_reads {α : Type} {take : List Nat → Except Reject (α × List Nat)}
    {put : α → List Nat} (c : FieldCodec take put) (as : List α) (ts : List Nat) :
    takeMany take as.length (as.flatMap put ++ ts) = .ok (as, ts) := by
  induction as with
  | nil => rfl
  | cons a as ih => simp [takeMany, List.append_assoc, c.reads, ih]

theorem takeMany_wrote {α : Type} {take : List Nat → Except Reject (α × List Nat)}
    {put : α → List Nat} (c : FieldCodec take put) {n : Nat} {ts rest : List Nat} {as : List α}
    (h : takeMany take n ts = .ok (as, rest)) : as.length = n ∧ ts = as.flatMap put ++ rest := by
  induction n generalizing ts as with
  | zero => cases h; exact ⟨rfl, rfl⟩
  | succ n ih =>
    simp only [takeMany, bind_ok_iff, Prod.exists] at h
    obtain ⟨a, ts', ha, as', ts'', has, h⟩ := h
    cases h
    obtain ⟨hl, rfl⟩ := ih has
    exact ⟨by simp [hl], by simp [c.wrote _ _ _ ha]⟩

theorem takeList_codec {α : Type} {take : List Nat → Except Reject (α × List Nat)}
    {put : α → List Nat} (c : FieldCodec take put) : FieldCodec (takeList take) (putList put) where
  reads as ts := by simp [takeList, putList, takeNat, takeMany_reads c]
  wrote := by
    intro ts as rest h
    cases ts with
    | nil => cases h
    | cons n ts =>
      simp only [takeList, takeNat, ok_bind] at h
      obtain ⟨rfl, rfl⟩ := takeMany_wrote c h
      simp [putList]

theorem takeOption_codec {α : Type} {take : List Nat → Except Reject (α × List Nat)}
    {put : α → List Nat} (c : FieldCodec take put) :
    FieldCodec (takeOption take) (putOption put) where
  reads a ts := by
    cases a <;> simp [takeOption, putOption, takeBool, takeNat, c.reads]
  wrote := by
    intro ts a rest h
    simp only [takeOption, bind_ok_iff, Prod.exists] at h
    obtain ⟨b, ts', hb, h⟩ := h
    have := takeBool_codec.wrote _ _ _ hb
    subst this
    cases b with
    | false => cases h; rfl
    | true =>
      simp only [if_true, bind_ok_iff, Prod.exists] at h
      obtain ⟨x, ts'', hx, h⟩ := h
      cases h
      simp [putOption, putBool, c.wrote _ _ _ hx]

/-- Two fields in a row. -/
theorem takePair_codec {α β γ : Type} {takeA : List Nat → Except Reject (α × List Nat)}
    {takeB : List Nat → Except Reject (β × List Nat)} {putA : α → List Nat} {putB : β → List Nat}
    (ca : FieldCodec takeA putA) (cb : FieldCodec takeB putB) (make : α → β → γ) (fst : γ → α)
    (snd : γ → β) (h1 : ∀ c, make (fst c) (snd c) = c) (h2 : ∀ a b, fst (make a b) = a)
    (h3 : ∀ a b, snd (make a b) = b) :
    FieldCodec (fun ts => takeA ts >>= fun x => takeB x.2 >>= fun y => .ok (make x.1 y.1, y.2))
      fun c => putA (fst c) ++ putB (snd c) where
  reads c ts := by simp [List.append_assoc, ca.reads, cb.reads, h1]
  wrote := by
    intro ts c rest h
    simp only [bind_ok_iff, Prod.exists] at h
    obtain ⟨a, ts', ha, b, ts'', hb, h⟩ := h
    cases h
    simp [h2, h3, ca.wrote _ _ _ ha, cb.wrote _ _ _ hb]

theorem takeOffset_codec : FieldCodec takeOffset putOffset :=
  takePair_codec (takeOption_codec (takeBits_codec 16)) (takeOption_codec (takeBits_codec 16))
    ModuleOffset.mk ModuleOffset.input ModuleOffset.output (fun _ => rfl) (fun _ _ => rfl)
    fun _ _ => rfl

theorem takeCodec_codec : FieldCodec takeCodec fun c => [c.handle] where
  reads _ _ := rfl
  wrote := by
    intro ts a rest h
    cases ts with
    | nil => cases h
    | cons n ts => cases h; rfl

theorem takeType_codec : FieldCodec takeType fun t => [t.handle] where
  reads _ _ := rfl
  wrote := by
    intro ts a rest h
    cases ts with
    | nil => cases h
    | cons n ts => cases h; rfl

theorem takeMod_codec : FieldCodec takeMod putMod :=
  takePair_codec takeCodec_codec takeOffset_codec Prod.mk Prod.fst Prod.snd (fun _ => rfl)
    (fun _ _ => rfl) fun _ _ => rfl

theorem takeAddress_codec : FieldCodec takeAddress putAddress :=
  takePair_codec takeNat_codec takeNat_codec Address.mk Address.module Address.channel
    (fun _ => rfl) (fun _ _ => rfl) fun _ _ => rfl

theorem takeFrameIn_codec : FieldCodec takeFrameIn putFrameIn where
  reads f ts := by
    simp [takeFrameIn, putFrameIn, List.append_assoc, takeBool_codec.reads,
      (takeBits_codec 8).reads, (takeList_codec (takeBits_codec 8)).reads]
  wrote := by
    intro ts a rest h
    simp only [takeFrameIn, bind_ok_iff, Prod.exists] at h
    obtain ⟨b1, t1, h1, b2, t2, h2, b3, t3, h3, c1, t4, h4, c2, t5, h5, d, t6, h6, h⟩ := h
    cases h
    simp [putFrameIn, takeBool_codec.wrote _ _ _ h1, takeBool_codec.wrote _ _ _ h2,
      takeBool_codec.wrote _ _ _ h3, (takeBits_codec 8).wrote _ _ _ h4,
      (takeBits_codec 8).wrote _ _ _ h5, (takeList_codec (takeBits_codec 8)).wrote _ _ _ h6]

theorem takeFrameOut_codec : FieldCodec takeFrameOut putFrameOut where
  reads f ts := by
    simp [takeFrameOut, putFrameOut, List.append_assoc, takeBool_codec.reads,
      (takeBits_codec 8).reads, (takeList_codec (takeBits_codec 8)).reads]
  wrote := by
    intro ts a rest h
    simp only [takeFrameOut, bind_ok_iff, Prod.exists] at h
    obtain ⟨b1, t1, h1, b2, t2, h2, b3, t3, h3, b4, t4, h4, c1, t5, h5, c2, t6, h6, d, t7, h7, h⟩ := h
    cases h
    simp [putFrameOut, takeBool_codec.wrote _ _ _ h1, takeBool_codec.wrote _ _ _ h2,
      takeBool_codec.wrote _ _ _ h3, takeBool_codec.wrote _ _ _ h4,
      (takeBits_codec 8).wrote _ _ _ h5, (takeBits_codec 8).wrote _ _ _ h6,
      (takeList_codec (takeBits_codec 8)).wrote _ _ _ h7]

theorem takeValue_codec : FieldCodec takeValue putValue where
  reads v ts := by
    cases v <;>
      simp [takeValue, putValue, takeNat, takeBool_codec.reads, (takeBits_codec 32).reads,
        (takeList_codec (takeBits_codec 8)).reads, takeFrameIn_codec.reads, takeFrameOut_codec.reads]
  wrote := by
    intro ts a rest h
    cases ts with
    | nil => cases h
    | cons tag ts =>
      simp only [takeValue, takeNat, ok_bind] at h
      split at h
      all_goals try simp only [bind_ok_iff, Prod.exists] at h
      · cases h; rfl
      · obtain ⟨x, t, hx, h⟩ := h
        cases h
        simp [putValue, takeBool_codec.wrote _ _ _ hx]
      · obtain ⟨x, t, hx, h⟩ := h
        cases h
        simp [putValue, (takeBits_codec 32).wrote _ _ _ hx]
      · obtain ⟨x, t, hx, h⟩ := h
        cases h
        simp [putValue, (takeList_codec (takeBits_codec 8)).wrote _ _ _ hx]
      · obtain ⟨x, t, hx, h⟩ := h
        cases h
        simp [putValue, takeFrameIn_codec.wrote _ _ _ hx]
      · obtain ⟨x, t, hx, h⟩ := h
        cases h
        simp [putValue, takeFrameOut_codec.wrote _ _ _ hx]
      · obtain ⟨x, t, hx, h⟩ := h
        cases h
        simp [putValue, takeNat_codec.wrote _ _ _ hx]
      · cases h; rfl
      · split at h <;> cases h

/-- A tag from 8 to 15 is found wherever a value is read (R82, R180). -/
theorem takeValue_reserved {tag : Nat} (h : 8 ≤ tag) (h' : tag ≤ 15) (ts : List Nat) :
    takeValue (tag :: ts) = .error .reservedTag := by
  simp only [takeValue, takeNat, ok_bind]
  split <;> first | omega | simp [show tag < 16 by omega]

/-- A list reader stops at the first element its element reader rejects. -/
theorem takeMany_error {α : Type} {take : List Nat → Except Reject (α × List Nat)}
    {put : α → List Nat} (c : FieldCodec take put) (as : List α) (n : Nat) (hn : as.length < n)
    (ts : List Nat) (e : Reject) (h : take ts = .error e) :
    takeMany take n (as.flatMap put ++ ts) = .error e := by
  induction as generalizing n with
  | nil =>
    cases n with
    | zero => simp at hn
    | succ n => simp [takeMany, h]
  | cons a as ih =>
    cases n with
    | zero => simp at hn
    | succ n => simp [takeMany, List.append_assoc, c.reads, ih n (by simpa using hn)]

/-- The command word of an operation is its row's (R72). -/
theorem opcodeOfWord_commandWord (op : Opcode) : opcodeOfWord (commandWord op) = some op := by
  cases op <;> decide

/-- A word that names an operation is that operation's command word (R72). -/
theorem commandWord_of_opcodeOfWord {w : BitVec 8} {op : Opcode} (h : opcodeOfWord w = some op) :
    commandWord op = w := by
  have key : ∀ w : BitVec 8, (opcodeOfWord w).all fun op => commandWord op == w := by decide
  have := key w
  rw [h] at this
  simpa using this

/-- Where the decoder answers an instruction: its word names an operation, and the record is the whole
of its fields (R73, R83). -/
theorem decode_ok_iff {r : Request} {i : Instr} :
    decode r = .ok i ↔ ∃ op, opcodeOfWord r.word = some op ∧ takeOperands op r.operands = .ok (i, []) := by
  rw [decode]
  cases opcodeOfWord r.word with
  | none => simp
  | some op =>
    simp only [bind_ok_iff, Prod.exists, Option.some.injEq, exists_eq_left']
    constructor
    · rintro ⟨j, ts, hj, h⟩
      cases ts with
      | nil => cases h; exact hj
      | cons _ _ => cases h
    · intro h
      exact ⟨i, [], h, rfl⟩

end Sys2Proof
end

