-- ==== Sys2Proof/Laws/PerInstr.lean ====
section
/-! SUPPORT. The family of per-instruction lemmas: one statement about an instruction as syntax, and one
lemma per constructor. -/

namespace Sys2Proof.Laws.NotReserved

open Sys2Proof Sys2Proof.Machine

/-- The request an instruction is written as has the command word of its own operation, no reserved one
(R72, R73). -/
def Statement (i : Instr) : Prop := opcodeOfWord (encode i).word = some i.opcode

theorem baSplit (addr : Word16) : Statement (.baSplit addr) :=
  opcodeOfWord_commandWord _
theorem baJoin (register bit : Nat) : Statement (.baJoin register bit) :=
  opcodeOfWord_commandWord _
theorem baOffsets (flat : List Word16) : Statement (.baOffsets flat) :=
  opcodeOfWord_commandWord _
theorem baModlist (regs : List Word16) : Statement (.baModlist regs) :=
  opcodeOfWord_commandWord _
theorem mapDecodeIn (mods : List (CodecInst × ModuleOffset)) (baseAddr : Word16) (data : List Word16) :
    Statement (.mapDecodeIn mods baseAddr data) :=
  opcodeOfWord_commandWord _
theorem mapDecodeOut (mods : List (CodecInst × ModuleOffset)) (baseAddr : Word16) (data : List Word16) :
    Statement (.mapDecodeOut mods baseAddr data) :=
  opcodeOfWord_commandWord _
theorem mapEncode (mods : List (CodecInst × ModuleOffset)) (baseAddr : Word16) (values : List (List ChannelValue)) :
    Statement (.mapEncode mods baseAddr values) :=
  opcodeOfWord_commandWord _
theorem seqNew (key frameLen : Nat) : Statement (.seqNew key frameLen) :=
  opcodeOfWord_commandWord _
theorem seqNext (key : Nat) (input : FrameIn) (output : FrameOut) : Statement (.seqNext key input output) :=
  opcodeOfWord_commandWord _
theorem seqWrite (key : Nat) (bytes : List Byte) : Statement (.seqWrite key bytes) :=
  opcodeOfWord_commandWord _
theorem seqRead (key : Nat) : Statement (.seqRead key) :=
  opcodeOfWord_commandWord _
theorem cplNew (types : List ModuleType) (params : List (List Word16)) (offsets : List Word16) :
    Statement (.cplNew types params offsets) :=
  opcodeOfWord_commandWord _
theorem cplIsValidAddr (addr : Address) : Statement (.cplIsValidAddr addr) :=
  opcodeOfWord_commandWord _
theorem cplSetOutput (addr : Address) (value : ChannelValue) : Statement (.cplSetOutput addr value) :=
  opcodeOfWord_commandWord _
theorem cplNext (processInput processOutput : List Word16) :
    Statement (.cplNext processInput processOutput) :=
  opcodeOfWord_commandWord _
theorem cplInputs : Statement .cplInputs :=
  opcodeOfWord_commandWord _
theorem cplOutputs : Statement .cplOutputs :=
  opcodeOfWord_commandWord _
theorem cplReader (module : Nat) : Statement (.cplReader module) :=
  opcodeOfWord_commandWord _
theorem cplWriter (module : Nat) (bytes : List Byte) : Statement (.cplWriter module bytes) :=
  opcodeOfWord_commandWord _

end Sys2Proof.Laws.NotReserved
end

