-- ==== Sys2Proof/Laws/Sound.lean ====
section
/-! SUPPORT. A sequencer instance stays within the spec's bounds under every operation on it, and the
encode order is a sort of the module indices. -/

namespace Sys2Proof.Machine

theorem soundInstance_fresh (params : Params) (l : FrameLen) (d : Nat) :
    SoundInstance params (SeqState.fresh l d) where
  chunkSizes := by simp [SeqState.fresh]
  inDataFits := by simp [SeqState.fresh]
  outDataFits := by simp [SeqState.fresh]

/-- TX_STEP only takes a chunk off the queue. -/
theorem soundInstance_txStep {params : Params} {p : SeqState} (h : SoundInstance params p)
    (input : FrameIn) (output : FrameOut) :
    SoundInstance params (p.txStep input output).1 := by
  rcases txStep_cases p input output with ⟨chunk, rest, hp, -, he⟩ | ⟨-, he⟩ <;> rw [he]
  · refine ⟨fun c hc => h.chunkSizes c (by simp [hp, hc]), h.inDataFits, ?_⟩
    exact fits_mono h.outDataFits (by simp [hp])
  · exact h

/-- SEQ_NEXT keeps an instance within its bounds (R33, R127). -/
theorem soundInstance_advance {params : Params} {p q : SeqState} {input : FrameIn}
    {output out : FrameOut} (h : SoundInstance params p)
    (ha : p.advance params.inBufCap input output = .ok (q, out)) : SoundInstance params q := by
  rcases advance_ok_cases ha with ⟨-, rfl, -⟩ | ⟨-, rfl, -⟩ | ⟨-, hq, -⟩
  · exact ⟨h.chunkSizes, h.inDataFits, h.outDataFits⟩
  · exact ⟨h.chunkSizes, h.inDataFits, h.outDataFits⟩
  · have ht := soundInstance_txStep h input output
    rcases rxStep_ok_iff.1 hq with ⟨-, hf, rfl⟩ | ⟨-, rfl⟩
    · exact ⟨ht.chunkSizes, by simpa using hf, ht.outDataFits⟩
    · exact ht

/-- SEQ_WRITE keeps an instance within its bounds (R33, R123, R127). -/
theorem soundInstance_enqueue {params : Params} {p q : SeqState} {bytes : List Byte}
    (h : SoundInstance params p) (he : p.enqueue params.outQCap bytes = .ok q) :
    SoundInstance params q := by
  obtain ⟨hf, rfl⟩ := enqueue_ok_iff.1 he
  refine ⟨fun c hc => ?_, h.inDataFits, by simpa using hf⟩
  rcases List.mem_append.1 hc with hc | hc
  · exact h.chunkSizes c hc
  · exact chunks_bounds (userDataLen_pos _) hc

/-- SEQ_READ keeps an instance within its bounds. -/
theorem soundInstance_drain {params : Params} {p : SeqState} (h : SoundInstance params p) :
    SoundInstance params { p with inData := [] } :=
  ⟨h.chunkSizes, by simp, h.outDataFits⟩

/-- Writing one instance within its bounds keeps all of them within theirs. -/
theorem instances_mapSet {params : Params} {m : List (Nat × SeqState)} {k : Nat} {q : SeqState}
    (h : ∀ j p, mapGet m j = some p → SoundInstance params p) (hq : SoundInstance params q) :
    ∀ j p, mapGet (mapSet natLt m k q) j = some p → SoundInstance params p := by
  intro j p hp
  rw [mapGet_mapSet] at hp
  split at hp
  · cases hp
    exact hq
  · exact h j p hp

/-! ### The encode order -/

theorem encKeyLe_total (a b : Nat × Nat) : encKeyLe a b = true ∨ encKeyLe b a = true := by
  simp only [encKeyLe, Bool.or_eq_true, Bool.and_eq_true, decide_eq_true_eq]
  omega

theorem encKeyLe_trans {a b c : Nat × Nat} (h1 : encKeyLe a b = true) (h2 : encKeyLe b c = true) :
    encKeyLe a c = true := by
  simp only [encKeyLe, Bool.or_eq_true, Bool.and_eq_true, decide_eq_true_eq] at *
  omega

/-- `enc_order` holds every module index once (R38). -/
theorem encodeOrder_perm (offs : List ModuleOffset) :
    (encodeOrder offs).Perm (List.range offs.length) :=
  List.perm_insertionSort _ _

theorem encodeOrder_length (offs : List ModuleOffset) : (encodeOrder offs).length = offs.length := by
  simpa using (encodeOrder_perm offs).length_eq

theorem mem_encodeOrder {offs : List ModuleOffset} {i : Nat} :
    i ∈ encodeOrder offs ↔ i < offs.length := by
  rw [(encodeOrder_perm offs).mem_iff, List.mem_range]

/-- Taking the entries of two aligned lists in `enc_order` gives aligned lists (R152). -/
theorem filterMap_encodeOrder_length {α : Type} {offs : List ModuleOffset} {l : List α}
    (h : l.length = offs.length) :
    ((encodeOrder offs).filterMap fun j => l[j]?).length = offs.length := by
  have key : ∀ is : List Nat, (∀ i ∈ is, i < l.length) →
      (is.filterMap fun j => l[j]?).length = is.length := by
    intro is his
    induction is with
    | nil => rfl
    | cons i is ih =>
      have hi := his i (by simp)
      rw [List.filterMap_cons_some (List.getElem?_eq_getElem hi), List.length_cons, List.length_cons,
        ih fun j hj => his j (by simp [hj])]
  rw [key _ fun i hi => by rw [h]; exact mem_encodeOrder.1 hi, encodeOrder_length]

end Sys2Proof.Machine
end

