-- ==== Sys2Proof/Machine/AddressMap.lean ====
section
/-! DEFINITION. The station's register address map (20_memory.md R55, R56) and the requests of the
host's boot order (70_reset_and_hazards.md R184). The block itself never addresses a register (R46):
no step uses this file. R46 makes a register address 16 bits and does not say what an address of R47 or
R56 past 0xFFFF is (module 64's parameters on, or a long image): DESIGN CHOICE, addresses here are
unbounded naturals and a station has a register at each (assumption log 20). -/

namespace Sys2Proof.Machine

/-- `COUPLER_ID` (R55). The block neither reads nor writes it (R173). -/
def couplerId : Nat := 0x1000

/-- `COUPLER_STATUS` (R55). The block neither reads nor writes it (R173). -/
def couplerStatus : Nat := 0x100C

/-- `CURRENT_MODULE_LIST` (R55). -/
def currentModuleList : Nat := 0x2A00

/-- `MODULE_OFFSETS` (R55). -/
def moduleOffsets : Nat := 0x2B00

/-- `MODULE_PARAMETERS` (R55). -/
def moduleParameters : Nat := 0xC000

/-- PARAM_STRIDE (R8). -/
def paramStride : Nat := 256

/-- The register of element `k` of the input image (R47), unbounded (assumption log 20). -/
def inputImageAddr (k : Nat) : Nat := Config.inBase.toNat + k

/-- The register of element `k` of the output image (R47), unbounded (assumption log 20). -/
def outputImageAddr (k : Nat) : Nat := Config.outBase.toNat + k

/-- The first of module `i`'s parameter registers (R56); past 0xFFFF from module 64 on, where the model
keeps the sum as it is (DESIGN CHOICE, assumption log 20). -/
def paramAddr (i : Nat) : Nat := moduleParameters + paramStride * i

/-- The register of module `i`'s output offset (R56). -/
def outputOffsetAddr (i : Nat) : Nat := moduleOffsets + 2 * i

/-- The register of module `i`'s input offset (R56). -/
def inputOffsetAddr (i : Nat) : Nat := moduleOffsets + 2 * i + 1

/-- The register of bits [31:16] of module `i`'s type identifier (R56). -/
def idHighAddr (i : Nat) : Nat := currentModuleList + 2 * i

/-- The register of bits [15:0] of module `i`'s type identifier (R56). -/
def idLowAddr (i : Nat) : Nat := currentModuleList + 2 * i + 1

/-- `n` registers from `start` on, as the host reads them from a station, which has a register at every
natural address (DESIGN CHOICE, assumption log 20). -/
def readRegisters (station : Nat → Word16) (start n : Nat) : List Word16 :=
  (List.range n).map fun k => station (start + k)

/-- Boot step 1: the module list of `n` modules, to be turned into types (R184). -/
def bootModlist (station : Nat → Word16) (n : Nat) : Instr :=
  .baModlist (readRegisters station currentModuleList (2 * n))

/-- Boot steps 2 to 4: CPL_NEW with the types, `words i` parameter registers of each module i (how many
a codec reads is the codec's concern, R56) and the offset pairs (R184). -/
def bootNew (station : Nat → Word16) (words : Nat → Nat) (types : List ModuleType) : Instr :=
  let n := types.length
  .cplNew types ((List.range n).map fun i => readRegisters station (paramAddr i) (words i))
    (readRegisters station moduleOffsets (2 * n))

/-- Boot step 5: one cycle on images of the given lengths (R184, R189). -/
def bootCycle (station : Nat → Word16) (inLen outLen : Nat) : Instr :=
  .cplNext (readRegisters station (inputImageAddr 0) inLen)
    (readRegisters station (outputImageAddr 0) outLen)

end Sys2Proof.Machine
end

