-- ==== Sys2Proof/Machine/Assembler.lean ====
section
/-! DEFINITION. The assembler notation of command programs (30_encoding.md R84 to R86): mnemonics,
pseudo-operations, the text of a command and the encoding of a program. No step uses this file. -/

namespace Sys2Proof.Machine

/-- The mnemonics of R72. -/
def mnemonic : Opcode → String
  | .baSplit => "BA_SPLIT"
  | .baJoin => "BA_JOIN"
  | .baOffsets => "BA_OFFSETS"
  | .baModlist => "BA_MODLIST"
  | .mapDecodeIn => "MAP_DECODE_IN"
  | .mapDecodeOut => "MAP_DECODE_OUT"
  | .mapEncode => "MAP_ENCODE"
  | .seqNew => "SEQ_NEW"
  | .seqNext => "SEQ_NEXT"
  | .seqWrite => "SEQ_WRITE"
  | .seqRead => "SEQ_READ"
  | .cplNew => "CPL_NEW"
  | .cplIsValidAddr => "CPL_IS_VALID_ADDR"
  | .cplSetOutput => "CPL_SET_OUTPUT"
  | .cplNext => "CPL_NEXT"
  | .cplInputs => "CPL_INPUTS"
  | .cplOutputs => "CPL_OUTPUTS"
  | .cplReader => "CPL_READER"
  | .cplWriter => "CPL_WRITER"

/-! ### Pseudo-operations (R85) -/

/-- The select operand of the source's `decode` (R81). -/
inductive Select where
  | input
  | output
deriving DecidableEq, Repr

/-- `MAP_DECODE Input, m, b, d` and `MAP_DECODE Output, m, b, d` (R81, R85). -/
def mapDecodePseudo (sel : Select) (mods : List (CodecInst × ModuleOffset)) (baseAddr : Word16)
    (data : List Word16) : Instr :=
  match sel with
  | .input => .mapDecodeIn mods baseAddr data
  | .output => .mapDecodeOut mods baseAddr data

/-- `ABSENT` in an offset list (R85). -/
def absentLiteral : Word16 := Config.absent

/-- `BA(r, b)`; the assembler refuses it when `r > 0x0FFF` or `b > 15` (R85). -/
def baLiteral (r b : Nat) : Option Word16 :=
  if r > Config.maxRegister ∨ b > 15 then none else some (joinFields r b)

/-- The encoding of a command program: each command word followed by its operand record (R84). -/
def encodeProgram (is : List Instr) : List Request := is.map encode

/-! ### The text of a command (R84, R86) -/

/-- Items separated by a comma and a space. -/
def commaText : List String → String
  | [] => ""
  | [x] => x
  | x :: y :: rest => x ++ ", " ++ commaText (y :: rest)

/-- `[a, b, ...]`. -/
def listText {α : Type} (f : α → String) (as : List α) : String := "[" ++ commaText (as.map f) ++ "]"

/-- A record in braces. -/
def bracesText (items : List String) : String :=
  String.singleton (Char.ofNat 123) ++ commaText items ++ String.singleton (Char.ofNat 125)

def boolText (b : Bool) : String := if b then "true" else "false"

/-- A number in decimal. -/
def wordText {w : Nat} (v : BitVec w) : String := toString v.toNat

def addressText (a : Address) : String :=
  "(" ++ toString a.module ++ ", " ++ toString a.channel ++ ")"

def frameInText (f : FrameIn) : String :=
  "In" ++ bracesText ["data_available=" ++ boolText f.dataAvailable,
    "buffer_nearly_full=" ++ boolText f.bufferNearlyFull, "ready=" ++ boolText f.ready,
    "rx_cnt=" ++ wordText f.rxCnt, "tx_cnt_ack=" ++ wordText f.txCntAck,
    "data=" ++ listText wordText f.data]

def frameOutText (f : FrameOut) : String :=
  "Out" ++ bracesText ["active=" ++ boolText f.active, "reset=" ++ boolText f.reset,
    "rx_buf_flush=" ++ boolText f.rxBufFlush, "tx_buf_flush=" ++ boolText f.txBufFlush,
    "tx_cnt=" ++ wordText f.txCnt, "rx_cnt_ack=" ++ wordText f.rxCntAck,
    "data=" ++ listText wordText f.data]

/-- A channel value, written as its variant. -/
def valueText : ChannelValue → String
  | .none => "None"
  | .bit b => "Bit(" ++ boolText b ++ ")"
  | .decimal32 f => "Decimal32(" ++ wordText f ++ ")"
  | .bytes bs => "Bytes(" ++ listText wordText bs ++ ")"
  | .tunnelIn fi => "TunnelIn(" ++ frameInText fi ++ ")"
  | .tunnelOut fo => "TunnelOut(" ++ frameOutText fo ++ ")"
  | .freqSample x => "FreqSample(" ++ toString x.handle ++ ")"
  | .disabled => "Disabled"

/-- `BA(r, b)` or `ABSENT`. -/
def offsetText : Option BitAddress → String
  | none => "ABSENT"
  | some a => "BA(" ++ wordText (registerOf a) ++ "," ++ wordText (bitOf a) ++ ")"

/-- A codec instance by the name given for it, and its offsets (R86). -/
def modText (codecName : CodecInst → String) (m : CodecInst × ModuleOffset) : String :=
  "(" ++ codecName m.1 ++ "," ++
    bracesText ["in=" ++ offsetText m.2.input, "out=" ++ offsetText m.2.output] ++ ")"

/-- The operands of a command, in the order of R72. Codecs and types are written by the names given
for them (R86). -/
def operandTexts (codecName : CodecInst → String) (typeName : ModuleType → String) :
    Instr → List String
  | .baSplit addr => [wordText addr]
  | .baJoin register bit => [toString register, toString bit]
  | .baOffsets flat => [listText wordText flat]
  | .baModlist regs => [listText wordText regs]
  | .mapDecodeIn mods baseAddr data =>
    [listText (modText codecName) mods, wordText baseAddr, listText wordText data]
  | .mapDecodeOut mods baseAddr data =>
    [listText (modText codecName) mods, wordText baseAddr, listText wordText data]
  | .mapEncode mods baseAddr values =>
    [listText (modText codecName) mods, wordText baseAddr, listText (listText valueText) values]
  | .seqNew key frameLen => [toString key, toString frameLen]
  | .seqNext key input output => [toString key, frameInText input, frameOutText output]
  | .seqWrite key bytes => [toString key, listText wordText bytes]
  | .seqRead key => [toString key]
  | .cplNew types params offsets =>
    [listText typeName types, listText (listText wordText) params, listText wordText offsets]
  | .cplIsValidAddr addr => [addressText addr]
  | .cplSetOutput addr value => [addressText addr, valueText value]
  | .cplNext processInput processOutput => [listText wordText processInput, listText wordText processOutput]
  | .cplInputs => []
  | .cplOutputs => []
  | .cplReader module => [toString module]
  | .cplWriter module bytes => [toString module, listText wordText bytes]

/-- `MNEMONIC op1, op2, ...` (R84). -/
def commandText (codecName : CodecInst → String) (typeName : ModuleType → String) (i : Instr) :
    String :=
  match operandTexts codecName typeName i with
  | [] => mnemonic i.opcode
  | ops => mnemonic i.opcode ++ " " ++ commaText ops

end Sys2Proof.Machine
end

