-- ==== Sys2Proof/Tests/Slice0.lean ====
section
/-! SUPPORT. The model's own tests. Expected results are those of 95_test_vectors.md, named in each
comment, or computed by hand from the rule named. The last section shows, for each statement with
hypotheses, a state and operands that meet them. -/

namespace Sys2Proof.Tests

open Sys2Proof Sys2Proof.Machine Sys2Proof.Claims

/-! ### Helpers -/

/-- The response of one operation. -/
def answer (s : State) (i : Instr) : Option Response :=
  match exec i s with
  | .next t => t.response
  | _ => none

/-- One field of the state after one operation. -/
def after {α : Type} (s : State) (i : Instr) (field : State → α) : Option α :=
  match exec i s with
  | .next t => some (field t)
  | _ => none

/-- The response of one step on one request. -/
def stepAnswer (s : State) (r : Request) : Option Response :=
  match step { s with commandPort := [r] } with
  | .next t => t.response
  | _ => none

/-- Power-on with the fixture family. -/
def sF : State := { State.reset with params := ⟨.fixture, none, none⟩ }

def di4 : CodecInst := Fixture.inst .di4
def do4 : CodecInst := Fixture.inst .do4
def di8 : CodecInst := Fixture.inst .di8
def raw (n : Fin 5) : CodecInst := Fixture.inst (.raw n)
def tun8 : CodecInst := Fixture.inst (.tun .len8)
def atIn (a : BitAddress) : ModuleOffset := ⟨some a, none⟩
def atOut (a : BitAddress) : ModuleOffset := ⟨none, some a⟩

/-- The frames of 30_encoding.md R84 with no field written. -/
def fi0 : FrameIn := ⟨false, false, false, 0, 0, []⟩
def fo0 : FrameOut := ⟨false, false, false, false, 0, 0, []⟩

/-- A Done instance of frame size 8. -/
def done (last : Counter) (inData : List Byte) (outData : List (List Byte)) : SeqState :=
  ⟨.done, last, inData, outData, .len8⟩

/-- A state with one instance, key 0. -/
def with0 (p : SeqState) : State := { sF with seq := [(0, p)] }

/-- The state of configuration A of 95_test_vectors.md section 3.5. -/
def sA : State :=
  { sF with modules := [di4, do4], offsets := [atIn 0x0000, atOut 0x8000], encOrder := [1, 0] }

/-- One tunnel module of frame size 8 at the start of both images. -/
def sT (p : SeqState) : State :=
  { with0 p with modules := [tun8], offsets := [⟨some 0x0000, some 0x8000⟩], encOrder := [0] }

/-- Seven bytes: two chunks of a frame of size 8. -/
def seven : List Byte := List.replicate 7 0x41

/-- One tunnel module with a chunk to send, under these capacities and pending writes. -/
def sC (inCap outCap : Option Nat) (w : List (Address × ChannelValue)) : State :=
  { sT (done 4 [] [[0x41]]) with params := ⟨.fixture, inCap, outCap⟩, write := w }

/-- A tunnel module and DO4 behind it, each with a pending write. -/
def sM : State :=
  { with0 (done 4 [] [[0x41]]) with
    modules := [tun8, do4], offsets := [⟨some 0x0000, some 0x8000⟩, atOut 0x8040], encOrder := [0, 1]
    write := [(⟨0, 0⟩, .bytes [0x50]), (⟨1, 2⟩, .bit true)] }

/-- A plain module of one channel whose codec decodes no value, its channel pending. -/
def sP : State :=
  { sF with modules := [⟨10⟩], offsets := [atOut 0x8000], encOrder := [0], write := [(⟨0, 0⟩, .none)] }

/-! ### Decoding: words and records written out from 30_encoding.md R68, R69, R72 and R82 -/

theorem test_decode_baSplit : decode ⟨0b0000_0001, [0x8008]⟩ = .ok (.baSplit 0x8008) := by decide
theorem test_decode_baJoin : decode ⟨0b0000_0010, [0x800, 8]⟩ = .ok (.baJoin 0x800 8) := by decide
theorem test_decode_baOffsets :
    decode ⟨0b0000_0011, [2, 0xFFFF, 0]⟩ = .ok (.baOffsets [0xFFFF, 0]) := by decide
theorem test_decode_baModlist :
    decode ⟨0b0000_0100, [2, 0x1234, 0x5678]⟩ = .ok (.baModlist [0x1234, 0x5678]) := by decide
theorem test_decode_mapDecodeIn :
    decode ⟨0b0001_0001, [1, 2, 1, 8, 0, 0, 1, 0xABCD]⟩ =
      .ok (.mapDecodeIn [(⟨2⟩, ⟨some 0x0008, none⟩)] 0 [0xABCD]) := by decide
theorem test_decode_mapDecodeOut :
    decode ⟨0b0001_0010, [1, 1, 0, 1, 0x8000, 0x800, 1, 15]⟩ =
      .ok (.mapDecodeOut [(⟨1⟩, ⟨none, some 0x8000⟩)] 0x0800 [15]) := by decide
theorem test_decode_mapEncode :
    decode ⟨0b0001_0011, [1, 4, 0, 1, 0x8000, 0x800, 1, 1, 3, 2, 7, 9]⟩ =
      .ok (.mapEncode [(⟨4⟩, ⟨none, some 0x8000⟩)] 0x0800 [[.bytes [7, 9]]]) := by decide
theorem test_decode_seqNew : decode ⟨0b0010_0001, [3, 8]⟩ = .ok (.seqNew 3 8) := by decide
theorem test_decode_seqNext :
    decode ⟨0b0010_0010, [0, 1, 0, 1, 2, 3, 1, 9, 1, 0, 0, 1, 2, 3, 0]⟩ =
      .ok (.seqNext 0 ⟨true, false, true, 2, 3, [9]⟩ ⟨true, false, false, true, 2, 3, []⟩) := by decide
theorem test_decode_seqWrite :
    decode ⟨0b0010_0011, [7, 2, 0x41, 0x42]⟩ = .ok (.seqWrite 7 [0x41, 0x42]) := by decide
theorem test_decode_seqRead : decode ⟨0b0010_0100, [7]⟩ = .ok (.seqRead 7) := by decide
theorem test_decode_cplNew :
    decode ⟨0b0011_0001, [1, 8, 1, 1, 8, 2, 0x8000, 0]⟩ = .ok (.cplNew [⟨8⟩] [[8]] [0x8000, 0]) := by
  decide
theorem test_decode_cplIsValidAddr :
    decode ⟨0b0011_0010, [1, 3]⟩ = .ok (.cplIsValidAddr ⟨1, 3⟩) := by decide
theorem test_decode_cplSetOutput :
    decode ⟨0b0011_0011, [1, 3, 1, 1]⟩ = .ok (.cplSetOutput ⟨1, 3⟩ (.bit true)) := by decide
theorem test_decode_cplNext :
    decode ⟨0b0011_0100, [1, 5, 2, 6, 7]⟩ = .ok (.cplNext [5] [6, 7]) := by decide
theorem test_decode_cplInputs : decode ⟨0b0011_0101, []⟩ = .ok .cplInputs := by decide
theorem test_decode_cplOutputs : decode ⟨0b0011_0110, []⟩ = .ok .cplOutputs := by decide
theorem test_decode_cplReader : decode ⟨0b0011_0111, [2]⟩ = .ok (.cplReader 2) := by decide
theorem test_decode_cplWriter :
    decode ⟨0b0011_1000, [2, 1, 0xFF]⟩ = .ok (.cplWriter 2 [0xFF]) := by decide

/-- The eight value tags of R82. -/
theorem test_decode_tags :
    decode ⟨0x13, [0, 0, 1, 8, 0, 1, 1, 2, 0x3F800000, 3, 0, 4, 0, 0, 0, 0, 0, 0, 5, 0, 0, 0, 0, 0, 0, 0,
        6, 4, 7]⟩ =
      .ok (.mapEncode [] 0 [[.none, .bit true, .decimal32 0x3F800000, .bytes [], .tunnelIn fi0,
        .tunnelOut fo0, .freqSample ⟨4⟩, .disabled]]) := by decide

/-- Records that are no record of their operation are rejected by name (assumption log 2). -/
theorem test_decode_malformed :
    decode ⟨0x01, []⟩ = .error (.malformed .truncated) ∧
    decode ⟨0x01, [0x10000]⟩ = .error (.malformed .scalarTooWide) ∧
    decode ⟨0x33, [0, 0, 1, 2]⟩ = .error (.malformed .notABool) ∧
    decode ⟨0x33, [0, 0, 16]⟩ = .error (.malformed .scalarTooWide) ∧
    decode ⟨0x35, [0]⟩ = .error (.malformed .trailing) := by decide

/-- V-ENC-1: reserved command words, whatever follows them. -/
theorem test_reserved_words :
    ([0x00, 0x05, 0x10, 0x14, 0x25, 0x30, 0x39, 0x40, 0xFF].map fun w =>
      stepAnswer sF ⟨w, [1, 2, 3]⟩) = List.replicate 9 (some (.error .illegalCommand)) := by decide

/-- V-ENC-2: a channel value tag 9. -/
theorem test_reserved_tag : stepAnswer sA ⟨0x33, [1, 1, 9]⟩ = some (.error .channelValue) := by decide

/-- V-ENC-3, V-ENC-4: the pseudo-operations of R85. -/
theorem test_pseudo_operations :
    (encode (mapDecodePseudo .input [] 0 [])).word = 0x11 ∧
    (encode (mapDecodePseudo .output [] 0 [])).word = 0x12 ∧
    baLiteral 0x800 8 = some 0x8008 ∧ baLiteral 0x1000 0 = none ∧ baLiteral 0 16 = none ∧
    absentLiteral = 0xFFFF := by decide

/-- The opcode table's rows: the bare command word with an all-zero record decodes (assumption log 17),
and no other 8-bit word does. -/
theorem test_table_words :
    ((List.range 256).filter fun w => (decodeTableWord 8 w).isSome) =
      [0x01, 0x02, 0x03, 0x04, 0x11, 0x12, 0x13, 0x21, 0x22, 0x23, 0x24, 0x31, 0x32, 0x33, 0x34, 0x35,
        0x36, 0x37, 0x38] := by decide

/-- Each of the 19 words with an all-zero record, run as the first request after reset: the status its
rule gives it there (R93, R94, R114, R115, R142, R181). -/
theorem test_first_request :
    ([0x01, 0x02, 0x03, 0x04, 0x11, 0x12, 0x13, 0x21, 0x22, 0x23, 0x24, 0x31, 0x32, 0x33, 0x34, 0x35,
        0x36, 0x37, 0x38].map fun w =>
      match step (State.reset.withFetchWord 8 w) with
      | .next t => t.response.map Response.status
      | _ => none) =
    [0, 0, 0, 8, 0, 0, 0, 2, 7, 7, 7, 0, 0, 7, 0, 0, 0, 7, 7].map some := by decide

/-! ### Well-formedness: a frame's payload is at most 14 bytes (R23, R24, R26) -/

def bytes15 : List Byte := List.replicate 15 0

theorem test_illformed_input : (Instr.seqNext 0 { fi0 with data := bytes15 } fo0).wellFormed = false := by
  decide
theorem test_illformed_output : (Instr.seqNext 0 fi0 { fo0 with data := bytes15 }).wellFormed = false := by
  decide
theorem test_illformed_setOutput :
    (Instr.cplSetOutput ⟨0, 0⟩ (.tunnelIn { fi0 with data := bytes15 })).wellFormed = false := by decide
theorem test_illformed_encode :
    (Instr.mapEncode [] 0 [[.none], [.tunnelOut { fo0 with data := bytes15 }]]).wellFormed = false := by
  decide
theorem test_wellformed_boundary :
    (Instr.seqNext 0 { fi0 with data := List.replicate 14 0 } fo0).wellFormed = true := by decide

/-! ### Unit 0 -/

/-- V-BA-3, V-BA-4. -/
theorem test_baSplit :
    answer sF (.baSplit 0x1234) = some (.ok (.split 0x123 4)) ∧
    answer sF (.baSplit 0xFFFF) = some (.ok (.split 0xFFF 15)) := by decide
/-- V-BA-6, V-BA-9, V-BA-10. -/
theorem test_baJoin :
    answer sF (.baJoin 0x800 8) = some (.ok (.addr 0x8008)) ∧
    answer sF (.baJoin 0x1000 0) = some (.error .moduleOffset) ∧
    answer sF (.baJoin 0 16) = some (.error .moduleOffset) := by decide
/-- V-BA-11, V-BA-12, V-BA-13. -/
theorem test_baOffsets :
    answer sF (.baOffsets [0xFFFF, 0x0000, 0x8000, 0xFFFF]) =
      some (.ok (.offsets [⟨some 0x0000, none⟩, ⟨none, some 0x8000⟩])) ∧
    answer sF (.baOffsets []) = some (.ok (.offsets [])) ∧
    answer sF (.baOffsets [0x8000]) = some (.error .registerCount) := by decide
/-- V-BA-18: the identifier is built from the high register first. V-BA-14. -/
theorem test_baModlist :
    answer sF (.baModlist [0x1234, 0x5678]) = some (.ok (.types [Fixture.type (.raw 1)])) ∧
    answer sF (.baModlist [0, 1, 0, 2]) =
      some (.ok (.types [Fixture.type .di4, Fixture.type .do4])) := by decide
/-- V-BA-15 to V-BA-17. -/
theorem test_baModlist_errors :
    answer sF (.baModlist []) = some (.error .registerCount) ∧
    answer sF (.baModlist [0, 1, 0xDEAD, 0xBEEF]) = some (.error .unknownModule) ∧
    answer sF (.baModlist [0xDEAD, 0xBEEF, 0]) = some (.error .registerCount) := by decide

/-! ### Unit 1 -/

/-- V-MAP-D3, V-MAP-D7, V-MAP-D17: SHIFT8 over two words, the rounded window, neighbours. -/
theorem test_mapDecodeIn :
    answer sF (.mapDecodeIn [(raw 4, atIn 0x0008)] 0 [0x1122, 0x3344]) =
      some (.ok (.values [[.bytes [0x11, 0x44, 0x33, 0x00]]])) ∧
    answer sF (.mapDecodeIn [(raw 3, atIn 0x0000)] 0 [0x0201, 0x0003]) =
      some (.ok (.values [[.bytes [0x01, 0x02]]])) ∧
    answer sF (.mapDecodeIn [(raw 1, atIn 0x0008), (raw 1, atIn 0x0010)] 0 [0x12CD, 0x0034]) =
      some (.ok (.values [[.bytes [0x12]], [.bytes [0x34]]])) := by decide
/-- V-MAP-D5, V-MAP-D6, V-MAP-D10: the order of the checks; an absent offset. -/
theorem test_mapDecodeIn_errors :
    answer sF (.mapDecodeIn [(di8, atIn 0x0004)] 0 [0xABCD]) = some (.error .moduleOffset) ∧
    answer sF (.mapDecodeIn [(di8, atIn 0x0014)] 0 [0xABCD]) = some (.error .bufferLength) ∧
    answer sF (.mapDecodeIn [(di4, atOut 0x8000)] 0 []) =
      some (.ok (.values [[.none, .none, .none, .none]])) := by decide
/-- V-MAP-O1 with another image, V-MAP-O2, V-MAP-O4. -/
theorem test_mapDecodeOut :
    answer sF (.mapDecodeOut [(do4, atOut 0x8000)] 0x0800 [0x0006]) =
      some (.ok (.values [[.bit false, .bit true, .bit true, .bit false]])) ∧
    answer sF (.mapDecodeOut [(do4, atOut 0x0000)] 0x0800 [0]) = some (.error .moduleOffset) ∧
    answer sF (.mapDecodeOut [(tun8, atOut 0x8000)] 0x0800 [0x7000, 0, 0, 0]) =
      some (.error .dataLength) := by decide
/-- V-MAP-E7, V-MAP-E16: the merge takes the low byte of the first word; gap-free placement. -/
theorem test_mapEncode :
    answer sF (.mapEncode [(raw 1, atOut 0x8000), (raw 2, atOut 0x8008)] 0x0800
      [[.bytes [0x34]], [.bytes [0x12, 0xAB]]]) = some (.ok (.words [0x1234])) ∧
    answer sF (.mapEncode [(raw 4, atOut 0x8000), (raw 1, atOut 0x8020)] 0x0800
      [[.bytes [1, 2, 3, 4]], [.bytes [5]]]) = some (.ok (.words [0x0201, 0x0403, 0x0005])) := by decide
/-- V-MAP-E3, V-MAP-E6, V-MAP-E9, V-MAP-E12. -/
theorem test_mapEncode_errors :
    answer sF (.mapEncode [(raw 1, atOut 0x8000), (raw 1, atOut 0x8020)] 0x0800
      [[.bytes [1]], [.bytes [2]]]) = some (.error .moduleOffset) ∧
    answer sF (.mapEncode [(raw 1, atOut 0x8000), (raw 1, atOut 0x8008)] 0x0800 [[.bytes [1]]]) =
      some (.error .channelValue) ∧
    answer sF (.mapEncode [(raw 1, atOut 0x8000), (raw 1, atOut 0x8008)] 0x0800
      [[.bytes [0x34]], [.bytes []]]) = some (.error .bufferLength) ∧
    answer sF (.mapEncode [(do4, atOut 0x0000)] 0x0800 [[.bit true]]) =
      some (.error .channelValue) := by decide

/-! ### Unit 2 -/

/-- V-SEQ-14 and R114: the fresh instance, but for its unspecified `last_rx_cnt`. -/
theorem test_seqNew :
    after (with0 (done 1 [2] [[1]])) (.seqNew 0 8) (fun t =>
      (mapGet t.seq 0).map fun p => (p.initState, p.inData, p.outData, p.processDataLen)) =
      some (some (.clearBuffers, [], [], .len8)) := by decide
/-- V-SEQ-12b. -/
theorem test_seqNew_length : answer sF (.seqNew 2 12) = some (.error .channelParameter) := by decide
/-- V-SEQ-5 and V-SEQ-3: wraparound, then a stall. -/
theorem test_seqNext_send :
    answer (with0 (done 4 [] [[0x43]])) (.seqNext 0 { fi0 with txCntAck := 3 }
      { fo0 with active := true, txCnt := 3 }) =
      some (.ok (.frame { fo0 with active := true, data := [0x43] })) ∧
    answer (with0 (done 4 [] [[0x42]])) (.seqNext 0 fi0
      { fo0 with reset := true, active := true, txCnt := 1, data := [0x41] }) =
      some (.ok (.frame { fo0 with reset := true, active := true, txCnt := 1, data := [0x41] })) := by
  decide
/-- V-SEQ-7 and V-SEQ-8: accepted, and acknowledged without being accepted. -/
theorem test_seqNext_receive :
    after (with0 (done 4 [] [])) (.seqNext 0 { fi0 with dataAvailable := true, data := [1, 2] } fo0)
      State.seq = some [(0, done 0 [1, 2] [])] ∧
    after (with0 (done 1 [] [])) (.seqNext 0 { fi0 with rxCnt := 2, data := [7] } fo0)
      (fun t => (t.seq, t.response)) =
      some ([(0, done 1 [] [])], some (.ok (.frame { fo0 with rxCntAck := 2 }))) := by decide
/-- V-SEQ-11: a 21-byte write in chunks of at most 6. -/
theorem test_seqWrite :
    after (with0 (done 4 [] [])) (.seqWrite 0 ((List.range 21).map (BitVec.ofNat 8)))
      (fun t => (mapGet t.seq 0).map fun p => p.outData.map List.length) = some (some [6, 6, 6, 3]) := by
  decide
/-- V-SEQ-12. -/
theorem test_seqWrite_unknown : answer sF (.seqWrite 9 [1]) = some (.error .address) := by decide
/-- V-SEQ-7d: the buffer, then nothing. -/
theorem test_seqRead :
    after (with0 (done 1 [1, 2, 3] [])) (.seqRead 0) (fun t => (t.seq, t.response)) =
      some ([(0, done 1 [] [])], some (.ok (.bytes (some [1, 2, 3])))) ∧
    answer (with0 (done 1 [] [])) (.seqRead 0) = some (.ok (.bytes none)) := by decide

/-- V-SEQ-15 to V-SEQ-15e: the fixture tunnel codec keeps the frame-encode contract. -/
theorem test_frame_contract :
    encodeTun .len8 [.tunnelOut { fo0 with txCnt := 4 }] = .error .sequenceNumber ∧
    encodeTun .len8 [.tunnelOut { fo0 with rxCntAck := 4 }] = .error .sequenceNumber ∧
    encodeTun .len8 [.tunnelOut { fo0 with data := [1, 2, 3, 4, 5, 6, 7] }] = .error .dataLength ∧
    encodeTun .len8 [.tunnelOut { fo0 with txCnt := 4, data := [1, 2, 3, 4, 5, 6, 7] }] =
      .error .sequenceNumber ∧
    encodeTun .len8 [.tunnelOut ⟨true, true, false, false, 1, 0,
      [0x41, 0x42, 0x43, 0x44, 0x45, 0x46]⟩] = .ok [0x6103, 0x4241, 0x4443, 0x4645] := by decide

/-! ### Unit 3 -/

/-- V-CPL-1. -/
theorem test_cplNew :
    after sF (.cplNew [Fixture.type .di4, Fixture.type .do4] [[], []] [0xFFFF, 0x0000, 0x8000, 0xFFFF])
      (fun t => (t.modules, t.offsets, t.encOrder)) =
      some ([di4, do4], [⟨some 0x0000, none⟩, ⟨none, some 0x8000⟩], [1, 0]) := by decide
/-- V-CPL-2, V-CPL-3, V-CPL-5, V-CPL-6. -/
theorem test_cplNew_errors :
    answer sF (.cplNew [Fixture.type .di4] [] [0xFFFF, 0]) = some (.error .bufferLength) ∧
    answer sF (.cplNew [Fixture.type .di4] [[]] [0xFFFF]) = some (.error .moduleOffset) ∧
    answer sF (.cplNew [Fixture.type (.tun .len8)] [[]] [0x8000, 0]) = some (.error .bufferLength) ∧
    answer sF (.cplNew [Fixture.type (.tun .len8)] [[12]] [0x8000, 0]) =
      some (.error .channelParameter) := by decide
/-- V-CPL-7. -/
theorem test_cplIsValidAddr :
    ([⟨0, 0⟩, ⟨1, 3⟩, ⟨1, 4⟩, ⟨2, 0⟩].map fun a => answer sA (.cplIsValidAddr a)) =
      [true, true, false, false].map fun b => some (.ok (.bool b)) := by decide
/-- The example of R142, and V-CPL-8. -/
theorem test_cplSetOutput :
    after sA (.cplSetOutput ⟨1, 1⟩ (.bit true)) State.write = some [(⟨1, 1⟩, .bit true)] ∧
    answer sA (.cplSetOutput ⟨2, 0⟩ (.bit true)) = some (.error .address) := by decide
/-- V-CPL-9. -/
theorem test_cplNext :
    after { sA with write := [(⟨1, 1⟩, .bit true)] } (.cplNext [0x0005] [0x0000])
      (fun t => (t.response, t.write, t.inValues)) =
      some (some (.ok (.cycle [0x0002] [])), [],
        [[.bit true, .bit false, .bit true, .bit false], [.none, .none, .none, .none]]) := by decide
/-- V-CPL-13, V-CPL-14: a failed cycle keeps its pending write. -/
theorem test_cplNext_errors :
    after { sA with write := [(⟨1, 0⟩, .bit true)] } (.cplNext [] [0])
      (fun t => (t.response, t.write)) =
      some (some (.error .bufferLength), [(⟨1, 0⟩, .bit true)]) ∧
    after { sA with write := [(⟨1, 0⟩, .decimal32 0x3F800000)] } (.cplNext [0] [0])
      (fun t => (t.response, t.write)) =
      some (some (.error .channelValue), [(⟨1, 0⟩, .decimal32 0x3F800000)]) := by decide
/-- R155, R156: the snapshots. -/
theorem test_snapshots :
    answer { sA with inValues := [[.disabled]] } .cplInputs = some (.ok (.values [[.disabled]])) ∧
    answer { sA with outValues := [[.none]] } .cplOutputs = some (.ok (.values [[.none]])) := by decide
/-- The example of R157, and V-CPL-15. -/
theorem test_cplReader :
    answer (with0 (done 1 [0x68, 0x69] [])) (.cplReader 0) =
      some (.ok (.bytes (some [0x68, 0x69]))) ∧
    answer sA (.cplReader 0) = some (.error .address) := by decide
/-- P5: a 7-byte CPL_WRITER on a frame size of 8 queues two chunks. -/
theorem test_cplWriter :
    after (sT (done 4 [] [])) (.cplWriter 0 [0x41, 0x42, 0x43, 0x44, 0x45, 0x46, 0x47])
      (fun t => t.seq) =
      some [(0, done 4 [] [[0x41, 0x42, 0x43, 0x44, 0x45, 0x46], [0x47]])] := by decide
/-- P5, the cycle that sends its second chunk: the acknowledgement frees the tunnel, and the edge shows. -/
theorem test_tunnel_cycle :
    answer { sT (done 4 [] [[0x47]]) with lastTxCnt := [(0, 1)] }
      (.cplNext [0x2405, 0x6968, 0, 0] [0x6103, 0x4241, 0x4443, 0x4645]) =
      some (.ok (.cycle [0x1203, 0x0047, 0, 0] [0])) := by decide

/-- P5, cycle 9: a pending value that is no `Bytes` fails the cycle, and nothing of cycle 8 changes. -/
theorem test_tunnel_write_variant :
    let s : State :=
      { sT (done 0 [] []) with lastTxCnt := [(0, 3)], write := [(⟨0, 0⟩, .decimal32 0x3F800000)] }
    let cycle9 : Instr := .cplNext [0x0804, 0, 0, 0] [0x1303, 0x0050, 0, 0]
    answer s cycle9 = some (.error .channelValue) ∧
    after s cycle9 State.seq = some [(0, done 0 [] [])] ∧
    after s cycle9 (fun t => (t.write, t.lastTxCnt)) =
      some ([(⟨0, 0⟩, .decimal32 0x3F800000)], [(0, 3)]) := by decide
/-- R121, R123, R154: inside a cycle, a frame over IN_BUF_CAP, reported before the pending value that is
no `Bytes`, and a pending write over OUT_Q_CAP. -/
theorem test_cycle_capacities :
    answer (sC (some 0) none [(⟨0, 0⟩, .disabled)]) (.cplNext [0x1001, 0x0068, 0, 0] [0, 0, 0, 0]) =
      some (.error .bufferLength) ∧
    answer (sC none (some 1) [(⟨0, 0⟩, .bytes seven)]) (.cplNext [0x1001, 0x0068, 0, 0] [0, 0, 0, 0]) =
      some (.error .bufferLength) := by decide
/-- R151: a plain module whose codec decodes no value for its one channel, under the fixture family's
handle 10 (assumption log 14). -/
theorem test_cycle_plain_write : answer sP (.cplNext [] [0]) = some (.error .channelValue) := by decide

/-! ### The address map and the interface -/

/-- The host's core is this machine. -/
theorem test_core : core.reset = State.reset ∧ core.step = step := ⟨rfl, rfl⟩

/-- W10: module 3's parameters and its offset pair. -/
theorem test_address_map :
    paramAddr 3 = 0xC300 ∧ outputOffsetAddr 3 = 0x2B06 ∧ inputOffsetAddr 3 = 0x2B07 ∧
    inputImageAddr 0 = 0x0000 ∧ outputImageAddr 0 = 0x0800 := by decide

/-! ### Witnesses: hypotheses that can be met

One theorem per statement with hypotheses. Where a statement has several clauses, each has a witness at
the edge of its range. -/

/-- A configured station, its snapshots empty: sound. -/
theorem sound_sA : SoundState sA where
  seqCanonical := rfl
  instances := nofun
  tunnels := by
    intro i c h
    match i, h with
    | 0, h => cases h; decide
    | 1, h => cases h; decide
  writeCanonical := rfl
  writeValid := nofun
  lastTxCanonical := rfl
  lastTxModules := nofun
  aligned := rfl
  order := by decide
  snapshots := .inl ⟨rfl, rfl⟩
  edgesAscend := .nil
  edgesAdvanced := nofun

/-- Any small instance under unbounded capacities is within its bounds. -/
theorem sound_done : SoundInstance ⟨.fixture, none, none⟩ (done 4 [] [[0x41]]) where
  chunkSizes := by decide
  inDataFits := rfl
  outDataFits := rfl

/-- A tunnel module and DO4, each with a pending write: sound. -/
theorem sound_sM : SoundState sM where
  seqCanonical := rfl
  instances := by
    intro k p h
    simp only [sM, with0, mapGet] at h
    split at h
    · cases h
      exact sound_done
    · cases h
  tunnels := by
    intro i c h
    match i, h with
    | 0, h => cases h; decide
    | 1, h => cases h; decide
  writeCanonical := rfl
  writeValid := by
    intro a v h
    simp only [sM, mapGet] at h
    split at h
    · rename_i ha; subst ha; rfl
    · split at h
      · rename_i ha; subst ha; rfl
      · cases h
  lastTxCanonical := rfl
  lastTxModules := nofun
  aligned := rfl
  order := by decide
  snapshots := .inl ⟨rfl, rfl⟩
  edgesAscend := .nil
  edgesAdvanced := nofun

/-- Configuration A with a pending value that DO4's encode rejects (V-CPL-14): sound. -/
theorem sound_sA_pending : SoundState { sA with write := [(⟨1, 0⟩, .decimal32 0x3F800000)] } where
  seqCanonical := rfl
  instances := nofun
  tunnels := sound_sA.tunnels
  writeCanonical := rfl
  writeValid := by
    intro a v h
    simp only [mapGet] at h
    split at h
    · rename_i ha; subst ha; rfl
    · cases h
  lastTxCanonical := rfl
  lastTxModules := nofun
  aligned := rfl
  order := by decide
  snapshots := .inl ⟨rfl, rfl⟩
  edgesAscend := .nil
  edgesAdvanced := nofun

/-- A station with one tunnel module: sound. -/
theorem sound_sT : SoundState (sT (done 4 [] [[0x41]])) where
  seqCanonical := rfl
  instances := by
    intro k p h
    simp only [sT, with0, mapGet] at h
    split at h
    · cases h
      exact sound_done
    · cases h
  tunnels := by
    intro i c h
    match i, h with
    | 0, h => cases h; decide
  writeCanonical := rfl
  writeValid := nofun
  lastTxCanonical := rfl
  lastTxModules := nofun
  aligned := rfl
  order := by decide
  snapshots := .inl ⟨rfl, rfl⟩
  edgesAscend := .nil
  edgesAdvanced := nofun

theorem witness_StepRunsTheDecodedRequest :
    ({ sA with commandPort := [⟨0x34, [1, 5, 1, 0]⟩] } : State).commandPort = ⟨0x34, [1, 5, 1, 0]⟩ :: [] ∧
    decode ⟨0x34, [1, 5, 1, 0]⟩ = .ok (.cplNext [5] [0]) := by decide

theorem witness_NoRequestNoChange : sA.commandPort = [] := rfl

/-- Each way a word is reserved: func 0, unit 4 and 15, and the first free func of each unit. -/
theorem witness_ReservedWordsRaiseIllegalCommand :
    ({ sA with commandPort := [⟨0x30, []⟩] } : State).commandPort = ⟨0x30, []⟩ :: [] ∧
    ∀ w ∈ ([0x30, 0x00, 0x41, 0xFF, 0x05, 0x0F, 0x14, 0x25, 0x39] : List (BitVec 8)),
      w.toNat % 16 = 0 ∨ 64 ≤ w.toNat ∨ (w.toNat / 16 = 0 ∧ 4 < w.toNat % 16) ∨
      (w.toNat / 16 = 1 ∧ 3 < w.toNat % 16) ∨ (w.toNat / 16 = 2 ∧ 4 < w.toNat % 16) ∨
      (w.toNat / 16 = 3 ∧ 8 < w.toNat % 16) := by decide

/-- Tag 8 in a CPL_SET_OUTPUT, tag 15 in the second value of the second list of a MAP_ENCODE. -/
theorem witness_ReservedTagsRaiseChannelValue :
    (8 ≤ 8 ∧ 8 ≤ 15 ∧ stepAnswer sA ⟨0x33, [1, 1, 8]⟩ = some (.error .channelValue)) ∧
    8 ≤ 15 ∧ 15 ≤ 15 ∧ [[ChannelValue.disabled]].length < 2 ∧ [ChannelValue.none].length < 2 ∧
    stepAnswer sA ⟨0x13, putList putMod [(di4, atIn 0)] ++ putBits (0x0800 : Word16) ++
      2 :: ([[ChannelValue.disabled]].flatMap (putList putValue) ++
        2 :: ([ChannelValue.none].flatMap putValue ++ 15 :: []))⟩ = some (.error .channelValue) := by
  decide

theorem witness_EncodeInvertsDecode : decode ⟨0x23, [7, 2, 0x41, 0x42]⟩ = .ok (.seqWrite 7 [0x41, 0x42]) := by
  decide

theorem witness_StepKeepsSoundState :
    SoundState { sA with commandPort := [⟨0x34, [1, 5, 1, 0]⟩] } ∧
    ∃ t, step { sA with commandPort := [⟨0x34, [1, 5, 1, 0]⟩] } = .next t ∧
      t.inValues.length = 2 := by
  refine ⟨?_, _, rfl, by decide⟩
  have h := sound_sA
  exact ⟨h.1, h.2, h.3, h.4, h.5, h.6, h.7, h.8, h.9, h.10, h.11, h.12⟩

theorem witness_ErrorsWriteNoState :
    ∃ t, exec (.baJoin 0x1000 0) sA = .next t ∧ t.response = some (.error .moduleOffset) :=
  ⟨_, rfl, rfl⟩

/-- A codec's DataLength (V-MAP-O4) and SequenceNumber (V-SEQ-15). No fixture codec returns
UnknownCategory. -/
theorem witness_CodecOnlyCodesComeFromCodecs :
    (∃ t, exec (.mapDecodeOut [(tun8, atOut 0x8000)] 0x0800 [0x7000, 0, 0, 0]) sA = .next t ∧
      t.response = some (.error .dataLength)) ∧
    ∃ t, exec (.mapEncode [(tun8, atOut 0x8000)] 0x0800 [[.tunnelOut { fo0 with txCnt := 4 }]]) sA =
      .next t ∧ t.response = some (.error .sequenceNumber) :=
  ⟨⟨_, rfl, rfl⟩, ⟨_, rfl, rfl⟩⟩

theorem witness_NoOperationRaisesIllegalCommand : ∃ t, exec .cplInputs sA = .next t := ⟨_, rfl⟩

theorem witness_StateIsWrittenOnlyByItsWriters :
    (∃ t, exec .cplInputs sA = .next t) ∧
    Instr.cplInputs.opcode ∉ [.cplNew, .cplNext, .cplWriter, .cplReader, .seqNew, .seqNext, .seqWrite,
      .seqRead, .cplSetOutput] := ⟨⟨_, rfl⟩, by decide⟩

/-- A key with an instance that moves forward, and one with none. -/
theorem witness_InitialisationOnlyMovesForward :
    (∃ t, exec (.seqNext 0 fi0 fo0) (with0 { done 4 [] [] with initState := .reset }) = .next t ∧
      (mapGet t.seq 0).map SeqState.initState = some .done ∧ mapGet t.seq 1 = none) ∧
    (Instr.seqNext 0 fi0 fo0).opcode ≠ .seqNew ∧ (Instr.seqNext 0 fi0 fo0).opcode ≠ .cplNew :=
  ⟨⟨_, rfl, rfl, rfl⟩, by decide, by decide⟩

/-- Two states alike at the key and in nothing else. -/
theorem witness_InstancesAreIndependent :
    (with0 (done 4 [1] [])).params = (sT (done 4 [1] [])).params ∧
    (with0 (done 4 [1] [])).draws = (sT (done 4 [1] [])).draws ∧
    mapGet (with0 (done 4 [1] [])).seq 0 = mapGet (sT (done 4 [1] [])).seq 0 ∧
    (∃ t, exec (.seqRead 0) (with0 (done 4 [1] [])) = .next t) ∧
    (∃ t, exec (.seqRead 0) (sT (done 4 [1] [])) = .next t) ∧ (1 : Nat) ≠ 0 :=
  ⟨rfl, rfl, rfl, ⟨_, rfl⟩, ⟨_, rfl⟩, by decide⟩

/-- Two instances in ClearBuffers that differ in `last_rx_cnt`. -/
theorem witness_UnspecifiedLastRxCntIsNeverObserved :
    Alike (with0 { done 0 [] [] with initState := .clearBuffers })
      (with0 { done 9 [] [] with initState := .clearBuffers }) :=
  ⟨rfl, .cons ⟨rfl, rfl, rfl, rfl, rfl, nofun⟩ .nil⟩

/-- The largest fields that fit; the smallest register and the smallest bit that do not. -/
theorem witness_BaJoinBuildsTheAddress :
    0x0FFF ≤ 0x0FFF ∧ 15 ≤ 15 ∧ (0x1000 > 0x0FFF ∨ 0 > 15) ∧ (0 > 0x0FFF ∨ 16 > 15) ∧
    answer sA (.baJoin 0x0FFF 15) = some (.ok (.addr 0xFFFF)) := by decide

theorem witness_SplitAndJoinRoundTrip :
    0x0FFF ≤ 0x0FFF ∧ 15 ≤ 15 ∧ answer sA (.baSplit 0xFFFF) = some (.ok (.split 0x0FFF 15)) := by decide

theorem witness_BaOffsetsReadsPairs :
    ([] : List Word16).length % 2 = 0 ∧ ([0x8000, 0xFFFF] : List Word16).length % 2 = 0 ∧
    ([0x8000] : List Word16).length % 2 = 1 := by decide

/-- No identifier, half of one, a known one, an unknown one after a known one. -/
theorem witness_BaModlistLooksUpIdentifiers :
    (([] : List Word16) = [] ∨ ([] : List Word16).length % 2 = 1) ∧
    (([7] : List Word16) = [] ∨ ([7] : List Word16).length % 2 = 1) ∧
    (([0, 1] : List Word16) ≠ [] ∧ ([0, 1] : List Word16).length % 2 = 0 ∧
      2 * [Fixture.type .di4].length = ([0, 1] : List Word16).length ∧
      ∀ k < [Fixture.type .di4].length, sF.codecs.typeOfId (BitVec.ofNat 32
        ((([0, 1] : List Word16).getD (2 * k) 0).toNat * 65536 +
          (([0, 1] : List Word16).getD (2 * k + 1) 0).toNat)) = [Fixture.type .di4][k]?) ∧
    ∃ k, 2 * k < ([0, 1, 7, 7] : List Word16).length ∧ sF.codecs.typeOfId (BitVec.ofNat 32
      ((([0, 1, 7, 7] : List Word16).getD (2 * k) 0).toNat * 65536 +
        (([0, 1, 7, 7] : List Word16).getD (2 * k + 1) 0).toNat)) = none :=
  ⟨by decide, by decide, by decide, 1, by decide, by decide⟩

theorem witness_UnitZeroIsStateless :
    (Instr.baModlist [0, 1]).opcode ∈ [.baSplit, .baJoin, .baOffsets, .baModlist] ∧
    sA.codecs.typeOfId = (with0 (done 4 [] [])).codecs.typeOfId := ⟨by decide, rfl⟩

theorem witness_UnitOneIsStateless :
    (Instr.mapEncode [] 0 []).opcode ∈ [.mapDecodeIn, .mapDecodeOut, .mapEncode] ∧
    sA.codecs = (with0 (done 4 [] [])).codecs := ⟨by decide, rfl⟩

/-- Both sides of the two equivalences hold for a module with no offset. -/
theorem witness_MapDecodeYieldsEachModule :
    List.Forall₂ (DecodesInput sF.codecs 0 []) [(di4, atOut 0x8000)] [[.none, .none, .none, .none]] ∧
    List.Forall₂ (DecodesOutput sF.codecs 0x0800 []) [(di4, atIn 0)] [[.none, .none, .none, .none]] :=
  ⟨.cons (.inl ⟨rfl, rfl⟩) .nil, .cons (.inl ⟨rfl, rfl⟩) .nil⟩

/-- After a module that decodes: the register below the base, the window one word too long, the
illegal bit in range, and the codec's own error. -/
theorem witness_MapDecodeErrorOrder :
    List.Forall₂ (DecodesOutput sF.codecs 0x0800 [0x7000, 0, 0, 0]) [(di4, atIn 0)]
      [[.none, .none, .none, .none]] ∧
    DecodeRaises 0x7FF8 1 (sF.codecs.decodeOutput do4) 0x0800 [0] .moduleOffset ∧
    DecodeRaises 0x8014 1 (sF.codecs.decodeOutput do4) 0x0800 [0] .bufferLength ∧
    DecodeRaises 0x8004 1 (sF.codecs.decodeOutput do4) 0x0800 [0] .moduleOffset ∧
    DecodeRaises 0x8000 8 (sF.codecs.decodeOutput tun8) 0x0800 [0x7000, 0, 0, 0] .dataLength := by
  refine ⟨.cons (.inl ⟨rfl, rfl⟩) .nil, by simp [DecodeRaises], by simp [DecodeRaises],
    by simp [DecodeRaises], ?_⟩
  simp only [DecodeRaises]
  refine ⟨[0x7000, 0, 0, 0], .dataLength, ⟨by decide, by decide, rfl, .inl ⟨by decide, by decide⟩⟩,
    rfl, rfl⟩

/-- The last register, with a byte count of 2, against a base equal to it and the lowest base. -/
theorem witness_SharedByteDecodesAsStandalone :
    sF.codecs.inputByteCount (raw 2) ≤ 2 ∧ sF.codecs.outputByteCount (raw 2) ≤ 2 ∧
    (0x0FFF : Word16).toNat ≤ 0x0FFF ∧ 0x0FFF ≤ 0x0FFF ∧
    ([0xABCD] : List Word16)[0x0FFF - (0x0FFF : Word16).toNat]? = some 0xABCD ∧
    (0 : Word16).toNat ≤ 0 ∧ ([0xABCD] : List Word16)[0 - (0 : Word16).toNat]? = some 0xABCD := by decide

/-- V-MAP-E1: a bit-0 module, then a bit-8 module of the same register. -/
theorem encodes_E1 : EncodesTo sF.codecs 0x0800
    ([(raw 1, atOut 0x8000), (raw 1, atOut 0x8008)].zip [[.bytes [0x34]], [.bytes [0x12]]]) [] [0x1234] :=
  ⟨[0x0034], [0x0034], rfl, ⟨by decide, .inl ⟨rfl, rfl, rfl⟩⟩, [0x0012], [0x1234], rfl,
    ⟨by decide, .inr ⟨rfl, rfl, [], 0x0034, 0x0012, [], 0x1234, rfl, rfl, rfl, rfl⟩⟩, rfl⟩

theorem witness_MapEncodeBuildsTheImage :
    [(raw 1, atOut 0x8000), (raw 1, atOut 0x8008)].length =
      [[ChannelValue.bytes [0x34]], [.bytes [0x12]]].length ∧
    EncodesTo sF.codecs 0x0800
      ([(raw 1, atOut 0x8000), (raw 1, atOut 0x8008)].zip [[.bytes [0x34]], [.bytes [0x12]]]) []
      [0x1234] := ⟨rfl, encodes_E1⟩

/-- An arity mismatch; then, after the encode of V-MAP-E1, each branch: the codec's error, a register
below the base, a gap, a bit-8 module past its register, one with no words, an illegal bit. -/
theorem witness_MapEncodeErrorOrder :
    [(di4, atIn 0)].length ≠ ([] : List (List ChannelValue)).length ∧
    (atOut 0x8010).output = some 0x8010 ∧
    EncodeRaises sF.codecs 0x0800 (raw 1) [.none] 0x0000 [0x1234] .channelValue ∧
    EncodeRaises sF.codecs 0x0800 (raw 1) [.bytes [1]] 0x7FF8 [0x1234] .moduleOffset ∧
    EncodeRaises sF.codecs 0x0800 (raw 1) [.bytes [1]] 0x8020 [0x1234] .moduleOffset ∧
    EncodeRaises sF.codecs 0x0800 (raw 1) [.bytes [1]] 0x8018 [0x1234] .moduleOffset ∧
    EncodeRaises sF.codecs 0x0800 (raw 1) [.bytes []] 0x8008 [0x1234] .bufferLength ∧
    EncodeRaises sF.codecs 0x0800 (raw 1) [.bytes [1]] 0x8014 [0x1234] .moduleOffset :=
  ⟨by decide, rfl, .inl ⟨.channelValue, rfl, rfl⟩, .inr ⟨[1], rfl, rfl⟩,
    .inr ⟨[1], rfl, by decide, rfl⟩, .inr ⟨[1], rfl, rfl⟩, .inr ⟨[], rfl, rfl, rfl⟩,
    .inr ⟨[1], rfl, rfl⟩⟩

theorem witness_MapEncodeIsContiguous :
    exec (.mapEncode [(di4, atIn 0), (raw 1, atOut 0x8000)] 0x0800 [[], [.bytes [7]]]) sF =
      .next { sF with response := some (.ok (.words [7])) } ∧
    ([(di4, atIn 0), (raw 1, atOut 0x8000)].filterMap fun m => m.2.output).head? = some 0x8000 :=
  ⟨rfl, rfl⟩

theorem witness_SharedRegisterRoundTrips :
    0x0FFF ≤ 0x0FFF ∧ sF.codecs.encodeOutput (raw 1) [.bytes [0x34]] = .ok [0x0034] ∧
    sF.codecs.encodeOutput (raw 3) [.bytes [0x12, 0xAB, 0xCD]] = .ok (0xAB12 :: [0x00CD]) ∧
    sF.codecs.outputByteCount (raw 3) ≤ 3 ∧
    sF.codecs.decodeOutput (raw 3) [(0xAB12 : Word16) &&& 0x00FF] = .ok [.bytes [0x12, 0x00]] := by decide

theorem witness_SeqNewMakesAFreshInstance :
    FrameLen.len8.bytes = 8 ∧ FrameLen.len16.bytes = 16 ∧ 9 ≠ 8 ∧ 9 ≠ 16 := by decide

theorem witness_UnknownKeyRaisesAddress : mapGet (with0 (done 4 [] [])).seq 1 = none := rfl

theorem witness_SeqNextInitialises :
    mapGet (with0 { done 4 [] [] with initState := .clearBuffers }).seq 0 =
      some { done 4 [] [] with initState := .clearBuffers } ∧
    mapGet (with0 { done 4 [] [] with initState := .reset }).seq 0 =
      some { done 4 [] [] with initState := .reset } ∧
    ({ done 4 [] [] with initState := .clearBuffers } : SeqState).initState ≠ .done ∧
    ({ done 4 [] [] with initState := .reset } : SeqState).initState ≠ .done := by decide

/-- A capacity filled to the last byte; each clause's condition. -/
theorem witness_SeqNextTransfers :
    let s : State := { with0 (done 4 [1] [[0x41]]) with params := ⟨.fixture, some 3, none⟩ }
    let i : FrameIn := { fi0 with dataAvailable := true, data := [2, 3] }
    mapGet s.seq 0 = some (done 4 [1] [[0x41]]) ∧ (done 4 [1] [[0x41]]).initState = .done ∧
    (∀ cap, s.params.inBufCap = some cap → i.dataAvailable = true →
      i.rxCnt ≠ (done 4 [1] [[0x41]]).lastRxCnt → (done 4 [1] [[0x41]]).inData.length + i.data.length ≤ cap) ∧
    (done 4 [1] [[0x41]]).outData = [0x41] :: [] ∧ (i.txCntAck.toNat + 1) % 4 ≠ fo0.txCnt.toNat ∧
    (fi0.txCntAck.toNat + 1) % 4 = ({ fo0 with txCnt := 1 } : FrameOut).txCnt.toNat ∧
    i.dataAvailable = true ∧ i.rxCnt ≠ (done 4 [1] [[0x41]]).lastRxCnt ∧ fi0.dataAvailable = false := by
  refine ⟨rfl, rfl, ?_, by decide⟩
  rintro cap ⟨⟩ - -
  decide

/-- One byte over the capacity. -/
theorem witness_InboundOverflowRaisesBufferLength :
    let s : State := { with0 (done 4 [1] []) with params := ⟨.fixture, some 2, none⟩ }
    let i : FrameIn := { fi0 with dataAvailable := true, data := [2, 3] }
    mapGet s.seq 0 = some (done 4 [1] []) ∧ (done 4 [1] []).initState = .done ∧
    s.params.inBufCap = some 2 ∧ i.dataAvailable = true ∧ i.rxCnt ≠ (done 4 [1] []).lastRxCnt ∧
    2 < (done 4 [1] []).inData.length + i.data.length := by decide

theorem witness_EverySeqNextAcknowledges :
    ∃ t, exec (.seqNext 0 { fi0 with rxCnt := 2 } fo0) (with0 (done 4 [] [])) = .next t ∧
      t.response = some (.ok (.frame { fo0 with rxCntAck := 2 })) := ⟨_, rfl, rfl⟩

theorem witness_StallIsIdempotent :
    let p := done 0 [] [[0x42]]
    let o : FrameOut := { fo0 with txCnt := 0 }
    let i : FrameIn := { fi0 with dataAvailable := true, txCntAck := 3 }
    mapGet (with0 p).seq 0 = some p ∧ p.initState = .done ∧ p.outData ≠ [] ∧
    o.txCnt.toNat = (i.txCntAck.toNat + 1) % 4 ∧
    (i.dataAvailable = false ∨ i.rxCnt = p.lastRxCnt) := by decide

theorem witness_SequenceCountWrapsAround :
    let p := done 0 [] [[0x43]]
    mapGet (with0 p).seq 0 = some p ∧ p.initState = .done ∧ p.outData = [0x43] :: [] ∧
    ({ fi0 with txCntAck := 3 } : FrameIn).dataAvailable = false ∧
    ({ fi0 with txCntAck := 3 } : FrameIn).txCntAck = 3 ∧
    ({ fo0 with txCnt := 3 } : FrameOut).txCnt = 3 := by decide

theorem witness_InitialisationSequence :
    let p : SeqState := { done 0 [] [[0x41]] with initState := .clearBuffers }
    mapGet (with0 p).seq 0 = some p ∧ p.initState = .clearBuffers ∧ p.outData = [0x41] :: [] ∧
    ∀ cap, (with0 p).params.inBufCap = some cap → fi0.dataAvailable = true → fi0.rxCnt ≠ 4 →
      p.inData.length + fi0.data.length ≤ cap :=
  ⟨rfl, rfl, rfl, nofun⟩

/-- Seven bytes are two chunks of at most six; a queue with room for exactly two, and for one. -/
theorem witness_WriteQueuesChunks :
    mapGet (with0 (done 4 [] [])).seq 0 = some (done 4 [] []) ∧
    IsCeil (List.replicate 7 (0x41 : Byte)).length (done 4 [] []).processDataLen.userDataLen 2 ∧
    (∀ cap, (⟨.fixture, none, some 2⟩ : Params).outQCap = some cap →
      (done 4 [] []).outData.length + 2 ≤ cap) ∧
    ((⟨.fixture, none, some 1⟩ : Params).outQCap = some 1 ∧ 1 < (done 4 [] []).outData.length + 2) := by
  refine ⟨rfl, ⟨by decide, fun j hj => ?_⟩, ?_, by decide⟩
  · simp only [List.length_replicate, done, FrameLen.userDataLen] at hj
    omega
  · rintro cap ⟨⟩
    decide

theorem witness_ReadDrainsTheBuffer :
    mapGet (with0 (done 1 [1, 2] [])).seq 0 = some (done 1 [1, 2] []) := rfl

theorem witness_LoopbackDeliversTheByteStream :
    let p := done 4 [] []
    let bytes : List Byte := List.replicate 21 0x41
    mapGet (with0 p).seq 0 = some p ∧ p.initState = .done ∧ p.inData = [] ∧ p.outData = [] ∧
    (with0 p).params.inBufCap = none ∧ (with0 p).params.outQCap = none ∧ bytes ≠ [] ∧
    p.lastRxCnt.toNat ≠ (fo0.txCnt.toNat + 1) % 4 ∧
    IsCeil bytes.length p.processDataLen.userDataLen 4 := by
  refine ⟨rfl, rfl, rfl, rfl, rfl, rfl, by decide, by decide, by decide, fun j hj => ?_⟩
  simp only [List.length_replicate, done, FrameLen.userDataLen] at hj
  omega

theorem witness_ProducedFramesPassTheContract :
    mapGet (with0 (done 4 [] [[0x41]])).seq 0 = some (done 4 [] [[0x41]]) ∧
    SoundInstance (with0 (done 4 [] [[0x41]])).params (done 4 [] [[0x41]]) ∧
    LegalIn { fi0 with txCntAck := 3, rxCnt := 3 } ∧ LegalOut { fo0 with txCnt := 3 } ∧
    fo0.data.length ≤ (done 4 [] [[0x41]]).processDataLen.userDataLen ∧
    ∃ t, exec (.seqNext 0 { fi0 with txCntAck := 3, rxCnt := 3 } { fo0 with txCnt := 3 })
      (with0 (done 4 [] [[0x41]])) = .next t ∧
      t.response = some (.ok (.frame { fo0 with active := true, rxCntAck := 3, data := [0x41] })) :=
  ⟨rfl, sound_done, ⟨by decide, by decide⟩, ⟨by decide, by decide⟩, by decide, _, rfl, rfl⟩

theorem witness_CplNewCommitsTheConfiguration :
    ([[8], []] : List (List Word16)).length = [Fixture.type (.tun .len8), Fixture.type .do4].length ∧
    ([0x8000, 0, 0x8040, 0xFFFF] : List Word16).length =
      2 * [Fixture.type (.tun .len8), Fixture.type .do4].length ∧
    List.Forall₂ (fun tp c => sF.codecs.fromParameters tp.1 tp.2 = .ok c)
      ([Fixture.type (.tun .len8), Fixture.type .do4].zip [[8], []]) [tun8, do4] :=
  ⟨rfl, rfl, .cons rfl (.cons rfl .nil)⟩

/-- One parameter list too many; one offset word too few; a second module that does not construct. -/
theorem witness_CplNewErrorOrder :
    ([[], []] : List (List Word16)).length ≠ [Fixture.type .di4].length ∧
    ([0xFFFF] : List Word16).length ≠ 2 * [Fixture.type .di4].length ∧
    [Fixture.type .di4, Fixture.type (.tun .len8)].zip ([[], []] : List (List Word16)) =
      [(Fixture.type .di4, [])] ++ (Fixture.type (.tun .len8), []) :: [] ∧
    List.Forall₂ (fun tp c => sF.codecs.fromParameters tp.1 tp.2 = .ok c)
      [(Fixture.type .di4, ([] : List Word16))] [di4] ∧
    sF.codecs.fromParameters (Fixture.type (.tun .len8)) [] = .error .bufferLength :=
  ⟨by decide, by decide, rfl, .cons rfl .nil, rfl⟩

theorem witness_EncodeOrderIsAStableSort :
    ∃ t, exec (.cplNew [Fixture.type .do4, Fixture.type .di4, Fixture.type .do4] [[], [], []]
        [0x8010, 0xFFFF, 0xFFFF, 0, 0x8000, 0xFFFF]) sF = .next t ∧
      t.response = some (.ok .none) ∧ t.encOrder = [2, 0, 1] := ⟨_, rfl, rfl, rfl⟩

/-- The last channel of a module, the channel past it, and the module past the last. -/
theorem witness_SetOutputPendsOneWrite :
    (sA.modules[(⟨1, 3⟩ : Address).module]? = some do4 ∧
      (⟨1, 3⟩ : Address).channel < sA.codecs.channelCount do4) ∧
    (∀ c, sA.modules[(⟨1, 4⟩ : Address).module]? = some c →
      sA.codecs.channelCount c ≤ (⟨1, 4⟩ : Address).channel) ∧
    ∀ c, sA.modules[(⟨2, 0⟩ : Address).module]? = some c →
      sA.codecs.channelCount c ≤ (⟨2, 0⟩ : Address).channel := by
  refine ⟨⟨rfl, by decide⟩, ?_, nofun⟩
  rintro c ⟨⟩
  decide

/-- A tunnel module and a plain module, each with a pending write. -/
theorem witness_CompletedCycleFollowsTheRules :
    SoundState sM ∧ ∃ t, exec (.cplNext [0, 0, 0, 0] [0, 0, 0, 0, 0]) sM = .next t ∧
      t.response = some (.ok (.cycle [0x1101, 0x0041, 0, 0, 0x0004] [])) := ⟨sound_sM, _, rfl, rfl⟩

/-- The four-word window of a tunnel module at the start of an image. -/
theorem isWindow_start {o : BitAddress} {base w0 w1 w2 w3 : Word16} {rest : List Word16}
    (ho : o.toNat = 16 * base.toNat) :
    IsWindow o 8 base (w0 :: w1 :: w2 :: w3 :: rest) [w0, w1, w2, w3] := by
  have hs : o.toNat / 16 = base.toNat := by omega
  refine ⟨hs.ge, ?_, rfl, .inl ⟨by omega, fun k hk => ?_⟩⟩
  · rw [hs, Nat.sub_self]
    simp
  · rw [hs, Nat.sub_self, Nat.zero_add]
    match k, hk with
    | 0, _ => rfl
    | 1, _ => rfl
    | 2, _ => rfl
    | 3, _ => rfl
    | n + 4, hk => exact absurd hk (by simp)

theorem decodes_tun8_in {w0 w1 : Word16} {fi : FrameIn} {off : Option BitAddress}
    (h : fixtureCodecs.decodeInput tun8 [w0, w1, 0, 0] = .ok [.tunnelIn fi]) :
    DecodesInput fixtureCodecs 0x0000 [w0, w1, 0, 0] (tun8, ⟨some 0x0000, off⟩) [.tunnelIn fi] :=
  .inr ⟨0x0000, [w0, w1, 0, 0], rfl, isWindow_start rfl, h⟩

theorem decodes_tun8_out {w0 w1 : Word16} {rest : List Word16} {fo : FrameOut} {off : Option BitAddress}
    (h : fixtureCodecs.decodeOutput tun8 [w0, w1, 0, 0] = .ok [.tunnelOut fo]) :
    DecodesOutput fixtureCodecs 0x0800 (w0 :: w1 :: 0 :: 0 :: rest) (tun8, ⟨off, some 0x8000⟩)
      [.tunnelOut fo] :=
  .inr ⟨0x8000, [w0, w1, 0, 0], rfl, isWindow_start rfl, h⟩

/-- A cycle of a tunnel module that sends its chunk and queues its pending write, and of a plain module
that takes its own. -/
theorem witness_CycleCompletes :
    let out : FrameOut := { fo0 with active := true, txCnt := 1, data := [0x41] }
    let bits : List ChannelValue := [.bit false, .bit false, .bit true, .bit false]
    SoundState sM ∧
    List.Forall₂ (DecodesInput sM.codecs 0x0000 [0, 0, 0, 0]) (configured sM)
      [[.tunnelIn fi0], [.none, .none, .none, .none]] ∧
    List.Forall₂ (DecodesOutput sM.codecs 0x0800 [0, 0, 0, 0, 0]) (configured sM)
      [[.tunnelOut fo0], [.bit false, .bit false, .bit false, .bit false]] ∧
    [[ChannelValue.tunnelOut out], bits].length = sM.modules.length ∧
    ModuleReady sM 0 tun8 [.tunnelIn fi0] [.tunnelOut fo0] [.tunnelOut out] ∧
    ModuleReady sM 1 do4 [.none, .none, .none, .none]
      [.bit false, .bit false, .bit false, .bit false] bits ∧
    EncodesTo sM.codecs 0x0800 ((encMods sM).zip (encValues sM [[.tunnelOut out], bits])) []
      [0x1101, 0x0041, 0, 0, 0x0004] := by
  refine ⟨sound_sM, .cons (decodes_tun8_in rfl) (.cons (.inl ⟨rfl, rfl⟩) .nil),
    .cons (decodes_tun8_out rfl) (.cons (.inr ⟨0x8040, [0], rfl, ?_, rfl⟩) .nil), rfl, ?_, ?_,
    ⟨[0x1101, 0x0041, 0, 0], [0x1101, 0x0041, 0, 0], rfl, ⟨by decide, .inl ⟨rfl, rfl, rfl⟩⟩,
      [0x0004], [0x1101, 0x0041, 0, 0, 0x0004], rfl, ⟨by decide, .inl ⟨rfl, rfl, rfl⟩⟩, rfl⟩⟩
  · exact ⟨by decide, by decide, rfl, .inl ⟨by decide, by decide⟩⟩
  · refine ⟨⟨_, ⟨rfl, nofun, nofun, fun _ => ?_, fun _ h => ?_⟩, rfl⟩, nofun, nofun⟩
    · decide
    · exact absurd ⟨rfl, nofun, by decide⟩ h
  · refine ⟨rfl, fun ch => ?_⟩
    match ch with
    | 0 => exact rfl
    | 1 => exact rfl
    | 2 => exact ⟨by decide, rfl⟩
    | 3 => exact rfl
    | n + 4 => exact rfl

/-- One byte over IN_BUF_CAP; a pending value that is no `Bytes`; one chunk over OUT_Q_CAP after an
advance that sends, and after one that does not. -/
theorem witness_CycleReportsTunnelErrors :
    let fi : FrameIn := { fi0 with dataAvailable := true, data := [0x68] }
    let fo : FrameOut := { fo0 with txCnt := 1 }
    (∀ a b w, List.Forall₂ (DecodesInput (sC a b w).codecs 0x0000 [0x1001, 0x0068, 0, 0])
      (configured (sC a b w)) [[.tunnelIn fi]]) ∧
    (∀ a b w, List.Forall₂ (DecodesOutput (sC a b w).codecs 0x0800 [0, 0, 0, 0])
      (configured (sC a b w)) [[.tunnelOut fo0]]) ∧
    (∀ a b w, List.Forall₂ (DecodesOutput (sC a b w).codecs 0x0800 [0x0100, 0, 0, 0])
      (configured (sC a b w)) [[.tunnelOut fo]]) ∧
    TunnelRaises (sC (some 0) none [(⟨0, 0⟩, .disabled)]) 0 [.tunnelIn fi] [.tunnelOut fo0] .bufferLength ∧
    TunnelRaises (sC (some 1) none [(⟨0, 0⟩, .disabled)]) 0 [.tunnelIn fi] [.tunnelOut fo0] .channelValue ∧
    TunnelRaises (sC none (some 1) [(⟨0, 0⟩, .bytes seven)]) 0 [.tunnelIn fi] [.tunnelOut fo0]
      .bufferLength ∧
    TunnelRaises (sC none (some 2) [(⟨0, 0⟩, .bytes seven)]) 0 [.tunnelIn fi] [.tunnelOut fo]
      .bufferLength := by
  have two : IsCeil seven.length FrameLen.len8.userDataLen 2 := by
    refine ⟨by decide, fun j hj => ?_⟩
    simp only [seven, List.length_replicate, FrameLen.userDataLen] at hj
    omega
  refine ⟨fun _ _ _ => .cons (decodes_tun8_in rfl) .nil, fun _ _ _ => .cons (decodes_tun8_out rfl) .nil,
    fun _ _ _ => .cons (decodes_tun8_out rfl) .nil, .inl ⟨⟨0, rfl, ⟨rfl, rfl, by decide⟩, by decide⟩, rfl⟩,
    .inr ⟨?_, rfl⟩, .inr ⟨nofun, rfl, 1, 2, rfl, two, fun _ => by decide, fun h => ?_⟩,
    .inr ⟨nofun, rfl, 2, 2, rfl, two, fun h => ?_, fun _ => by decide⟩⟩
  · rintro ⟨cap, ⟨⟩, -, h⟩
    revert h
    decide
  · exact absurd ⟨rfl, nofun, by decide⟩ h
  · exact absurd rfl h.2.2

/-- A codec that decodes no value for a module of one channel. -/
theorem witness_CycleReportsPlainWriteErrors :
    List.Forall₂ (DecodesInput sP.codecs 0x0000 []) (configured sP) [[.none]] ∧
    List.Forall₂ (DecodesOutput sP.codecs 0x0800 [0]) (configured sP) [[]] ∧
    TunnelReady sP 0 [.none] [] ∧ sP.modules[0]? = some ⟨10⟩ ∧ PlainRaises sP 0 ⟨10⟩ [] :=
  ⟨.cons (.inl ⟨rfl, rfl⟩) .nil,
    .cons (.inr ⟨0x8000, [0], rfl, ⟨by decide, by decide, rfl, .inl ⟨by decide, by decide⟩⟩, rfl⟩) .nil,
    trivial, rfl, rfl, 0, .none, by decide, rfl, by decide⟩

/-- V-CPL-14. -/
theorem witness_CycleReportsEncodeErrors :
    let s : State := { sA with write := [(⟨1, 0⟩, .decimal32 0x3F800000)] }
    let ov' : List (List ChannelValue) :=
      [[.none, .none, .none, .none], [.decimal32 0x3F800000, .bit false, .bit false, .bit false]]
    SoundState s ∧
    List.Forall₂ (DecodesInput s.codecs 0x0000 [0]) (configured s)
      [[.bit false, .bit false, .bit false, .bit false], [.none, .none, .none, .none]] ∧
    List.Forall₂ (DecodesOutput s.codecs 0x0800 [0]) (configured s)
      [[.none, .none, .none, .none], [.bit false, .bit false, .bit false, .bit false]] ∧
    ov'.length = s.modules.length ∧
    ModuleReady s 0 di4 [.bit false, .bit false, .bit false, .bit false]
      [.none, .none, .none, .none] [.none, .none, .none, .none] ∧
    ModuleReady s 1 do4 [.none, .none, .none, .none] [.bit false, .bit false, .bit false, .bit false]
      [.decimal32 0x3F800000, .bit false, .bit false, .bit false] ∧
    exec (.mapEncode (encMods s) 0x0800 (encValues s ov')) s =
      .next { s with response := some (.error .channelValue) } := by
  refine ⟨sound_sA_pending, .cons (.inr ⟨0x0000, [0], rfl, ?_, rfl⟩) (.cons (.inl ⟨rfl, rfl⟩) .nil),
    .cons (.inl ⟨rfl, rfl⟩) (.cons (.inr ⟨0x8000, [0], rfl, ?_, rfl⟩) .nil), rfl, ⟨rfl, fun ch => ?_⟩,
    ⟨rfl, fun ch => ?_⟩, rfl⟩
  · exact ⟨by decide, by decide, rfl, .inl ⟨by decide, by decide⟩⟩
  · exact ⟨by decide, by decide, rfl, .inl ⟨by decide, by decide⟩⟩
  · match ch with
    | 0 => exact rfl
    | 1 => exact rfl
    | 2 => exact rfl
    | 3 => exact rfl
    | n + 4 => exact rfl
  · match ch with
    | 0 => exact ⟨by decide, rfl⟩
    | 1 => exact rfl
    | 2 => exact rfl
    | 3 => exact rfl
    | n + 4 => exact rfl

/-- An input image that does not decode; one that does, beside an output image that does not. -/
theorem witness_CycleReportsDecodeErrorsFirst :
    exec (.mapDecodeIn (configured sA) 0x0000 []) sA =
      .next { sA with response := some (.error .bufferLength) } ∧
    exec (.mapDecodeIn (configured sA) 0x0000 [0]) sA =
      .next { sA with response := some (.ok (.values
        [[.bit false, .bit false, .bit false, .bit false], [.none, .none, .none, .none]])) } ∧
    exec (.mapDecodeOut (configured sA) 0x0800 []) sA =
      .next { sA with response := some (.error .bufferLength) } := ⟨rfl, rfl, rfl⟩

end Sys2Proof.Tests
end

