-- ==== Sys2Proof/Proofs/AddressCodec.lean ====
section
/-! PROOFS. Unit 0, the address codec: each of its operations answers from its operands and the module
table alone, and writes the response port only (40_address_codec.md). -/

namespace Sys2Proof.Proofs.AddressCodec

open Sys2Proof Sys2Proof.Machine

/-! ### Operations that write no state -/

/-- The response that carries an operation's result or its error (R165, R179). -/
def responseOf : Except Err Result → Response
  | .ok r => .ok r
  | .error e => .error e

@[simp] theorem responseOf_ok (r : Result) : responseOf (.ok r) = .ok r := rfl
@[simp] theorem responseOf_error (e : Err) : responseOf (.error e) = .error e := rfl

/-- An operation that hands its own state on writes the response port only, whether it raises or not. -/
theorem finish_stateless {α : Type} (s : State) (x : Except Err α) (f : α → Result) :
    s.finish (do let a ← x; .ok (s, f a)) =
      .next { s with response := some (responseOf (x.map f)) } := by
  cases x with
  | error e => exact finish_error s e
  | ok a => exact finish_ok s s (f a)

/-! ### What each operation of unit 0 answers -/

theorem exec_baSplit (addr : Word16) (s : State) :
    exec (.baSplit addr) s =
      .next { s with response := some (.ok (.split (registerOf addr) (bitOf addr))) } :=
  (exec_eq_finish _ s).trans (finish_ok s s _)

theorem exec_baJoin (register bit : Nat) (s : State) :
    exec (.baJoin register bit) s =
      .next { s with response := some (responseOf ((joinAddr register bit).map .addr)) } :=
  (exec_eq_finish _ s).trans (finish_stateless s _ _)

theorem exec_baOffsets (flat : List Word16) (s : State) :
    exec (.baOffsets flat) s =
      .next { s with response := some (responseOf ((parseOffsets flat).map .offsets)) } :=
  (exec_eq_finish _ s).trans (finish_stateless s _ _)

theorem exec_baModlist (regs : List Word16) (s : State) :
    exec (.baModlist regs) s =
      .next { s with response := some (responseOf ((parseModlist s.codecs regs).map .types)) } :=
  (exec_eq_finish _ s).trans (finish_stateless s _ _)

/-! ### Of the codec family, BA_MODLIST reads KNOWN_MODULES alone -/

theorem lookupTypes_congr {C C' : Codecs} (h : C.typeOfId = C'.typeOfId) (ids : List Word32) :
    lookupTypes C ids = lookupTypes C' ids := by
  induction ids with
  | nil => rfl
  | cons id rest ih => rw [lookupTypes, lookupTypes, h, ih]

theorem parseModlist_congr {C C' : Codecs} (h : C.typeOfId = C'.typeOfId) (regs : List Word16) :
    parseModlist C regs = parseModlist C' regs := by
  rw [parseModlist, parseModlist, lookupTypes_congr h]

/-! ### The obligations -/

/-- Settles O25: three of the operations answer from their operands, and BA_MODLIST's lookups see equal
module tables. -/
theorem unitZeroIsStateless : Obligations.UnitZeroIsStateless := by
  intro i hi s s' h
  cases i with
  | baSplit addr => exact ⟨_, exec_baSplit addr s, exec_baSplit addr s'⟩
  | baJoin register bit => exact ⟨_, exec_baJoin register bit s, exec_baJoin register bit s'⟩
  | baOffsets flat => exact ⟨_, exec_baOffsets flat s, exec_baOffsets flat s'⟩
  | baModlist regs =>
    refine ⟨_, exec_baModlist regs s, ?_⟩
    rw [parseModlist_congr h]
    exact exec_baModlist regs s'
  | _ => simp [Instr.opcode] at hi

/-- Settles O20: the two fields of the address are its quotient and remainder by 16, which the shift and
the mask of R89 compute. -/
theorem baSplitGivesRegisterAndBit : Obligations.BaSplitGivesRegisterAndBit := by
  refine ⟨rfl, fun addr s => ⟨registerOf addr, bitOf addr, exec_baSplit addr s, ?_, ?_⟩⟩
  · rw [registerOf_toNat, Nat.shiftRight_eq_div_pow]
  · exact (bitOf_toNat addr).trans (Nat.and_two_pow_sub_one_eq_mod addr.toNat 4).symm

end Sys2Proof.Proofs.AddressCodec
end

