-- ==== Sys2Proof/Proofs/Mapper.lean ====
section
/-! PROOFS. Unit 1, the mapper: a one-word window at bit 8 is the high byte of its register, and DECODE
reads its image through the window alone (41_mapper.md). -/

namespace Sys2Proof.Proofs.Mapper

open Sys2Proof Sys2Proof.Machine Sys2Proof.Proofs.AddressCodec

/-! ### The one-word window -/

theorem wordCount_eq_one {byteCount : Nat} (h : byteCount ≤ 2) : wordCount byteCount = 1 := by
  rw [wordCount]
  omega

/-- The high byte of a register over a zero byte is the register shifted right by 8 (R102, R104). -/
theorem shift8_single_eq_shiftRight (w : Word16) : shift8 [w] = [w >>> 8] := by
  have hpad : ((0x00 : Byte) ++ highByte w : Word16) = w >>> 8 := by
    apply BitVec.eq_of_toNat_eq
    rw [pair_toNat, highByte_toNat, BitVec.toNat_ushiftRight, Nat.shiftRight_eq_div_pow]
    simp
  rw [shift8_single, hpad]

/-- The raw word of a window of one register (R100). -/
theorem windowWords_one {data : List Word16} {start : Nat} {w : Word16} (h : data[start]? = some w) :
    (data.drop start).take 1 = [w] := by
  rw [List.take_one, List.head?_drop, h, Option.toList_some]

/-- A byte count of at most 2 at bit 0 gives the register's word (R100, R101). -/
theorem window_bit0_one {o : BitAddress} {byteCount : Nat} {base : Word16} {data : List Word16}
    {w : Word16} (hn : byteCount ≤ 2) (hbit : o.toNat % 16 = 0) (hbase : base.toNat ≤ o.toNat / 16)
    (hw : data[o.toNat / 16 - base.toNat]? = some w) : window o byteCount base data = .ok [w] := by
  obtain ⟨hlt, -⟩ := List.getElem?_eq_some_iff.1 hw
  rw [window_ok_iff, wordCount_eq_one hn, windowWords_one hw]
  exact ⟨hbase, hlt, .inl ⟨hbit, rfl⟩⟩

/-- A byte count of at most 2 at bit 8 gives the high byte of the register's word (R100, R102). -/
theorem window_bit8_one {o : BitAddress} {byteCount : Nat} {base : Word16} {data : List Word16}
    {w : Word16} (hn : byteCount ≤ 2) (hbit : o.toNat % 16 = 8) (hbase : base.toNat ≤ o.toNat / 16)
    (hw : data[o.toNat / 16 - base.toNat]? = some w) :
    window o byteCount base data = .ok [w >>> 8] := by
  obtain ⟨hlt, -⟩ := List.getElem?_eq_some_iff.1 hw
  rw [window_ok_iff, wordCount_eq_one hn, windowWords_one hw, shift8_single_eq_shiftRight]
  exact ⟨hbase, hlt, .inr ⟨hbit, rfl⟩⟩

/-- R104 on windows: the shared byte's window is that of a standalone register holding the high byte. -/
theorem window_sharedByte {register byteCount : Nat} {base : Word16} {data : List Word16} {w : Word16}
    (hn : byteCount ≤ 2) (hbase : base.toNat ≤ register) (hreg : register ≤ 0x0FFF)
    (hw : data[register - base.toNat]? = some w) :
    window (BitVec.ofNat 16 (16 * register + 8)) byteCount base data =
      window 0x0000 byteCount 0 [w >>> 8] := by
  have haddr : (BitVec.ofNat 16 (16 * register + 8)).toNat = 16 * register + 8 := by
    rw [BitVec.toNat_ofNat]
    omega
  have hdiv : (16 * register + 8) / 16 = register := by omega
  have hshared : window (BitVec.ofNat 16 (16 * register + 8)) byteCount base data =
      .ok [w >>> 8] := by
    apply window_bit8_one hn <;> rw [haddr]
    · omega
    · rwa [hdiv]
    · rwa [hdiv]
  have halone : window 0x0000 byteCount 0 [w >>> 8] = .ok [w >>> 8] :=
    window_bit0_one hn rfl (Nat.le_refl 0) rfl
  rw [hshared, halone]

/-! ### DECODE of one module -/

/-- A module's decode reads its offset, the base and the data through the window alone (R99). -/
theorem decodeModule_congr_window {n byteCount : Nat} {o o' : BitAddress} {base base' : Word16}
    {data data' : List Word16} {dec : List Word16 → Except CodecError (List ChannelValue)}
    (h : window o byteCount base data = window o' byteCount base' data') :
    decodeModule n (some o) byteCount dec base data =
      decodeModule n (some o') byteCount dec base' data' := by
  simp only [decodeModule, h]

theorem decodeModules_singleton (C : Codecs)
    (view : CodecInst → ModuleOffset →
      Option BitAddress × Nat × (List Word16 → Except CodecError (List ChannelValue)))
    (base : Word16) (data : List Word16) (c : CodecInst) (off : ModuleOffset) :
    decodeModules C view base data [(c, off)] =
      (decodeModule (C.channelCount c) (view c off).1 (view c off).2.1 (view c off).2.2 base data).map
        ([·]) := by
  simp only [decodeModules]
  cases decodeModule (C.channelCount c) (view c off).1 (view c off).2.1 (view c off).2.2 base data <;>
    rfl

/-! ### What the decode operations answer -/

theorem exec_mapDecodeIn (mods : List (CodecInst × ModuleOffset)) (base : Word16)
    (data : List Word16) (s : State) :
    exec (.mapDecodeIn mods base data) s =
      .next { s with
        response := some (responseOf ((decodeInputs s.codecs mods base data).map .values)) } :=
  (exec_eq_finish _ s).trans (finish_stateless s _ _)

theorem exec_mapDecodeOut (mods : List (CodecInst × ModuleOffset)) (base : Word16)
    (data : List Word16) (s : State) :
    exec (.mapDecodeOut mods base data) s =
      .next { s with
        response := some (responseOf ((decodeOutputs s.codecs mods base data).map .values)) } :=
  (exec_eq_finish _ s).trans (finish_stateless s _ _)

/-! ### The obligation -/

/-- Settles O28: in either direction the two modules have the same window, and the answer depends on the
offset, the base and the data through it alone. -/
theorem sharedByteDecodesAsStandalone : Obligations.SharedByteDecodesAsStandalone := by
  intro c register base data w s hbase hreg hw
  refine ⟨fun hin => ?_, fun hout => ?_⟩
  · have hdecode := decodeModule_congr_window (n := s.codecs.channelCount c)
      (dec := s.codecs.decodeInput c) (window_sharedByte hin hbase hreg hw)
    simp only [exec_mapDecodeIn, decodeInputs, decodeModules_singleton, inputView, hdecode]
  · have hdecode := decodeModule_congr_window (n := s.codecs.channelCount c)
      (dec := s.codecs.decodeOutput c) (window_sharedByte hout hbase hreg hw)
    simp only [exec_mapDecodeOut, decodeOutputs, decodeModules_singleton, outputView, hdecode]

end Sys2Proof.Proofs.Mapper
end

