-- ==== Sys2Proof/Proofs/Sequencer.lean ====
section
/-! PROOFS. Unit 2, the sequencer: what SEQ_NEXT sends and accepts in the state Done
(42_sequencer.md). -/

namespace Sys2Proof.Proofs.Sequencer

open Sys2Proof Sys2Proof.Machine

/-! ### SEQ_NEXT from one advance -/

/-- An advance that succeeds is SEQ_NEXT's answer: `SEQ[key]` is written, and the frame goes on the
response port (R118). -/
theorem exec_seqNext_of_advance {key : Nat} {input : FrameIn} {output out : FrameOut} {s : State}
    {p q : SeqState} (hp : mapGet s.seq key = some p)
    (hadv : p.advance s.params.inBufCap input output = .ok (q, out)) :
    exec (.seqNext key input output) s =
      .next ((s.setInstance key q).respond (.ok (.frame out))) := by
  have heffect : effect (.seqNext key input output) s = .ok (s.setInstance key q, .frame out) :=
    seqNext_ok_iff.2 ⟨p, q, out, hp, hadv, rfl, rfl⟩
  rw [exec_eq_finish, heffect, finish_ok]

/-! ### The transmit and receive steps by their conditions -/

theorem accepts_eq_false_iff (input : FrameIn) (n : Counter) :
    accepts input n = false ↔ input.dataAvailable = false ∨ input.rxCnt = n := by
  rw [← Bool.not_eq_true, accepts_iff, not_and_or, Bool.not_eq_true, not_not]

section
variable {cap : Option Nat} {p q : SeqState} {input : FrameIn} {output out : FrameOut}
  {chunk : List Byte} {rest : List (List Byte)}

theorem txStep_of_maySend (hq : p.outData = chunk :: rest)
    (hs : maySend input.txCntAck output.txCnt = true) :
    p.txStep input output = ({ p with outData := rest }, sendChunk input.txCntAck chunk output) := by
  rcases txStep_cases p input output with ⟨c, r, hcr, -, htx⟩ | ⟨hnot, -⟩
  · rw [hq] at hcr
    cases hcr
    exact htx
  · simp [hq, hs] at hnot

theorem txStep_of_stall (h : p.outData = [] ∨ maySend input.txCntAck output.txCnt = false) :
    p.txStep input output = (p, output) := by
  rcases txStep_cases p input output with ⟨c, r, hcr, hs, -⟩ | ⟨-, htx⟩
  · simp [hcr, hs] at h
  · exact htx

/-- RX_STEP leaves everything but the buffer and the last count (R121). -/
theorem rxStep_frame (h : p.rxStep cap input = .ok q) :
    q.outData = p.outData ∧ q.initState = p.initState ∧ q.processDataLen = p.processDataLen := by
  rcases rxStep_ok_iff.1 h with ⟨-, -, rfl⟩ | ⟨-, rfl⟩ <;> exact ⟨rfl, rfl, rfl⟩

theorem rxStep_of_accepts (h : p.rxStep cap input = .ok q)
    (ha : accepts input p.lastRxCnt = true) :
    q.inData = p.inData ++ input.data ∧ q.lastRxCnt = input.rxCnt := by
  rcases rxStep_ok_iff.1 h with ⟨-, -, rfl⟩ | ⟨hna, -⟩
  · exact ⟨rfl, rfl⟩
  · simp [ha] at hna

theorem rxStep_of_not_accepts (h : p.rxStep cap input = .ok q)
    (hna : accepts input p.lastRxCnt = false) : q = p := by
  rcases rxStep_ok_iff.1 h with ⟨ha, -⟩ | ⟨-, rfl⟩
  · simp [hna] at ha
  · rfl

/-! ### The advance in Done -/

/-- Where the buffer takes every frame that is accepted, the advance succeeds (R121, R127). -/
theorem exists_advance_ok
    (hfit : accepts input p.lastRxCnt = true →
      fits cap (p.inData.length + input.data.length) = true) :
    ∃ q out, p.advance cap input output = .ok (q, out) := by
  cases hadv : p.advance cap input output with
  | ok r => exact ⟨r.1, r.2, rfl⟩
  | error e =>
    obtain ⟨-, -, ha, hnofit⟩ := advance_error hadv
    simp [hfit ha] at hnofit

/-- In Done the advance is TX_STEP, then RX_STEP, then the acknowledgement (R118). -/
theorem advance_of_done (hd : p.initState = .done)
    (hadv : p.advance cap input output = .ok (q, out)) :
    (p.txStep input output).1.rxStep cap input = .ok q ∧
      out = acknowledge input.rxCnt (p.txStep input output).2 := by
  rw [advance_done hd, bind_ok_iff] at hadv
  obtain ⟨q', hrx, hfin⟩ := hadv
  cases hfin
  exact ⟨hrx, rfl⟩

theorem advance_stays_done (hd : p.initState = .done)
    (hadv : p.advance cap input output = .ok (q, out)) :
    q.initState = .done ∧ q.processDataLen = p.processDataLen := by
  obtain ⟨hlen, ⟨hclear, -⟩ | ⟨-, hdone⟩⟩ := advance_progress hadv
  · simp [hd] at hclear
  · exact ⟨hdone, hlen⟩

/-- A queued chunk whose count is not the one in flight is sent and popped (R120, R122). -/
theorem advance_sends (hd : p.initState = .done)
    (hadv : p.advance cap input output = .ok (q, out)) (hq : p.outData = chunk :: rest)
    (hcnt : (input.txCntAck.toNat + 1) % 4 ≠ output.txCnt.toNat) :
    out = acknowledge input.rxCnt (sendChunk input.txCntAck chunk output) ∧ q.outData = rest := by
  obtain ⟨hrx, hout⟩ := advance_of_done hd hadv
  rw [txStep_of_maySend hq ((maySend_iff _ _).2 hcnt)] at hrx hout
  exact ⟨hout, (rxStep_frame hrx).1⟩

/-- With no chunk queued, or the chunk in flight unacknowledged, the frame is the echo (R120, R122). -/
theorem advance_stalls (hd : p.initState = .done)
    (hadv : p.advance cap input output = .ok (q, out))
    (h : p.outData = [] ∨ (input.txCntAck.toNat + 1) % 4 = output.txCnt.toNat) :
    out = acknowledge input.rxCnt output ∧ q.outData = p.outData := by
  have hstall : p.outData = [] ∨ maySend input.txCntAck output.txCnt = false :=
    h.imp_right fun heq => Bool.eq_false_iff.2 fun hs => (maySend_iff _ _).1 hs heq
  obtain ⟨hrx, hout⟩ := advance_of_done hd hadv
  rw [txStep_of_stall hstall] at hrx hout
  exact ⟨hout, (rxStep_frame hrx).1⟩

/-- Data available with a new count is appended and its count recorded (R121). -/
theorem advance_accepts (hd : p.initState = .done)
    (hadv : p.advance cap input output = .ok (q, out)) (ha : accepts input p.lastRxCnt = true) :
    q.inData = p.inData ++ input.data ∧ q.lastRxCnt = input.rxCnt := by
  obtain ⟨hrx, -⟩ := advance_of_done hd hadv
  obtain ⟨hin, hlast, -⟩ := txStep_frame p input output
  rw [← hin]
  exact rxStep_of_accepts hrx (hlast ▸ ha)

/-- No data, or the last count again, leaves the buffer and the count (R121). -/
theorem advance_ignores (hd : p.initState = .done)
    (hadv : p.advance cap input output = .ok (q, out)) (hna : accepts input p.lastRxCnt = false) :
    q.inData = p.inData ∧ q.lastRxCnt = p.lastRxCnt := by
  obtain ⟨hrx, -⟩ := advance_of_done hd hadv
  obtain ⟨hin, hlast, -⟩ := txStep_frame p input output
  rw [rxStep_of_not_accepts hrx (hlast ▸ hna)]
  exact ⟨hin, hlast⟩

end

/-! ### The obligations -/

/-- Settles O37: the capacity premise makes the advance succeed, and each clause is one condition of
TX_STEP or RX_STEP. -/
theorem seqNextTransfers : Obligations.SeqNextTransfers := by
  intro key input output s p hp hd hcap
  have hfit (ha : accepts input p.lastRxCnt = true) :
      fits s.params.inBufCap (p.inData.length + input.data.length) = true := by
    obtain ⟨havail, hnew⟩ := (accepts_iff _ _).1 ha
    exact (fits_iff _ _).2 fun cap hc => hcap cap hc havail hnew
  obtain ⟨q, out, hadv⟩ := exists_advance_ok (output := output) hfit
  obtain ⟨hdone, hlen⟩ := advance_stays_done hd hadv
  refine ⟨_, out, q, exec_seqNext_of_advance hp hadv, rfl, mapGet_mapSet_self natLt s.seq key q,
    fun k hk => mapGet_mapSet_other natLt s.seq key k q hk, hdone, hlen, ?sends, ?stalls, ?accepts,
    ?ignores⟩
  case sends => exact fun chunk rest hq hcnt => advance_sends hd hadv hq hcnt
  case stalls => exact advance_stalls hd hadv
  case accepts => exact fun havail hnew => advance_accepts hd hadv ((accepts_iff _ _).2 ⟨havail, hnew⟩)
  case ignores => exact fun h => advance_ignores hd hadv ((accepts_eq_false_iff _ _).2 h)

/-- Settles O41: with no inbound data nothing can overflow, and the count after an acknowledged 3 is 0,
which is not the echoed 3. -/
theorem sequenceCountWrapsAround : Obligations.SequenceCountWrapsAround := by
  intro key input output s p chunk rest hp hd hq hnone hack htx
  have hfit (ha : accepts input p.lastRxCnt = true) :
      fits s.params.inBufCap (p.inData.length + input.data.length) = true := by
    simp [(accepts_eq_false_iff _ _).2 (.inl hnone)] at ha
  obtain ⟨q, out, hadv⟩ := exists_advance_ok (output := output) hfit
  have hcnt : (input.txCntAck.toNat + 1) % 4 ≠ output.txCnt.toNat := by
    rw [hack, htx]
    decide
  obtain ⟨rfl, -⟩ := advance_sends hd hadv hq hcnt
  have hwrap : inc input.txCntAck = 0 := by
    rw [hack]
    rfl
  exact ⟨_, _, exec_seqNext_of_advance hp hadv, rfl, hwrap, rfl⟩

end Sys2Proof.Proofs.Sequencer
end

