-- ==== Sys2Proof/Proofs/Controller.lean ====
section
/-! PROOFS. Unit 3, the controller: the validity predicate of an address, the pending write that it
guards, and the two operations that are the sequencer's own (43_controller.md). -/

namespace Sys2Proof.Proofs.Controller

open Sys2Proof Sys2Proof.Machine

/-! ### Address validity -/

/-- An address is not valid where its module is absent or has too few channels (R140). -/
theorem validAddr_eq_false_iff {s : State} {a : Address} :
    s.validAddr a = false ↔
      ∀ c, s.modules[a.module]? = some c → s.codecs.channelCount c ≤ a.channel := by
  rw [← Bool.not_eq_true, validAddr_iff]
  push Not
  rfl

/-! ### What the operations answer -/

theorem exec_cplIsValidAddr (a : Address) (s : State) :
    exec (.cplIsValidAddr a) s =
      .next { s with response := some (.ok (.bool (s.validAddr a))) } :=
  (exec_eq_finish _ s).trans (finish_ok s s _)

/-- At a valid address the value becomes the pending one, whatever its variant (R142, R143). -/
theorem exec_cplSetOutput_of_valid {a : Address} {s : State} (h : s.validAddr a = true)
    (v : ChannelValue) :
    exec (.cplSetOutput a v) s =
      .next { s with write := mapSet addrLt s.write a v, response := some (.ok .none) } := by
  have heffect : effect (.cplSetOutput a v) s =
      .ok ({ s with write := mapSet addrLt s.write a v }, .none) := if_pos h
  rw [exec_eq_finish, heffect, finish_ok]
  rfl

theorem exec_cplSetOutput_of_not_valid {a : Address} {s : State} (h : s.validAddr a = false)
    (v : ChannelValue) :
    exec (.cplSetOutput a v) s = .next { s with response := some (.error .address) } := by
  have heffect : effect (.cplSetOutput a v) s = .error .address := if_neg (Bool.eq_false_iff.1 h)
  rw [exec_eq_finish, heffect, finish_error]
  rfl

/-- `exec` sees an instruction through its effect only. -/
theorem exec_eq_of_effect_eq {i j : Instr} {s : State} (h : effect i s = effect j s) :
    exec i s = exec j s := by
  rw [exec_eq_finish, exec_eq_finish, h]

/-! ### The obligations -/

/-- Settles O50: the answer is the model's predicate, which `validAddr_iff` ties to R140. -/
theorem isValidAddrAnswersThePredicate : Obligations.IsValidAddrAnswersThePredicate :=
  ⟨rfl, fun a s => ⟨s.validAddr a, exec_cplIsValidAddr a s, validAddr_iff⟩⟩

/-- Settles O51: a valid address sets one key of the map of pending writes, so the map laws give the
value there and the frame at every other address. -/
theorem setOutputPendsOneWrite : Obligations.SetOutputPendsOneWrite := by
  refine ⟨rfl, fun a v s => ⟨fun c hc hch => ?valid, fun hinvalid => ?invalid⟩⟩
  case valid =>
    have hvalid : s.validAddr a = true := validAddr_iff.2 ⟨c, hc, hch⟩
    exact ⟨_, exec_cplSetOutput_of_valid hvalid v, rfl, mapGet_mapSet_self addrLt s.write a v,
      fun a' ha' => mapGet_mapSet_other addrLt s.write a a' v ha'⟩
  case invalid =>
    exact exec_cplSetOutput_of_not_valid (validAddr_eq_false_iff.2 hinvalid) v

/-- Settles O53: each operation has the effect of the sequencer operation on the module as key. -/
theorem readerAndWriterAreTheSequencers : Obligations.ReaderAndWriterAreTheSequencers :=
  ⟨rfl, rfl, fun _ _ _ => ⟨exec_eq_of_effect_eq rfl, exec_eq_of_effect_eq rfl⟩⟩

end Sys2Proof.Proofs.Controller
end

