-- ==== Sys2Proof/Proofs/Exceptions.lean ====
section
/-! PROOFS. The errors of the operations (60_exceptions.md). -/

namespace Sys2Proof.Proofs.Exceptions

open Sys2Proof Sys2Proof.Machine

/-- An operation answers an error in one way only: its effect is that error, and the error is raised in
the state before the operation, so nothing the operation computed on the way is kept (R161, R165). -/
theorem exec_response_error {i : Instr} {s t : State} {e : Err} (hexec : exec i s = .next t)
    (hresp : t.response = some (.error e)) : effect i s = .error e ∧ t = s.raise e := by
  rw [exec_eq_finish] at hexec
  exact finish_response_error hexec hresp

/-- Settles O13: the error was raised in `s`, and raising writes the response port alone. -/
theorem errorsWriteNoState : Obligations.ErrorsWriteNoState := by
  intro i s t e hexec hresp
  obtain ⟨-, hraise⟩ := exec_response_error hexec hresp
  calc t = s.raise e := hraise
    _ = { s with response := some (.error e) } := rfl

end Sys2Proof.Proofs.Exceptions
end

