-- ==== Sys2Proof/Proofs/Block.lean ====
section
/-! PROOFS. The rest of the block: the encoding of requests, the two ports, the sources of errors, what an
operation writes, the invariant of every step, the value that is never observed, and the remaining rules
of the four units and of the cycle. -/

/-! ## The command port's encoding -/

namespace Sys2Proof.Proofs.Encoding

open Sys2Proof Sys2Proof.Machine

/-! ### The operand record of each operation

A record is its fields in a row, so one lemma per number of fields says that a reader of these fields
inverts `putOperands` on the instructions of one operation. -/

/-- A reader of the operand records of one operation: it reads back what `putOperands` wrote, whatever
follows, and what it reads was written for an instruction of that operation. -/
structure RecordCodec (op : Opcode) (take : List Nat → Except Reject (Instr × List Nat)) : Prop where
  reads : ∀ i ts, i.opcode = op → take (putOperands i ++ ts) = .ok (i, ts)
  wrote : ∀ ts i rest, take ts = .ok (i, rest) → i.opcode = op ∧ ts = putOperands i ++ rest

section
variable {op : Opcode} {α β γ : Type} {takeA : List Nat → Except Reject (α × List Nat)}
  {takeB : List Nat → Except Reject (β × List Nat)} {takeC : List Nat → Except Reject (γ × List Nat)}
  {putA : α → List Nat} {putB : β → List Nat} {putC : γ → List Nat}

theorem record_of_no_field (make : Instr)
    (hop : ∀ i : Instr, i.opcode = op ↔ i = make := by intro i; cases i <;> simp [Instr.opcode])
    (hput : putOperands make = [] := by rfl) :
    RecordCodec op fun ts => .ok (make, ts) where
  reads i ts hi := by
    obtain rfl := (hop i).1 hi
    rw [hput, List.nil_append]
  wrote ts i rest h := by
    cases h
    exact ⟨(hop _).2 rfl, by rw [hput, List.nil_append]⟩

theorem record_of_one_field (ca : FieldCodec takeA putA) (make : α → Instr)
    (hop : ∀ i : Instr, i.opcode = op ↔ ∃ a, i = make a := by intro i; cases i <;> simp [Instr.opcode])
    (hput : ∀ a, putOperands (make a) = putA a := by exact fun _ => rfl) :
    RecordCodec op fun ts => do
      let (a, ts) ← takeA ts
      .ok (make a, ts) where
  reads i ts hi := by
    obtain ⟨a, rfl⟩ := (hop i).1 hi
    simp only [hput, ca.reads, ok_bind]
  wrote ts i rest h := by
    simp only [bind_ok_iff, Prod.exists] at h
    obtain ⟨a, ts', ha, h⟩ := h
    cases h
    exact ⟨(hop _).2 ⟨a, rfl⟩, by rw [hput, ca.wrote _ _ _ ha]⟩

theorem record_of_two_fields (ca : FieldCodec takeA putA) (cb : FieldCodec takeB putB)
    (make : α → β → Instr)
    (hop : ∀ i : Instr, i.opcode = op ↔ ∃ a b, i = make a b := by
      intro i; cases i <;> simp [Instr.opcode])
    (hput : ∀ a b, putOperands (make a b) = putA a ++ putB b := by exact fun _ _ => rfl) :
    RecordCodec op fun ts => do
      let (a, ts) ← takeA ts
      let (b, ts) ← takeB ts
      .ok (make a b, ts) where
  reads i ts hi := by
    obtain ⟨a, b, rfl⟩ := (hop i).1 hi
    simp only [hput, List.append_assoc, ca.reads, cb.reads, ok_bind]
  wrote ts i rest h := by
    simp only [bind_ok_iff, Prod.exists] at h
    obtain ⟨a, ts', ha, b, ts'', hb, h⟩ := h
    cases h
    refine ⟨(hop _).2 ⟨a, b, rfl⟩, ?_⟩
    rw [hput, ca.wrote _ _ _ ha, cb.wrote _ _ _ hb, List.append_assoc]

theorem record_of_three_fields (ca : FieldCodec takeA putA) (cb : FieldCodec takeB putB)
    (cc : FieldCodec takeC putC) (make : α → β → γ → Instr)
    (hop : ∀ i : Instr, i.opcode = op ↔ ∃ a b c, i = make a b c := by
      intro i; cases i <;> simp [Instr.opcode])
    (hput : ∀ a b c, putOperands (make a b c) = putA a ++ putB b ++ putC c := by
      exact fun _ _ _ => rfl) :
    RecordCodec op fun ts => do
      let (a, ts) ← takeA ts
      let (b, ts) ← takeB ts
      let (c, ts) ← takeC ts
      .ok (make a b c, ts) where
  reads i ts hi := by
    obtain ⟨a, b, c, rfl⟩ := (hop i).1 hi
    simp only [hput, List.append_assoc, ca.reads, cb.reads, cc.reads, ok_bind]
  wrote ts i rest h := by
    simp only [bind_ok_iff, Prod.exists] at h
    obtain ⟨a, ts', ha, b, ts'', hb, c, ts''', hc, h⟩ := h
    cases h
    refine ⟨(hop _).2 ⟨a, b, c, rfl⟩, ?_⟩
    rw [hput, ca.wrote _ _ _ ha, cb.wrote _ _ _ hb, cc.wrote _ _ _ hc, List.append_assoc,
      List.append_assoc]

end

/-- The words of a register image, an offset list or a parameter block. -/
theorem takeWords_codec : FieldCodec (takeList (takeBits 16)) (putList putBits) :=
  takeList_codec (takeBits_codec 16)

theorem takeBytes_codec : FieldCodec (takeList (takeBits 8)) (putList putBits) :=
  takeList_codec (takeBits_codec 8)

theorem takeMods_codec : FieldCodec (takeList takeMod) (putList putMod) :=
  takeList_codec takeMod_codec

/-- The opcode map's records, one row per operation (R72). -/
theorem takeOperands_record : ∀ op : Opcode, RecordCodec op (takeOperands op)
  | .baSplit => record_of_one_field (takeBits_codec 16) Instr.baSplit
  | .baJoin => record_of_two_fields takeNat_codec takeNat_codec Instr.baJoin
  | .baOffsets => record_of_one_field takeWords_codec Instr.baOffsets
  | .baModlist => record_of_one_field takeWords_codec Instr.baModlist
  | .mapDecodeIn =>
    record_of_three_fields takeMods_codec (takeBits_codec 16) takeWords_codec Instr.mapDecodeIn
  | .mapDecodeOut =>
    record_of_three_fields takeMods_codec (takeBits_codec 16) takeWords_codec Instr.mapDecodeOut
  | .mapEncode =>
    record_of_three_fields takeMods_codec (takeBits_codec 16)
      (takeList_codec (takeList_codec takeValue_codec)) Instr.mapEncode
  | .seqNew => record_of_two_fields takeNat_codec takeNat_codec Instr.seqNew
  | .seqNext =>
    record_of_three_fields takeNat_codec takeFrameIn_codec takeFrameOut_codec Instr.seqNext
  | .seqWrite => record_of_two_fields takeNat_codec takeBytes_codec Instr.seqWrite
  | .seqRead => record_of_one_field takeNat_codec Instr.seqRead
  | .cplNew =>
    record_of_three_fields (takeList_codec takeType_codec) (takeList_codec takeWords_codec)
      takeWords_codec Instr.cplNew
  | .cplIsValidAddr => record_of_one_field takeAddress_codec Instr.cplIsValidAddr
  | .cplSetOutput => record_of_two_fields takeAddress_codec takeValue_codec Instr.cplSetOutput
  | .cplNext => record_of_two_fields takeWords_codec takeWords_codec Instr.cplNext
  | .cplInputs => record_of_no_field Instr.cplInputs
  | .cplOutputs => record_of_no_field Instr.cplOutputs
  | .cplReader => record_of_one_field takeNat_codec Instr.cplReader
  | .cplWriter => record_of_two_fields takeNat_codec takeBytes_codec Instr.cplWriter

/-- Settles O8: the command word names the instruction's operation, and the record of that operation
reads back with nothing left over. -/
theorem decodeInvertsEncode : Obligations.DecodeInvertsEncode := by
  intro i
  have hread : takeOperands i.opcode (putOperands i) = .ok (i, []) := by
    simpa using (takeOperands_record i.opcode).reads i [] rfl
  exact decode_ok_iff.2 ⟨i.opcode, opcodeOfWord_commandWord i.opcode, hread⟩

/-- Settles O9: a record read to its end was written for the instruction read, and the word that names
an operation is its command word. -/
theorem encodeInvertsDecode : Obligations.EncodeInvertsDecode := by
  rintro ⟨word, operands⟩ i hdecode
  obtain ⟨op, hword, hoperands⟩ := decode_ok_iff.1 hdecode
  obtain ⟨rfl, hput⟩ := (takeOperands_record op).wrote _ _ _ hoperands
  rw [encode, commandWord_of_opcodeOfWord hword, ← List.append_nil (putOperands i), ← hput]

/-! ### Requests that are not decoded -/

/-- A record's reject is the request's (R180; assumption log 18). -/
theorem decode_error_of_operands {word : BitVec 8} {operands : List Nat} {op : Opcode} {e : Reject}
    (hword : opcodeOfWord word = some op) (hops : takeOperands op operands = .error e) :
    decode ⟨word, operands⟩ = .error e := by
  simp only [decode, hword, hops, error_bind]

/-- The step on a request that is not decoded answers its reject, the request taken. -/
theorem step_of_decode_error {s : State} {r : Request} {rest : List Request} {e : Reject}
    (hport : s.commandPort = r :: rest) (hdecode : decode r = .error e) :
    step s = ({ s with commandPort := rest } : State).reject e := by
  simp only [step, takeRequest_cons hport, hdecode]

/-- The words R73 reserves name no operation. -/
theorem opcodeOfWord_reserved : ∀ w : BitVec 8,
    (w.toNat % 16 = 0 ∨ 64 ≤ w.toNat ∨ (w.toNat / 16 = 0 ∧ 4 < w.toNat % 16) ∨
      (w.toNat / 16 = 1 ∧ 3 < w.toNat % 16) ∨ (w.toNat / 16 = 2 ∧ 4 < w.toNat % 16) ∨
      (w.toNat / 16 = 3 ∧ 8 < w.toNat % 16)) → opcodeOfWord w = none := by
  decide

/-- Settles O6: a reserved word is rejected before its operands are read. -/
theorem reservedWordsRaiseIllegalCommand : Obligations.ReservedWordsRaiseIllegalCommand := by
  intro s w ops rest hport hreserved
  have hdecode : decode ⟨w, ops⟩ = .error .reservedWord := by
    simp only [decode, opcodeOfWord_reserved w hreserved]
  exact step_of_decode_error hport hdecode

/-- A value list with a reserved tag after values that read well is rejected for the tag. -/
theorem takeValues_reserved {tag : Nat} (hlo : 8 ≤ tag) (hhi : tag ≤ 15) {vs : List ChannelValue}
    {n : Nat} (hn : vs.length < n) (after : List Nat) :
    takeList takeValue (n :: (vs.flatMap putValue ++ tag :: after)) = .error .reservedTag :=
  takeMany_error takeValue_codec vs n hn _ _ (takeValue_reserved hlo hhi after)

theorem takeOperands_setOutput_reserved {tag : Nat} (hlo : 8 ≤ tag) (hhi : tag ≤ 15) (m ch : Nat)
    (after : List Nat) :
    takeOperands .cplSetOutput (m :: ch :: tag :: after) = .error .reservedTag := by
  have haddr : takeAddress (m :: ch :: tag :: after) = .ok (⟨m, ch⟩, tag :: after) := rfl
  simp only [takeOperands, haddr, ok_bind, takeValue_reserved hlo hhi, error_bind]

theorem takeOperands_encode_reserved {tag : Nat} (hlo : 8 ≤ tag) (hhi : tag ≤ 15)
    (mods : List (CodecInst × ModuleOffset)) (base : Word16) {vss : List (List ChannelValue)}
    {vs : List ChannelValue} {nLists nValues : Nat} (hlists : vss.length < nLists)
    (hvalues : vs.length < nValues) (after : List Nat) :
    takeOperands .mapEncode (putList putMod mods ++ putBits base ++
        nLists :: (vss.flatMap (putList putValue) ++
          nValues :: (vs.flatMap putValue ++ tag :: after))) = .error .reservedTag := by
  have hlist := takeValues_reserved hlo hhi hvalues after
  have hread : takeList (takeList takeValue) (nLists :: (vss.flatMap (putList putValue) ++
      nValues :: (vs.flatMap putValue ++ tag :: after))) = .error .reservedTag :=
    takeMany_error (takeList_codec takeValue_codec) vss nLists hlists _ _ hlist
  simp only [takeOperands, List.append_assoc, takeMods_codec.reads, (takeBits_codec 16).reads, ok_bind,
    hread, error_bind]

/-- Settles O7: in both records the fields before the tag read well, so the tag is what rejects. -/
theorem reservedTagsRaiseChannelValue : Obligations.ReservedTagsRaiseChannelValue := by
  intro s tag after rest hlo hhi
  refine ⟨fun m ch hport => ?setOutput,
    fun mods base vss vs nLists nValues hlists hvalues hport => ?mapEncode⟩
  case setOutput =>
    have hops := takeOperands_setOutput_reserved hlo hhi m ch after
    exact step_of_decode_error hport
      (decode_error_of_operands (opcodeOfWord_commandWord .cplSetOutput) hops)
  case mapEncode =>
    have hops := takeOperands_encode_reserved hlo hhi mods base hlists hvalues after
    exact step_of_decode_error hport
      (decode_error_of_operands (opcodeOfWord_commandWord .mapEncode) hops)

/-! ### Words and codes of the tables -/

/-- Settles O5: the words and the six requests of the table are closed, so the decoder runs on them. -/
theorem commandWordsOfTheOpcodeMap : Obligations.CommandWordsOfTheOpcodeMap := by
  refine ⟨?words, ?split, ?join, ?decodeIn, ?write, ?setOutput, ?next⟩ <;> decide

theorem code_in_table (e : Err) : 1 ≤ e.code.toNat ∧ ¬(11 ≤ e.code.toNat ∧ e.code.toNat ≤ 14) := by
  cases e <;> decide

/-- The error of a code, by the table of R162. -/
def errOfCode (code : BitVec 4) : Option Err :=
  [Err.bufferLength, .channelParameter, .channelValue, .sequenceNumber, .dataLength, .moduleOffset,
    .address, .registerCount, .unknownModule, .unknownCategory, .illegalCommand].find? (·.code = code)

theorem errOfCode_code (e : Err) : errOfCode e.code = some e := by
  cases e <;> decide

/-- Settles O10: the table is closed, and its codes are distinct because a code gives its error back. -/
theorem statusCodesOfTheTaxonomy : Obligations.StatusCodesOfTheTaxonomy := by
  refine ⟨fun _ => rfl, fun _ => rfl, by decide, code_in_table, fun e e' hcode => ?distinct⟩
  case distinct =>
    have hsame : some e = some e' := by rw [← errOfCode_code e, ← errOfCode_code e', hcode]
    exact Option.some.inj hsame

end Sys2Proof.Proofs.Encoding

/-! ## Reset and the two ports -/

namespace Sys2Proof.Proofs.Ports

open Sys2Proof Sys2Proof.Machine

/-- Settles O1: with no modules every loop of a cycle is over the empty list, no address is valid and no
key has a pool entry, so each answer is a computation. -/
theorem powerOnIsEmptyConfiguration : Obligations.PowerOnIsEmptyConfiguration :=
  ⟨rfl, rfl, rfl, rfl, rfl, rfl, rfl, rfl, rfl, fun _ _ => rfl, fun _ _ => rfl, fun _ => rfl, rfl, rfl,
    fun _ => rfl, fun _ _ => rfl⟩

/-- Settles O2: every map and list of the state is empty. -/
theorem resetIsSound : Obligations.ResetIsSound where
  seqCanonical := rfl
  instances := nofun
  tunnels := nofun
  writeCanonical := rfl
  writeValid := nofun
  lastTxCanonical := rfl
  lastTxModules := nofun
  aligned := rfl
  order := rfl
  snapshots := .inl ⟨rfl, rfl⟩
  edgesAscend := .nil
  edgesAdvanced := nofun

/-- Settles O3: the first request is taken, and its decode is what runs. -/
theorem stepRunsTheDecodedRequest : Obligations.StepRunsTheDecodedRequest := by
  intro s r rest i hport hdecode
  simp only [step, takeRequest_cons hport, hdecode]

/-- Settles O4: there is no request to take. -/
theorem noRequestNoChange : Obligations.NoRequestNoChange := by
  intro s hport
  simp only [step, takeRequest_nil hport]

end Sys2Proof.Proofs.Ports

/-! ## Where an operation's error comes from -/

namespace Sys2Proof.Proofs.ErrorSources

open Sys2Proof Sys2Proof.Machine Sys2Proof.Claims Sys2Proof.Proofs.Exceptions

/-- The errors that operations raise themselves (R162). -/
def ownErrors : List Err :=
  [.bufferLength, .channelParameter, .channelValue, .moduleOffset, .address, .registerCount,
    .unknownModule]

/-- An operation's error is one that operations raise themselves, or a codec function's (R164). -/
def HasSource (C : Codecs) (e : Err) : Prop :=
  e ∈ ownErrors ∨ ∃ ce, codecErr ce = e ∧ CodecReturns C ce

/-! ### The address codec and the mapper -/

theorem joinAddr_error {register bit : Nat} {e : Err} (h : joinAddr register bit = .error e) :
    e = .moduleOffset := by
  rw [joinAddr] at h
  split at h <;> cases h
  rfl

theorem parseOffsets_error {flat : List Word16} {e : Err} (h : parseOffsets flat = .error e) :
    e = .registerCount := by
  rw [parseOffsets] at h
  split at h <;> cases h
  rfl

theorem lookupTypes_error {C : Codecs} {ids : List Word32} {e : Err}
    (h : lookupTypes C ids = .error e) : e = .unknownModule := by
  induction ids with
  | nil => cases h
  | cons id rest ih =>
    rw [lookupTypes] at h
    split at h
    · cases h
      rfl
    · simp only [bind_error_iff, reduceCtorEq, and_false, exists_false, or_false] at h
      exact ih h

theorem parseModlist_error {C : Codecs} {regs : List Word16} {e : Err}
    (h : parseModlist C regs = .error e) : e = .registerCount ∨ e = .unknownModule := by
  rw [parseModlist] at h
  split at h
  · cases h
    exact .inl rfl
  · exact .inr (lookupTypes_error h)

theorem window_error {o : BitAddress} {byteCount : Nat} {base : Word16} {data : List Word16} {e : Err}
    (h : window o byteCount base data = .error e) : e = .moduleOffset ∨ e = .bufferLength := by
  rcases window_error_iff.1 h with ⟨-, he⟩ | ⟨-, -, he⟩ | ⟨-, -, -, -, he⟩
  · exact .inl he
  · exact .inr he
  · exact .inl he

theorem hasSource_of_window {C : Codecs} {o : BitAddress} {byteCount : Nat} {base : Word16}
    {data : List Word16} {e : Err} (h : window o byteCount base data = .error e) : HasSource C e := by
  rcases window_error h with rfl | rfl <;> exact .inl (by decide)

theorem hasSource_of_decodeInputs {C : Codecs} {mods : List (CodecInst × ModuleOffset)} {base : Word16}
    {data : List Word16} {e : Err} (h : decodeInputs C mods base data = .error e) : HasSource C e := by
  obtain ⟨m, -, hm⟩ := decodeModules_error h
  obtain ⟨a, -, hwin | ⟨ws, ce, -, hdec, rfl⟩⟩ := decodeModule_error_iff.1 hm
  · exact hasSource_of_window hwin
  · exact .inr ⟨ce, rfl, .inr (.inl ⟨m.1, ws, hdec⟩)⟩

theorem hasSource_of_decodeOutputs {C : Codecs} {mods : List (CodecInst × ModuleOffset)} {base : Word16}
    {data : List Word16} {e : Err} (h : decodeOutputs C mods base data = .error e) : HasSource C e := by
  obtain ⟨m, -, hm⟩ := decodeModules_error h
  obtain ⟨a, -, hwin | ⟨ws, ce, -, hdec, rfl⟩⟩ := decodeModule_error_iff.1 hm
  · exact hasSource_of_window hwin
  · exact .inr ⟨ce, rfl, .inr (.inr (.inl ⟨m.1, ws, hdec⟩))⟩

theorem place_error {out ws : List Word16} {o : BitAddress} {base : Word16} {e : Err}
    (h : place out ws o base = .error e) : e = .moduleOffset ∨ e = .bufferLength := by
  rw [place_error_iff] at h
  split at h
  · exact .inl h
  split at h
  · exact .inl h.2
  split at h
  · split at h
    · exact .inl h
    · exact .inr h.2
  · exact .inl h

theorem hasSource_of_encodeModules {C : Codecs} {base : Word16}
    {mvs : List ((CodecInst × ModuleOffset) × List ChannelValue)} {out : List Word16} {e : Err}
    (h : encodeModules C base mvs out = .error e) : HasSource C e := by
  induction mvs generalizing out with
  | nil => cases h
  | cons mv mvs ih =>
    obtain ⟨⟨c, off⟩, vs⟩ := mv
    cases ho : off.output with
    | none =>
      rw [encodeModules_absent ho] at h
      exact ih h
    | some o =>
      rw [encodeModules_present ho, bind_error_iff] at h
      rcases h with hcodec | ⟨ws, -, h⟩
      · obtain ⟨ce, hce, rfl⟩ := codecCall_error_iff.1 hcodec
        exact .inr ⟨ce, rfl, .inr (.inr (.inr ⟨c, vs, hce⟩))⟩
      · rcases bind_error_iff.1 h with hplace | ⟨out', -, hrest⟩
        · rcases place_error hplace with rfl | rfl <;> exact .inl (by decide)
        · exact ih hrest

theorem hasSource_of_mapEncode {C : Codecs} {mods : List (CodecInst × ModuleOffset)} {base : Word16}
    {values : List (List ChannelValue)} {e : Err} (h : mapEncode C mods base values = .error e) :
    HasSource C e := by
  rw [mapEncode] at h
  split at h
  · cases h
    exact .inl (by decide)
  · exact hasSource_of_encodeModules h

/-! ### The sequencer and the controller -/

theorem seqNext_error {key : Nat} {input : FrameIn} {output : FrameOut} {s : State} {e : Err}
    (h : seqNext key input output s = .error e) : e = .address ∨ e = .bufferLength := by
  simp only [seqNext, bind_error_iff, lookupInstance_error_iff, reduceCtorEq, and_false, exists_false,
    or_false] at h
  rcases h with ⟨-, rfl⟩ | ⟨p, -, hadv⟩
  · exact .inl rfl
  · exact .inr (advance_error hadv).1

theorem seqWrite_error {key : Nat} {bytes : List Byte} {s : State} {e : Err}
    (h : seqWrite key bytes s = .error e) : e = .address ∨ e = .bufferLength := by
  simp only [seqWrite, bind_error_iff, lookupInstance_error_iff, enqueue_error_iff, reduceCtorEq,
    and_false, exists_false, or_false] at h
  rcases h with ⟨-, rfl⟩ | ⟨p, -, -, rfl⟩
  · exact .inl rfl
  · exact .inr rfl

theorem seqRead_error {key : Nat} {s : State} {e : Err} (h : seqRead key s = .error e) :
    e = .address := by
  simp only [seqRead, bind_error_iff, lookupInstance_error_iff, reduceCtorEq, and_false, exists_false,
    or_false] at h
  exact h.2

theorem cplSetOutput_error {a : Address} {v : ChannelValue} {s : State} {e : Err}
    (h : cplSetOutput a v s = .error e) : e = .address := by
  rw [cplSetOutput] at h
  split at h <;> cases h
  rfl

theorem hasSource_of_cplNew {types : List ModuleType} {params : List (List Word16)}
    {offsets : List Word16} {s : State} {e : Err} (h : cplNew types params offsets s = .error e) :
    HasSource s.codecs e := by
  rcases cplNew_error h with rfl | rfl | ⟨t, p, ce, hce, rfl⟩
  · exact .inl (by decide)
  · exact .inl (by decide)
  · exact .inr ⟨ce, rfl, .inl ⟨t, p, hce⟩⟩

theorem hasSource_of_cplNext {pin pout : List Word16} {s : State} {e : Err}
    (h : cplNext pin pout s = .error e) : HasSource s.codecs e := by
  rcases cplNext_error h with h | h | ⟨iv, i, w, h⟩ | ⟨i, w, h⟩ | ⟨ov, h⟩
  · exact hasSource_of_decodeInputs h
  · exact hasSource_of_decodeOutputs h
  · rcases tunnelStep_error h with rfl | rfl <;> exact .inl (by decide)
  · obtain rfl := plainStep_error h
    exact .inl (by decide)
  · exact hasSource_of_mapEncode h

/-! ### Every instruction -/

/-- An operation that only hands a computed result on raises the computation's error. -/
theorem error_of_stateless {α : Type} {x : Except Err α} {f : α → State × Result} {e : Err}
    (h : (do let a ← x; .ok (f a)) = Except.error e) : x = .error e := by
  rcases bind_error_iff.1 h with h | ⟨a, -, h⟩
  · exact h
  · cases h

/-- Every error of every operation has a source (R162, R164). -/
theorem effect_error_hasSource {i : Instr} {s : State} {e : Err} (h : effect i s = .error e) :
    HasSource s.codecs e := by
  cases i with
  | baSplit | cplIsValidAddr | cplInputs | cplOutputs => cases h
  | baJoin =>
    obtain rfl := joinAddr_error (error_of_stateless h)
    exact .inl (by decide)
  | baOffsets =>
    obtain rfl := parseOffsets_error (error_of_stateless h)
    exact .inl (by decide)
  | baModlist => rcases parseModlist_error (error_of_stateless h) with rfl | rfl <;> exact .inl (by decide)
  | mapDecodeIn => exact hasSource_of_decodeInputs (error_of_stateless h)
  | mapDecodeOut => exact hasSource_of_decodeOutputs (error_of_stateless h)
  | mapEncode => exact hasSource_of_mapEncode (error_of_stateless h)
  | seqNew =>
    obtain ⟨-, rfl⟩ := seqNew_error_iff.1 h
    exact .inl (by decide)
  | seqNext => rcases seqNext_error h with rfl | rfl <;> exact .inl (by decide)
  | seqWrite | cplWriter => rcases seqWrite_error h with rfl | rfl <;> exact .inl (by decide)
  | seqRead | cplReader =>
    obtain rfl := seqRead_error h
    exact .inl (by decide)
  | cplNew => exact hasSource_of_cplNew h
  | cplSetOutput =>
    obtain rfl := cplSetOutput_error h
    exact .inl (by decide)
  | cplNext => exact hasSource_of_cplNext h

/-- Settles O14: the three errors are none that an operation raises itself, so their source is a codec
function. -/
theorem codecOnlyCodesComeFromCodecs : Obligations.CodecOnlyCodesComeFromCodecs := by
  intro i s t e hexec hresp hcode
  have heffect := (exec_response_error hexec hresp).1
  refine (effect_error_hasSource heffect).resolve_left ?_
  rcases hcode with rfl | rfl | rfl <;> decide

theorem codecErr_ne_illegalCommand (ce : CodecError) : codecErr ce ≠ .illegalCommand := by
  cases ce <;> decide

/-- Settles O15: IllegalCommand is none of the operations' own errors and no codec error. -/
theorem noOperationRaisesIllegalCommand : Obligations.NoOperationRaisesIllegalCommand := by
  intro i s t hexec hresp
  have heffect := (exec_response_error hexec hresp).1
  rcases effect_error_hasSource heffect with hown | ⟨ce, hce, -⟩
  · exact absurd hown (by decide)
  · exact codecErr_ne_illegalCommand ce hce

end Sys2Proof.Proofs.ErrorSources

/-! ## What an operation writes -/

namespace Sys2Proof.Proofs.Writers

open Sys2Proof Sys2Proof.Machine Sys2Proof.Claims

/-! ### One entry of the pool -/

/-- What SEQ_NEXT, SEQ_WRITE and SEQ_READ make of the pool entry they run on. -/
inductive Move (params : Params) (p : SeqState) : SeqState → Prop where
  | advance {input : FrameIn} {output out : FrameOut} {q : SeqState}
      (h : p.advance params.inBufCap input output = .ok (q, out)) : Move params p q
  | enqueue {bytes : List Byte} {q : SeqState} (h : p.enqueue params.outQCap bytes = .ok q) :
      Move params p q
  | drain : Move params p { p with inData := [] }

theorem Move.sound {params : Params} {p q : SeqState} (h : Move params p q)
    (hp : SoundInstance params p) : SoundInstance params q := by
  cases h with
  | advance h => exact soundInstance_advance hp h
  | enqueue h => exact soundInstance_enqueue hp h
  | drain => exact soundInstance_drain hp

/-- The frame size is kept, and the initialisation moves at most one state forward (R30, R34). -/
def Forward (p q : SeqState) : Prop :=
  q.processDataLen = p.processDataLen ∧ initRank p.initState ≤ initRank q.initState ∧
    initRank q.initState ≤ initRank p.initState + 1

theorem Forward.refl (p : SeqState) : Forward p p := ⟨rfl, Nat.le_refl _, Nat.le_succ _⟩

theorem forward_of_advance {cap : Option Nat} {p q : SeqState} {input : FrameIn}
    {output out : FrameOut} (h : p.advance cap input output = .ok (q, out)) : Forward p q := by
  obtain ⟨hlen, ⟨hp, hq⟩ | ⟨hp, hq⟩⟩ := advance_progress h
  · refine ⟨hlen, ?_⟩
    rw [hp, hq]
    decide
  · refine ⟨hlen, ?_⟩
    rw [hq]
    cases hi : p.initState with
    | clearBuffers => exact absurd hi hp
    | reset => decide
    | done => decide

theorem enqueue_initState {cap : Option Nat} {p q : SeqState} {bytes : List Byte}
    (h : p.enqueue cap bytes = .ok q) :
    q.initState = p.initState ∧ q.processDataLen = p.processDataLen := by
  obtain ⟨-, rfl⟩ := enqueue_ok_iff.1 h
  exact ⟨rfl, rfl⟩

/-- Queueing after a forward move is still that forward move. -/
theorem Forward.enqueue {cap : Option Nat} {p m q : SeqState} {bytes : List Byte} (hm : Forward p m)
    (h : m.enqueue cap bytes = .ok q) : Forward p q := by
  obtain ⟨hstate, hlen⟩ := enqueue_initState h
  obtain ⟨hlen', hlo, hhi⟩ := hm
  rw [Forward, hstate, hlen]
  exact ⟨hlen', hlo, hhi⟩

theorem Move.forward {params : Params} {p q : SeqState} (h : Move params p q) : Forward p q := by
  cases h with
  | advance h => exact forward_of_advance h
  | enqueue h => exact (Forward.refl p).enqueue h
  | drain => exact Forward.refl p

/-! ### The one inversion of what every operation writes -/

/-- What an operation that succeeds writes, by its opcode. -/
inductive Writes (s : State) : Opcode → State → Prop where
  | nothing {op : Opcode} : Writes s op s
  | move {op : Opcode} {key : Nat} {p q : SeqState}
      (hop : op ∈ [Opcode.seqNext, .seqWrite, .seqRead, .cplReader, .cplWriter])
      (hp : mapGet s.seq key = some p) (hq : Move s.params p q) : Writes s op (s.setInstance key q)
  | seqNew (key : Nat) (l : FrameLen) :
      Writes s .seqNew { s.setInstance key (SeqState.fresh l s.draws) with draws := s.draws + 1 }
  | setOutput {a : Address} (v : ChannelValue) (h : s.validAddr a = true) :
      Writes s .cplSetOutput { s with write := mapSet addrLt s.write a v }
  | cplNew {types : List ModuleType} {params : List (List Word16)} {offsets : List Word16} {t : State}
      {r : Result} (h : cplNew types params offsets s = .ok (t, r)) : Writes s .cplNew t
  | cplNext {pin pout : List Word16} {t : State} {r : Result} (h : cplNext pin pout s = .ok (t, r)) :
      Writes s .cplNext t

theorem cplSetOutput_ok_iff {a : Address} {v : ChannelValue} {s t : State} {r : Result} :
    cplSetOutput a v s = .ok (t, r) ↔
      s.validAddr a = true ∧ t = { s with write := mapSet addrLt s.write a v } ∧ r = .none := by
  rw [cplSetOutput]
  cases s.validAddr a <;> simp [eq_comm]

/-- An operation that hands its own state on writes nothing. -/
theorem eq_of_stateless {α : Type} {x : Except Err α} {f : α → Result} {s t : State} {r : Result}
    (h : (do let a ← x; .ok (s, f a)) = (Except.ok (t, r) : Except Err (State × Result))) : t = s := by
  obtain ⟨a, -, h⟩ := bind_ok_iff.1 h
  cases h
  rfl

theorem writes_of_effect {i : Instr} {s t : State} {r : Result} (h : effect i s = .ok (t, r)) :
    Writes s i.opcode t := by
  cases i with
  | baSplit | cplIsValidAddr | cplInputs | cplOutputs =>
    cases h
    exact .nothing
  | baJoin | baOffsets | baModlist | mapDecodeIn | mapDecodeOut | mapEncode =>
    obtain rfl := eq_of_stateless h
    exact .nothing
  | seqNew key frameLen =>
    obtain ⟨l, -, rfl, -⟩ := seqNew_ok_iff.1 h
    exact .seqNew key l
  | seqNext =>
    obtain ⟨p, q, out, hp, hq, rfl, -⟩ := seqNext_ok_iff.1 h
    exact .move (by simp [Instr.opcode]) hp (.advance hq)
  | seqWrite =>
    obtain ⟨p, q, hp, hq, rfl, -⟩ := seqWrite_ok_iff.1 h
    exact .move (by simp [Instr.opcode]) hp (.enqueue hq)
  | cplWriter =>
    obtain ⟨p, q, hp, hq, rfl, -⟩ := seqWrite_ok_iff.1 h
    exact .move (by simp [Instr.opcode]) hp (.enqueue hq)
  | seqRead =>
    obtain ⟨p, hp, rfl, -⟩ := seqRead_ok_iff.1 h
    exact .move (by simp [Instr.opcode]) hp .drain
  | cplReader =>
    obtain ⟨p, hp, rfl, -⟩ := seqRead_ok_iff.1 h
    exact .move (by simp [Instr.opcode]) hp .drain
  | cplNew => exact .cplNew h
  | cplSetOutput addr value =>
    obtain ⟨hvalid, rfl, -⟩ := cplSetOutput_ok_iff.1 h
    exact .setOutput value hvalid
  | cplNext => exact .cplNext h

/-- Every instruction answers its error, or what it writes with a result (R165, R179). -/
theorem exec_next_cases {i : Instr} {s t : State} (h : exec i s = .next t) :
    (∃ e, t = s.raise e) ∨ ∃ u r, Writes s i.opcode u ∧ t = u.respond (.ok r) := by
  rw [exec_eq_finish] at h
  rcases finish_next_iff.1 h with ⟨e, -, ht⟩ | ⟨u, r, hu, ht⟩
  · exact .inl ⟨e, ht⟩
  · exact .inr ⟨u, r, writes_of_effect hu, ht⟩

/-! ### Fields no operation, or only some operations, write -/

theorem Writes.ports {s t : State} {op : Opcode} (h : Writes s op t) :
    t.commandPort = s.commandPort ∧ t.params = s.params := by
  cases h with
  | nothing | move | seqNew | setOutput => exact ⟨rfl, rfl⟩
  | cplNew h =>
    obtain ⟨-, -, mods, -, -, rfl⟩ := cplNew_ok_iff.1 h
    exact ⟨rfl, rfl⟩
  | cplNext h =>
    obtain ⟨iv, ov, w1, w2, regs, -, -, -, -, -, rfl, -⟩ := cplNext_ok_iff.1 h
    exact ⟨rfl, rfl⟩

/-- Settles O12: `finish` answers in both of its cases, and what an operation writes is neither the command
port nor the parameters. -/
theorem everyOperationAnswers : Obligations.EveryOperationAnswers := by
  intro i s
  rw [exec_eq_finish]
  cases heffect : effect i s with
  | error e => exact ⟨s.raise e, .error e, finish_error s e, rfl, rfl, rfl⟩
  | ok ur =>
    obtain ⟨u, r⟩ := ur
    obtain ⟨hport, hparams⟩ := (writes_of_effect heffect).ports
    exact ⟨u.respond (.ok r), .ok r, finish_ok s u r, rfl, hport, hparams⟩

/-- The "written by" table of R36 and R37, for one operation from `s` to `t`. -/
def KeepsOthersFields (s : State) (op : Opcode) (t : State) : Prop :=
  (op ≠ .cplNew → t.modules = s.modules ∧ t.offsets = s.offsets ∧ t.encOrder = s.encOrder) ∧
  (op ∉ [.cplSetOutput, .cplNext, .cplNew] → t.write = s.write) ∧
  (op ∉ [.cplNext, .cplNew] → t.inValues = s.inValues ∧ t.outValues = s.outValues ∧
    t.lastTxCnt = s.lastTxCnt ∧ t.txEdge = s.txEdge) ∧
  (op ∉ [.cplNew, .cplNext, .cplWriter, .cplReader, .seqNew, .seqNext, .seqWrite, .seqRead] →
    t.seq = s.seq) ∧
  (op ∉ [.cplNew, .seqNew] → t.draws = s.draws)

theorem Writes.keepsOthersFields {s t : State} {op : Opcode} (h : Writes s op t) :
    KeepsOthersFields s op t := by
  cases h with
  | nothing =>
    exact ⟨fun _ => ⟨rfl, rfl, rfl⟩, fun _ => rfl, fun _ => ⟨rfl, rfl, rfl, rfl⟩, fun _ => rfl,
      fun _ => rfl⟩
  | move hop =>
    refine ⟨fun _ => ⟨rfl, rfl, rfl⟩, fun _ => rfl, fun _ => ⟨rfl, rfl, rfl, rfl⟩, fun hno => ?_,
      fun _ => rfl⟩
    have hsub : [Opcode.seqNext, .seqWrite, .seqRead, .cplReader, .cplWriter] ⊆
        [.cplNew, .cplNext, .cplWriter, .cplReader, .seqNew, .seqNext, .seqWrite, .seqRead] := by decide
    exact absurd (hsub hop) hno
  | seqNew =>
    exact ⟨fun _ => ⟨rfl, rfl, rfl⟩, fun _ => rfl, fun _ => ⟨rfl, rfl, rfl, rfl⟩,
      fun hno => absurd (by decide) hno, fun hno => absurd (by decide) hno⟩
  | setOutput =>
    exact ⟨fun _ => ⟨rfl, rfl, rfl⟩, fun hno => absurd (by decide) hno,
      fun _ => ⟨rfl, rfl, rfl, rfl⟩, fun _ => rfl, fun _ => rfl⟩
  | cplNew =>
    exact ⟨fun hno => absurd rfl hno, fun hno => absurd (by decide) hno,
      fun hno => absurd (by decide) hno, fun hno => absurd (by decide) hno,
      fun hno => absurd (by decide) hno⟩
  | cplNext h =>
    obtain ⟨iv, ov, w1, w2, regs, -, -, -, -, -, rfl, -⟩ := cplNext_ok_iff.1 h
    exact ⟨fun _ => ⟨rfl, rfl, rfl⟩, fun hno => absurd (by decide) hno,
      fun hno => absurd (by decide) hno, fun hno => absurd (by decide) hno, fun _ => rfl⟩

/-- Settles O16: an error writes no field of the table, and what an operation writes is in its rows. -/
theorem stateIsWrittenOnlyByItsWriters : Obligations.StateIsWrittenOnlyByItsWriters := by
  intro i s t hexec
  rcases exec_next_cases hexec with ⟨e, rfl⟩ | ⟨u, r, hwrites, rfl⟩
  · exact (Writes.nothing (s := s) (op := i.opcode)).keepsOthersFields
  · exact hwrites.keepsOthersFields

/-! ### The pool in a cycle -/

/-- What phase 2 makes of a tunnel module's pool entry: an advance, and the pending bytes queued after
it (R146, R150). -/
def TunnelMove (params : Params) (p q : SeqState) : Prop :=
  ∃ fi fo m out, p.advance params.inBufCap fi fo = .ok (m, out) ∧
    (q = m ∨ ∃ bytes, m.enqueue params.outQCap bytes = .ok q)

theorem TunnelMove.sound {params : Params} {p q : SeqState} (h : TunnelMove params p q)
    (hp : SoundInstance params p) : SoundInstance params q := by
  obtain ⟨fi, fo, m, out, hadv, rfl | ⟨bytes, henq⟩⟩ := h
  · exact soundInstance_advance hp hadv
  · exact soundInstance_enqueue (soundInstance_advance hp hadv) henq

theorem TunnelMove.forward {params : Params} {p q : SeqState} (h : TunnelMove params p q) :
    Forward p q := by
  obtain ⟨fi, fo, m, out, hadv, rfl | ⟨bytes, henq⟩⟩ := h
  · exact forward_of_advance hadv
  · exact (forward_of_advance hadv).enqueue henq

theorem tunnelStep_seq_cases {params : Params} {iv : List (List ChannelValue)} {i : Nat}
    {w w' : Cycle} (h : tunnelStep params iv i w = .ok w') :
    mapGet w'.seq i = mapGet w.seq i ∨
      ∃ p q, mapGet w.seq i = some p ∧ mapGet w'.seq i = some q ∧ TunnelMove params p q := by
  rcases tunnelStep_ok_iff.1 h with ⟨p, fi, fo, m, fo', hp, -, hadv, hwrite⟩ | ⟨-, rfl⟩
  · right
    rcases tunnelWrite_ok_iff.1 hwrite with ⟨-, rfl⟩ | ⟨bs, q, -, henq, rfl⟩
    · exact ⟨p, m, hp, mapGet_mapSet_self natLt w.seq i m, fi, fo, m, fo', hadv, .inl rfl⟩
    · exact ⟨p, q, hp, mapGet_mapSet_self natLt _ i q, fi, fo, m, fo', hadv, .inr ⟨bs, henq⟩⟩
  · exact .inl rfl

/-- Phase 3 over all modules touches neither pool nor counts nor edges. -/
theorem plainSweep_frame {C : Codecs} {modules : List CodecInst} {is : List Nat} {w w' : Cycle}
    (h : sweep (plainStep C modules) is w = .ok w') :
    w'.seq = w.seq ∧ w'.lastTx = w.lastTx ∧ w'.edge = w.edge := by
  refine sweep_keeps (P := fun u => u.seq = w.seq ∧ u.lastTx = w.lastTx ∧ u.edge = w.edge)
    (fun i _ u u' hu hP => ?_) h ⟨rfl, rfl, rfl⟩
  obtain ⟨hseq, hlast, hedge⟩ := plainStep_frame hu
  rwa [hseq, hlast, hedge]

/-- A cycle leaves a pool entry alone, or makes one tunnel move of it. -/
theorem cplNext_seq_cases {pin pout : List Word16} {s t : State} {r : Result}
    (h : cplNext pin pout s = .ok (t, r)) (k : Nat) :
    mapGet t.seq k = mapGet s.seq k ∨
      ∃ p q, mapGet s.seq k = some p ∧ mapGet t.seq k = some q ∧ TunnelMove s.params p q := by
  obtain ⟨iv, ov, w1, w2, regs, -, -, htun, hplain, -, rfl, -⟩ := cplNext_ok_iff.1 h
  rw [(plainSweep_frame hplain).1]
  obtain ⟨hout, hin⟩ := sweep_local (view := moduleView) (fun i w w' hw j hj => tunnelStep_local hw hj)
    List.nodup_range htun
  by_cases hk : k ∈ List.range s.modules.length
  · obtain ⟨u, u', hu, hbefore, hafter⟩ := hin k hk
    have hb : mapGet u.seq k = mapGet s.seq k := congrArg ModuleView.seq hbefore
    have ha : mapGet w1.seq k = mapGet u'.seq k := congrArg ModuleView.seq hafter
    rw [ha, ← hb]
    exact tunnelStep_seq_cases hu
  · exact .inl (congrArg ModuleView.seq (hout k hk))

/-! ### The initialisation only moves forward -/

/-- What O17 says of one pool entry before and after an operation. -/
def PoolForward : Option SeqState → Option SeqState → Prop
  | none, none => True
  | some p, some q => Forward p q
  | _, _ => False

theorem PoolForward.refl : ∀ o : Option SeqState, PoolForward o o
  | none => trivial
  | some p => Forward.refl p

theorem Writes.poolForward {s t : State} {op : Opcode} (h : Writes s op t) (hnew : op ≠ .seqNew)
    (hcpl : op ≠ .cplNew) (k : Nat) : PoolForward (mapGet s.seq k) (mapGet t.seq k) := by
  cases h with
  | nothing | setOutput => exact .refl _
  | seqNew => exact absurd rfl hnew
  | cplNew => exact absurd rfl hcpl
  | @move _ key p q _ hp hq =>
    rw [setInstance_seq, mapGet_mapSet]
    split
    · next hk =>
      rw [hk, hp]
      exact hq.forward
    · exact .refl _
  | cplNext h =>
    rcases cplNext_seq_cases h k with hsame | ⟨p, q, hp, hq, hmove⟩
    · rw [hsame]
      exact .refl _
    · rw [hp, hq]
      exact hmove.forward

/-- Settles O17: an error keeps the pool, and every write of the pool but the two constructions is a
forward move of an entry that was there. -/
theorem initialisationOnlyMovesForward : Obligations.InitialisationOnlyMovesForward := by
  intro i s t hexec hnew hcpl k
  have hforward : PoolForward (mapGet s.seq k) (mapGet t.seq k) := by
    rcases exec_next_cases hexec with ⟨e, rfl⟩ | ⟨u, r, hwrites, rfl⟩
    · exact .refl _
    · exact hwrites.poolForward hnew hcpl k
  revert hforward
  cases mapGet s.seq k <;> cases mapGet t.seq k <;> exact id

/-! ### An operation on one key -/

/-- An operation on one key computes the new entry and the result from the parameters, the draw counter
and the entry at the key (R134). -/
def Keyed (key : Nat) (i : Instr) : Prop :=
  ∃ f : Params → Nat → Option SeqState → Except Err (SeqState × Result), ∀ s, ∃ draws : Nat,
    effect i s = (f s.params s.draws (mapGet s.seq key)).map fun qr =>
      ({ s.setInstance key qr.1 with draws := draws }, qr.2)

/-- A key's lookup as a function of the entry alone. -/
def found (o : Option SeqState) : Except Err SeqState := o.elim (.error .address) .ok

theorem lookupInstance_eq_found (q : List (Nat × SeqState)) (key : Nat) :
    lookupInstance q key = found (mapGet q key) := by
  rw [lookupInstance]
  cases mapGet q key <;> rfl

theorem keyed_seqNext (key : Nat) (input : FrameIn) (output : FrameOut) :
    Keyed key (.seqNext key input output) := by
  refine ⟨fun params _ o => do
    let p ← found o
    let qo ← p.advance params.inBufCap input output
    .ok (qo.1, .frame qo.2), fun s => ⟨s.draws, ?_⟩⟩
  simp only [effect, seqNext, lookupInstance_eq_found]
  cases found (mapGet s.seq key) with
  | error e => rfl
  | ok p =>
    simp only [ok_bind]
    cases p.advance s.params.inBufCap input output <;> rfl

theorem keyed_of_seqWrite {key : Nat} {i : Instr} {bytes : List Byte}
    (h : ∀ s, effect i s = seqWrite key bytes s) : Keyed key i := by
  refine ⟨fun params _ o => do
    let p ← found o
    let q ← p.enqueue params.outQCap bytes
    .ok (q, .none), fun s => ⟨s.draws, ?_⟩⟩
  simp only [h, seqWrite, lookupInstance_eq_found]
  cases found (mapGet s.seq key) with
  | error e => rfl
  | ok p =>
    simp only [ok_bind]
    cases p.enqueue s.params.outQCap bytes <;> rfl

theorem keyed_of_seqRead {key : Nat} {i : Instr} (h : ∀ s, effect i s = seqRead key s) :
    Keyed key i := by
  refine ⟨fun _ _ o => do
    let p ← found o
    .ok (p.drain.1, .bytes p.drain.2), fun s => ⟨s.draws, ?_⟩⟩
  simp only [h, seqRead, lookupInstance_eq_found]
  cases found (mapGet s.seq key) <;> rfl

theorem keyed_seqNew (key frameLen : Nat) : Keyed key (.seqNew key frameLen) := by
  refine ⟨fun _ draws _ => (FrameLen.ofBytes frameLen).elim (.error .channelParameter) fun l =>
    .ok (SeqState.fresh l draws, .none), fun s => ⟨s.draws + 1, ?_⟩⟩
  simp only [effect, seqNew]
  cases FrameLen.ofBytes frameLen <;> rfl

theorem Keyed.other_keys {key : Nat} {i : Instr} (h : Keyed key i) {s t : State}
    (hexec : exec i s = .next t) {k : Nat} (hk : k ≠ key) : mapGet t.seq k = mapGet s.seq k := by
  obtain ⟨f, hf⟩ := h
  obtain ⟨draws, hs⟩ := hf s
  rw [exec_eq_finish, hs] at hexec
  cases hr : f s.params s.draws (mapGet s.seq key) with
  | error e =>
    rw [hr] at hexec
    cases hexec
    rfl
  | ok qr =>
    rw [hr] at hexec
    cases hexec
    exact mapGet_mapSet_other natLt s.seq key k qr.1 hk

theorem Keyed.same_entry {key : Nat} {i : Instr} (h : Keyed key i) {s s' t t' : State}
    (hparams : s.params = s'.params) (hdraws : s.draws = s'.draws)
    (hentry : mapGet s.seq key = mapGet s'.seq key) (hexec : exec i s = .next t)
    (hexec' : exec i s' = .next t') :
    t.response = t'.response ∧ mapGet t.seq key = mapGet t'.seq key := by
  obtain ⟨f, hf⟩ := h
  obtain ⟨draws, hs⟩ := hf s
  obtain ⟨draws', hs'⟩ := hf s'
  rw [exec_eq_finish, hs] at hexec
  rw [exec_eq_finish, hs', ← hparams, ← hdraws, ← hentry] at hexec'
  cases hr : f s.params s.draws (mapGet s.seq key) with
  | error e =>
    rw [hr] at hexec hexec'
    cases hexec
    cases hexec'
    exact ⟨rfl, hentry⟩
  | ok qr =>
    rw [hr] at hexec hexec'
    cases hexec
    cases hexec'
    exact ⟨rfl, (mapGet_mapSet_self natLt s.seq key qr.1).trans
      (mapGet_mapSet_self natLt s'.seq key qr.1).symm⟩

/-- Settles O18: each of the six operations is a function of its key's entry, the parameters and the draw
counter, and writes that entry alone. -/
theorem instancesAreIndependent : Obligations.InstancesAreIndependent := by
  intro key i hi
  have hkeyed : Keyed key i := by
    rcases hi with ⟨input, output, rfl⟩ | ⟨bs, rfl⟩ | rfl | ⟨n, rfl⟩ | rfl | ⟨bs, rfl⟩
    · exact keyed_seqNext key input output
    · exact keyed_of_seqWrite fun _ => rfl
    · exact keyed_of_seqRead fun _ => rfl
    · exact keyed_seqNew key n
    · exact keyed_of_seqRead fun _ => rfl
    · exact keyed_of_seqWrite fun _ => rfl
  exact ⟨fun s t hexec k hk => hkeyed.other_keys hexec hk,
    fun s s' t t' hparams hdraws hentry hexec hexec' =>
      hkeyed.same_entry hparams hdraws hentry hexec hexec'⟩

end Sys2Proof.Proofs.Writers

/-! ## The invariant of every step -/

namespace Sys2Proof.Proofs.Soundness

open Sys2Proof Sys2Proof.Machine Sys2Proof.Proofs.Writers

/-! ### Fields the invariant does not read -/

/-- The ports and the draw counter are no part of the invariant. -/
theorem soundState_ports {s : State} (h : SoundState s) (draws : Nat) (port : List Request)
    (response : Option Response) :
    SoundState { s with draws := draws, commandPort := port, response := response } :=
  ⟨h.seqCanonical, h.instances, h.tunnels, h.writeCanonical, h.writeValid, h.lastTxCanonical,
    h.lastTxModules, h.aligned, h.order, h.snapshots, h.edgesAscend, h.edgesAdvanced⟩

/-! ### The operations outside the cycle -/

/-- Writing a pool entry within its bounds keeps the invariant. -/
theorem soundState_setInstance {s : State} (h : SoundState s) (key : Nat) {q : SeqState}
    (hq : SoundInstance s.params q) : SoundState (s.setInstance key q) where
  seqCanonical := mapWf_mapSet natLt_order h.seqCanonical key q
  instances := instances_mapSet h.instances hq
  tunnels := by
    intro i c hc hl
    rw [setInstance_seq, mapGet_mapSet]
    split
    · rfl
    · exact h.tunnels i c hc hl
  writeCanonical := h.writeCanonical
  writeValid := h.writeValid
  lastTxCanonical := h.lastTxCanonical
  lastTxModules := h.lastTxModules
  aligned := h.aligned
  order := h.order
  snapshots := h.snapshots
  edgesAscend := h.edgesAscend
  edgesAdvanced := h.edgesAdvanced

theorem soundState_setOutput {s : State} (h : SoundState s) {a : Address} (v : ChannelValue)
    (ha : s.validAddr a = true) : SoundState { s with write := mapSet addrLt s.write a v } where
  seqCanonical := h.seqCanonical
  instances := h.instances
  tunnels := h.tunnels
  writeCanonical := mapWf_mapSet addrLt_order h.writeCanonical a v
  writeValid := by
    intro b u hb
    rw [mapGet_mapSet] at hb
    split at hb
    · next hba => exact hba ▸ ha
    · exact h.writeValid b u hb
  lastTxCanonical := h.lastTxCanonical
  lastTxModules := h.lastTxModules
  aligned := h.aligned
  order := h.order
  snapshots := h.snapshots
  edgesAscend := h.edgesAscend
  edgesAdvanced := h.edgesAdvanced

/-! ### Construction -/

/-- A construction's pool entries are fresh. -/
theorem eq_fresh_of_buildPool {C : Codecs} {mods : List CodecInst} {draw k : Nat} {p : SeqState}
    (h : mapGet (buildPool C 0 draw mods) k = some p) : ∃ l d, p = SeqState.fresh l d := by
  have hpool := (mapGet_buildPool (C := C) (mods := mods) (idx := 0) (draw := draw) (k := k)).2
  rw [Nat.zero_add, h] at hpool
  split at hpool
  · next l _ =>
    obtain ⟨d, hd⟩ := hpool
    exact ⟨l, d, Option.some.inj hd⟩
  · cases hpool

/-- A construction's pool has an entry at every tunnel module. -/
theorem buildPool_isSome {C : Codecs} {mods : List CodecInst} {draw i : Nat} {c : CodecInst}
    (hc : mods[i]? = some c) (hl : (C.tunnelFrameLen c).isSome = true) :
    (mapGet (buildPool C 0 draw mods) i).isSome = true := by
  obtain ⟨l, hl⟩ := Option.isSome_iff_exists.1 hl
  have hpool := (mapGet_buildPool (C := C) (mods := mods) (idx := 0) (draw := draw) (k := i)).2
  simp only [hc, Option.bind_some, hl, Nat.zero_add] at hpool
  obtain ⟨d, hd⟩ := hpool
  rw [hd]
  rfl

/-- One codec per type (R136). -/
theorem buildModules_length {C : Codecs} {types : List ModuleType} {params : List (List Word16)}
    {mods : List CodecInst} (hlen : params.length = types.length)
    (h : buildModules C (types.zip params) = .ok mods) : mods.length = types.length := by
  have := (buildModules_ok_iff.1 h).length_eq
  rw [List.length_zip, hlen, Nat.min_self] at this
  exact this.symm

/-- A construction makes a sound state of any state (R136, R137, R139). -/
theorem soundState_cplNew {types : List ModuleType} {params : List (List Word16)}
    {offsets : List Word16} {s t : State} {r : Result} (h : cplNew types params offsets s = .ok (t, r)) :
    SoundState t := by
  obtain ⟨hparams, hoffsets, mods, hmods, -, rfl⟩ := cplNew_ok_iff.1 h
  refine
    { seqCanonical := buildPool_wf
      instances := fun k p hp => ?fresh
      tunnels := fun i c hc hl => buildPool_isSome hc hl
      writeCanonical := rfl
      writeValid := nofun
      lastTxCanonical := rfl
      lastTxModules := nofun
      aligned := ?aligned
      order := rfl
      snapshots := .inl ⟨rfl, rfl⟩
      edgesAscend := .nil
      edgesAdvanced := nofun }
  case fresh =>
    obtain ⟨l, d, rfl⟩ := eq_fresh_of_buildPool hp
    exact soundInstance_fresh s.params l d
  case aligned => exact (offsetPairs_length hoffsets).trans (buildModules_length hparams hmods).symm

/-! ### The working copies of a cycle -/

/-- What every round of the phases keeps of the working copies. -/
structure SoundCycle (s : State) (w : Cycle) : Prop where
  seqCanonical : mapWf natLt w.seq = true
  writeCanonical : mapWf addrLt w.write = true
  writeValid : ∀ a v, mapGet w.write a = some v → s.validAddr a = true
  lastTxCanonical : mapWf natLt w.lastTx = true
  lastTxModules : ∀ k t, mapGet w.lastTx k = some t → k < s.modules.length
  edgesAdvanced : ∀ i ∈ w.edge, (mapGet w.lastTx i).isSome = true

theorem soundCycle_staged {s : State} (h : SoundState s) (ov : List (List ChannelValue)) :
    SoundCycle s (s.staged ov) :=
  ⟨h.seqCanonical, h.writeCanonical, h.writeValid, h.lastTxCanonical, h.lastTxModules, nofun⟩

section
variable {s : State} {w w' : Cycle} {i : Nat}

theorem SoundCycle.setEntry (h : SoundCycle s w) (q : SeqState) (ov : List (List ChannelValue)) :
    SoundCycle s { w with seq := mapSet natLt w.seq i q, ov := ov } :=
  ⟨mapWf_mapSet natLt_order h.seqCanonical i q, h.writeCanonical, h.writeValid, h.lastTxCanonical,
    h.lastTxModules, h.edgesAdvanced⟩

/-- Consuming a pending write leaves valid addresses only. -/
theorem SoundCycle.consume (h : SoundCycle s w) (a : Address) (ov : List (List ChannelValue)) :
    SoundCycle s { w with write := mapRemove w.write a, ov := ov } := by
  refine ⟨h.seqCanonical, mapWf_mapRemove h.writeCanonical a, fun b v hb => ?_, h.lastTxCanonical,
    h.lastTxModules, h.edgesAdvanced⟩
  rw [mapGet_mapRemove] at hb
  split at hb
  · cases hb
  · exact h.writeValid b v hb

/-- TX_EDGE appends the module or nothing (R153). -/
theorem txEdgeStep_edge_cases (i : Nat) (f : FrameOut) (w : Cycle) :
    (txEdgeStep i f w).edge = w.edge ∨ (txEdgeStep i f w).edge = w.edge ++ [i] := by
  simp only [txEdgeStep]
  split
  · split
    · exact .inr rfl
    · exact .inl rfl
  · exact .inl rfl

theorem SoundCycle.txEdge (h : SoundCycle s w) (hi : i < s.modules.length) (f : FrameOut) :
    SoundCycle s (txEdgeStep i f w) := by
  refine ⟨h.seqCanonical, h.writeCanonical, h.writeValid,
    mapWf_mapSet natLt_order h.lastTxCanonical i f.txCnt, fun k t hk => ?modules, fun j hj => ?advanced⟩
  case modules =>
    rw [txEdgeStep_lastTx, mapGet_mapSet] at hk
    split at hk
    · next hki => exact hki ▸ hi
    · exact h.lastTxModules k t hk
  case advanced =>
    rw [txEdgeStep_lastTx, mapGet_mapSet]
    split
    · rfl
    · next hji =>
      refine h.edgesAdvanced j ?_
      rcases txEdgeStep_edge_cases i f w with he | he
      · exact he ▸ hj
      · rw [he, List.mem_append, List.mem_singleton] at hj
        exact hj.resolve_right hji

theorem SoundCycle.tunnelStep {params : Params} {iv : List (List ChannelValue)} (hw : SoundCycle s w)
    (hi : i < s.modules.length) (h : tunnelStep params iv i w = .ok w') : SoundCycle s w' := by
  rcases tunnelStep_ok_iff.1 h with ⟨p, fi, fo, q, fo', -, -, -, hwrite⟩ | ⟨-, rfl⟩
  · have hadvanced := (hw.setEntry (i := i) q (setChannel w.ov i 0 (.tunnelOut fo'))).txEdge hi fo'
    rcases tunnelWrite_ok_iff.1 hwrite with ⟨-, rfl⟩ | ⟨bs, q', -, -, rfl⟩
    · exact hadvanced
    · exact (hadvanced.setEntry (i := i) q' w.ov).consume ⟨i, 0⟩ _
  · exact hw

theorem SoundCycle.plainStep {C : Codecs} {modules : List CodecInst} (hw : SoundCycle s w)
    (h : plainStep C modules i w = .ok w') : SoundCycle s w' := by
  refine plainStep_keeps (P := SoundCycle s) (fun ch u u' hu hP => ?_) h hw
  rcases channelStep_ok_iff.1 hu with ⟨-, rfl⟩ | ⟨v, -, -, rfl⟩
  · exact hP
  · exact hP.consume ⟨i, ch⟩ _

end

/-! ### The edges of a cycle -/

theorem tunnelStep_edge_cases {params : Params} {iv : List (List ChannelValue)} {i : Nat} {w w' : Cycle}
    (h : tunnelStep params iv i w = .ok w') : w'.edge = w.edge ∨ w'.edge = w.edge ++ [i] := by
  rcases tunnelStep_ok_iff.1 h with ⟨p, fi, fo, q, fo', -, -, -, hwrite⟩ | ⟨-, rfl⟩
  · rcases tunnelWrite_ok_iff.1 hwrite with ⟨-, rfl⟩ | ⟨bs, q', -, -, rfl⟩
    · exact txEdgeStep_edge_cases i fo' _
    · exact txEdgeStep_edge_cases i fo' _
  · exact .inl rfl

/-- Phase 2 appends some of the indices it goes over, in their order (R153). -/
theorem tunnelSweep_edge {params : Params} {iv : List (List ChannelValue)} {is : List Nat} {w w' : Cycle}
    (h : sweep (tunnelStep params iv) is w = .ok w') : w'.edge.Sublist (w.edge ++ is) := by
  induction is generalizing w with
  | nil =>
    cases h
    simp
  | cons i is ih =>
    obtain ⟨u, hu, h⟩ := bind_ok_iff.1 h
    refine (ih h).trans ?_
    rcases tunnelStep_edge_cases hu with he | he <;> rw [he]
    · exact List.Sublist.append_left (List.sublist_cons_self i is) w.edge
    · rw [List.append_assoc, List.singleton_append]

/-- The edges of a completed cycle are module indices in ascending order (R153). -/
theorem tunnelSweep_edge_range {params : Params} {iv : List (List ChannelValue)} {n : Nat} {s : State}
    {ov : List (List ChannelValue)} {w : Cycle}
    (h : sweep (tunnelStep params iv) (List.range n) (s.staged ov) = .ok w) :
    w.edge.Sublist (List.range n) := by
  simpa using tunnelSweep_edge h

/-! ### The cycle -/

theorem tunnelSweep_ov_length {params : Params} {iv : List (List ChannelValue)} {is : List Nat}
    {w w' : Cycle} (h : sweep (tunnelStep params iv) is w = .ok w') : w'.ov.length = w.ov.length :=
  sweep_keeps (P := fun u => u.ov.length = w.ov.length)
    (fun _ _ _ _ hu hP => (tunnelStep_ov_length hu).trans hP) h rfl

theorem plainSweep_ov_length {C : Codecs} {modules : List CodecInst} {is : List Nat} {w w' : Cycle}
    (h : sweep (plainStep C modules) is w = .ok w') : w'.ov.length = w.ov.length :=
  sweep_keeps (P := fun u => u.ov.length = w.ov.length)
    (fun _ _ _ _ hu hP => (plainStep_ov_length hu).trans hP) h rfl

/-- DECODE answers one value list per module and offset. -/
theorem decodeModules_length {C : Codecs}
    {view : CodecInst → ModuleOffset →
      Option BitAddress × Nat × (List Word16 → Except CodecError (List ChannelValue))}
    {base : Word16} {data : List Word16} {mods : List (CodecInst × ModuleOffset)}
    {vss : List (List ChannelValue)} (h : decodeModules C view base data mods = .ok vss) :
    vss.length = mods.length :=
  (decodeModules_ok_iff.1 h).length_eq.symm

theorem configured_length {s : State} (h : SoundState s) :
    (s.modules.zip s.offsets).length = s.modules.length := by
  rw [List.length_zip, h.aligned, Nat.min_self]

/-- A completed cycle keeps the invariant (R40 to R42, R144, R150, R153). -/
theorem soundState_cplNext {pin pout : List Word16} {s t : State} {r : Result} (hs : SoundState s)
    (h : cplNext pin pout s = .ok (t, r)) : SoundState t := by
  have hentries := cplNext_seq_cases h
  obtain ⟨iv, ov, w1, w2, regs, hiv, hov, htun, hplain, -, rfl, -⟩ := cplNext_ok_iff.1 h
  have hw1 : SoundCycle s w1 := sweep_keeps
    (fun i hi _ _ hu hP => hP.tunnelStep (List.mem_range.1 hi) hu) htun (soundCycle_staged hs ov)
  have hw2 : SoundCycle s w2 := sweep_keeps (fun _ _ _ _ hu hP => hP.plainStep hu) hplain hw1
  have hedge : w2.edge.Sublist (List.range s.modules.length) :=
    (plainSweep_frame hplain).2.2 ▸ tunnelSweep_edge_range htun
  refine
    { seqCanonical := hw2.seqCanonical
      instances := fun k q hq => ?entries
      tunnels := fun i c hc hl => ?tunnels
      writeCanonical := hw2.writeCanonical
      writeValid := hw2.writeValid
      lastTxCanonical := hw2.lastTxCanonical
      lastTxModules := hw2.lastTxModules
      aligned := hs.aligned
      order := hs.order
      snapshots := .inr ⟨?inValues, ?outValues⟩
      edgesAscend := List.pairwise_lt_range.sublist hedge
      edgesAdvanced := hw2.edgesAdvanced }
  case entries =>
    rcases hentries k with hsame | ⟨p, q', hp, hq', hmove⟩
    · exact hs.instances k q (hsame ▸ hq)
    · obtain rfl : q' = q := Option.some.inj (hq'.symm.trans hq)
      exact hmove.sound (hs.instances k p hp)
  case tunnels =>
    rcases hentries i with hsame | ⟨p, q, -, hq, -⟩
    · rw [hsame]
      exact hs.tunnels i c hc hl
    · rw [hq]
      rfl
  case inValues => exact (decodeModules_length hiv).trans (configured_length hs)
  case outValues =>
    calc w2.ov.length = w1.ov.length := plainSweep_ov_length hplain
      _ = ov.length := tunnelSweep_ov_length htun
      _ = s.modules.length := (decodeModules_length hov).trans (configured_length hs)

/-! ### Every step -/

theorem soundState_of_writes {s t : State} {op : Opcode} (hs : SoundState s) (h : Writes s op t) :
    SoundState t := by
  cases h with
  | nothing => exact hs
  | move _ hp hq => exact soundState_setInstance hs _ (hq.sound (hs.instances _ _ hp))
  | seqNew key l =>
    exact soundState_ports
      (soundState_setInstance hs key (soundInstance_fresh s.params l s.draws)) _ _ _
  | setOutput v ha => exact soundState_setOutput hs v ha
  | cplNew h => exact soundState_cplNew h
  | cplNext h => exact soundState_cplNext hs h

theorem soundState_exec {i : Instr} {s t : State} (hs : SoundState s) (h : exec i s = .next t) :
    SoundState t := by
  rcases exec_next_cases h with ⟨e, rfl⟩ | ⟨u, r, hwrites, rfl⟩
  · exact soundState_ports hs _ _ _
  · exact soundState_ports (soundState_of_writes hs hwrites) _ _ _

/-- A reject that answers writes the response port only. -/
theorem soundState_reject {e : Reject} {s t : State} (hs : SoundState s) (h : s.reject e = .next t) :
    SoundState t := by
  cases e with
  | reservedWord | reservedTag =>
    cases h
    exact soundState_ports hs _ _ _
  | malformed why => cases h

/-- Settles O11: a step with no request changes nothing, and every other one answers a reject or runs one
instruction on the state without the request. -/
theorem stepKeepsSoundState : Obligations.StepKeepsSoundState := by
  intro s t hs hstep
  cases hport : s.commandPort with
  | nil =>
    rw [Ports.noRequestNoChange s hport] at hstep
    cases hstep
    exact hs
  | cons r rest =>
    have htaken : SoundState { s with commandPort := rest } := soundState_ports hs _ _ _
    cases hdecode : decode r with
    | ok i =>
      rw [Ports.stepRunsTheDecodedRequest s r rest i hport hdecode] at hstep
      exact soundState_exec htaken hstep
    | error e =>
      rw [Encoding.step_of_decode_error hport hdecode] at hstep
      exact soundState_reject htaken hstep

end Sys2Proof.Proofs.Soundness

/-! ## The value that is never observed -/

namespace Sys2Proof.Proofs.Unobserved

open Sys2Proof Sys2Proof.Machine Sys2Proof.Claims

/-! ### Two runs in step -/

/-- Two runs of a computation agree: they raise the same error, or their results are related. -/
inductive Agree {α : Type} (R : α → α → Prop) : Except Err α → Except Err α → Prop where
  | error (e : Err) : Agree R (.error e) (.error e)
  | ok {a b : α} (h : R a b) : Agree R (.ok a) (.ok b)

theorem Agree.bind {α β : Type} {R : α → α → Prop} {S : β → β → Prop} {x y : Except Err α}
    {f g : α → Except Err β} (h : Agree R x y) (hfg : ∀ a b, R a b → Agree S (f a) (g b)) :
    Agree S (x >>= f) (y >>= g) := by
  cases h with
  | error e => exact .error e
  | ok hab => exact hfg _ _ hab

/-- A computation that both runs make agrees with itself, and what follows goes on from one result. -/
theorem Agree.bind_same {α β : Type} {S : β → β → Prop} (x : Except Err α) {f g : α → Except Err β}
    (hfg : ∀ a, Agree S (f a) (g a)) : Agree S (x >>= f) (x >>= g) := by
  cases x with
  | error e => exact .error e
  | ok a => exact hfg a

/-! ### Instances and pools -/

/-- Two pools with the same keys and alike entries. -/
def PoolAlike (q q' : List (Nat × SeqState)) : Prop :=
  List.Forall₂ (fun a b => a.1 = b.1 ∧ AlikeInstance a.2 b.2) q q'

theorem alikeInstance_refl (p : SeqState) : AlikeInstance p p := ⟨rfl, rfl, rfl, rfl, fun _ => rfl⟩

/-- In Done nothing of an entry is unspecified (R31). -/
theorem eq_of_alike_done {p q : SeqState} (h : AlikeInstance p q) (hd : p.initState = .done) : p = q := by
  obtain ⟨hinit, hin, hout, hlen, hlast⟩ := h
  cases p
  cases q
  simp_all

theorem alikeInstance_fresh (l : FrameLen) (d d' : Nat) :
    AlikeInstance (SeqState.fresh l d) (SeqState.fresh l d') := ⟨rfl, rfl, rfl, rfl, nofun⟩

/-- SEQ_NEXT reads `last_rx_cnt` in Done only, and the Reset step writes it (R31, R119, R121). -/
theorem agree_advance {p q : SeqState} (h : AlikeInstance p q) (cap : Option Nat) (input : FrameIn)
    (output : FrameOut) :
    Agree (fun a b => AlikeInstance a.1 b.1 ∧ a.2 = b.2) (p.advance cap input output)
      (q.advance cap input output) := by
  cases hp : p.initState with
  | done =>
    obtain rfl := eq_of_alike_done h hp
    cases p.advance cap input output with
    | error e => exact .error e
    | ok a => exact .ok ⟨alikeInstance_refl a.1, rfl⟩
  | clearBuffers =>
    obtain ⟨hinit, hin, hout, hlen, -⟩ := h
    rw [advance_clearBuffers hp, advance_clearBuffers (hinit ▸ hp)]
    exact .ok ⟨⟨rfl, hin, hout, hlen, nofun⟩, rfl⟩
  | reset =>
    obtain ⟨hinit, hin, hout, hlen, -⟩ := h
    rw [advance_reset hp, advance_reset (hinit ▸ hp)]
    exact .ok ⟨⟨rfl, hin, hout, hlen, fun _ => rfl⟩, rfl⟩

theorem agree_enqueue {p q : SeqState} (h : AlikeInstance p q) (cap : Option Nat) (bytes : List Byte) :
    Agree AlikeInstance (p.enqueue cap bytes) (q.enqueue cap bytes) := by
  obtain ⟨hinit, hin, hout, hlen, hlast⟩ := h
  cases hp : p.enqueue cap bytes with
  | ok p' =>
    obtain ⟨hfits, rfl⟩ := enqueue_ok_iff.1 hp
    rw [hout, hlen] at hfits
    rw [enqueue_ok_iff.2 ⟨hfits, rfl⟩]
    exact .ok ⟨hinit, hin, by simp only [hout, hlen], hlen, hlast⟩
  | error e =>
    obtain ⟨hfull, rfl⟩ := enqueue_error_iff.1 hp
    rw [hout, hlen] at hfull
    rw [enqueue_error_iff.2 ⟨hfull, rfl⟩]
    exact .error _

theorem PoolAlike.mapGet_cases {q q' : List (Nat × SeqState)} (h : PoolAlike q q') (k : Nat) :
    (mapGet q k = none ∧ mapGet q' k = none) ∨
      ∃ p p', mapGet q k = some p ∧ mapGet q' k = some p' ∧ AlikeInstance p p' := by
  induction h with
  | nil => exact .inl ⟨rfl, rfl⟩
  | @cons a b l l' hab _ ih =>
    obtain ⟨hkey, halike⟩ := hab
    rw [mapGet_cons, mapGet_cons, ← hkey]
    by_cases hk : k = a.1
    · rw [if_pos hk, if_pos hk]
      exact .inr ⟨_, _, rfl, rfl, halike⟩
    · rw [if_neg hk, if_neg hk]
      exact ih

theorem PoolAlike.mapSet {q q' : List (Nat × SeqState)} (h : PoolAlike q q') (k : Nat)
    {p p' : SeqState} (hp : AlikeInstance p p') : PoolAlike (mapSet natLt q k p) (mapSet natLt q' k p') := by
  induction h with
  | nil => exact .cons ⟨rfl, hp⟩ .nil
  | @cons a b l l' hab htail ih =>
    obtain ⟨ka, pa⟩ := a
    obtain ⟨kb, pb⟩ := b
    obtain ⟨rfl, halike⟩ := hab
    simp only [Machine.mapSet]
    split
    · exact .cons ⟨rfl, hp⟩ htail
    · split
      · exact .cons ⟨rfl, hp⟩ (.cons ⟨rfl, halike⟩ htail)
      · exact .cons ⟨rfl, halike⟩ ih

theorem agree_lookup {q q' : List (Nat × SeqState)} (h : PoolAlike q q') (k : Nat) :
    Agree AlikeInstance (lookupInstance q k) (lookupInstance q' k) := by
  rcases h.mapGet_cases k with ⟨hq, hq'⟩ | ⟨p, p', hq, hq', hp⟩
  · rw [lookupInstance_error_iff.2 ⟨hq, rfl⟩, lookupInstance_error_iff.2 ⟨hq', rfl⟩]
    exact .error _
  · rw [lookupInstance_ok_iff.2 hq, lookupInstance_ok_iff.2 hq']
    exact .ok hp

/-- Constructions with different draws differ in their free values only (R136). -/
theorem poolAlike_buildPool (C : Codecs) (mods : List CodecInst) (idx d d' : Nat) :
    PoolAlike (buildPool C idx d mods) (buildPool C idx d' mods) := by
  induction mods generalizing idx d d' with
  | nil => exact .nil
  | cons c mods ih =>
    rw [buildPool, buildPool]
    split
    · exact .cons ⟨rfl, alikeInstance_fresh _ d d'⟩ (ih _ _ _)
    · exact ih _ _ _

/-! ### The cycle -/

/-- Working copies alike but for unspecified values of the pool. -/
def CycleAlike (w w' : Cycle) : Prop := ∃ q, w' = { w with seq := q } ∧ PoolAlike w.seq q

theorem agree_sweep {f : Nat → Cycle → Except Err Cycle}
    (hf : ∀ i w w', CycleAlike w w' → Agree CycleAlike (f i w) (f i w')) (is : List Nat) {w w' : Cycle}
    (h : CycleAlike w w') : Agree CycleAlike (sweep f is w) (sweep f is w') := by
  induction is generalizing w w' with
  | nil => exact .ok h
  | cons i is ih => exact (hf i w w' h).bind fun u u' hu => ih hu

theorem agree_tunnelWrite (cap : Option Nat) (i : Nat) {p p' : SeqState} (hp : AlikeInstance p p')
    {w w' : Cycle} (h : CycleAlike w w') :
    Agree CycleAlike (tunnelWrite cap i p w) (tunnelWrite cap i p' w') := by
  obtain ⟨q, rfl, hq⟩ := h
  simp only [tunnelWrite]
  split
  · exact .ok ⟨q, rfl, hq⟩
  · exact (agree_enqueue hp cap _).bind fun a b hab => .ok ⟨_, rfl, hq.mapSet i hab⟩
  · exact .error _

theorem agree_tunnelStep (params : Params) (iv : List (List ChannelValue)) (i : Nat) (w w' : Cycle)
    (h : CycleAlike w w') : Agree CycleAlike (tunnelStep params iv i w) (tunnelStep params iv i w') := by
  obtain ⟨q, rfl, hq⟩ := h
  simp only [tunnelStep]
  rcases hq.mapGet_cases i with ⟨hn, hn'⟩ | ⟨p, p', hp, hp', halike⟩
  · rw [hn, hn']
    exact .ok ⟨q, rfl, hq⟩
  · rw [hp, hp']
    cases tunnelFrames iv w.ov i with
    | none => exact .ok ⟨q, rfl, hq⟩
    | some frames =>
      refine (agree_advance halike params.inBufCap frames.1 frames.2).bind fun a b hab => ?_
      obtain ⟨a, fo'⟩ := a
      obtain ⟨b, fo''⟩ := b
      obtain ⟨hab, rfl⟩ := hab
      exact agree_tunnelWrite params.outQCap i hab ⟨_, rfl, hq.mapSet i hab⟩

theorem agree_channelStep (i ch : Nat) (w w' : Cycle) (h : CycleAlike w w') :
    Agree CycleAlike (channelStep i ch w) (channelStep i ch w') := by
  obtain ⟨q, rfl, hq⟩ := h
  simp only [channelStep]
  split
  · exact .ok ⟨q, rfl, hq⟩
  · split
    · exact .error _
    · exact .ok ⟨q, rfl, hq⟩

theorem agree_plainStep (C : Codecs) (modules : List CodecInst) (i : Nat) (w w' : Cycle)
    (h : CycleAlike w w') : Agree CycleAlike (plainStep C modules i w) (plainStep C modules i w') := by
  have hcycle := h
  obtain ⟨q, rfl, hq⟩ := h
  rw [plainStep_eq, plainStep_eq]
  rcases hq.mapGet_cases i with ⟨hn, hn'⟩ | ⟨p, p', hp, hp', -⟩
  · rw [hn, hn']
    cases modules[i]? with
    | none => exact .ok hcycle
    | some c => exact agree_sweep (agree_channelStep i) _ hcycle
  · rw [hp, hp']
    exact .ok hcycle

/-! ### Every instruction -/

/-- Two answers with the same result and alike states. -/
def AnswersAlike (a b : State × Result) : Prop := Alike a.1 b.1 ∧ a.2 = b.2

theorem alike_setInstance {s : State} {q : List (Nat × SeqState)} {d : Nat} (hq : PoolAlike s.seq q)
    (key : Nat) {p p' : SeqState} (hp : AlikeInstance p p') :
    Alike (s.setInstance key p) (State.setInstance { s with seq := q, draws := d } key p') :=
  ⟨rfl, hq.mapSet key hp⟩

section
variable {s : State} {q : List (Nat × SeqState)} {d : Nat}

theorem agree_seqNext (hq : PoolAlike s.seq q) (key : Nat) (input : FrameIn) (output : FrameOut) :
    Agree AnswersAlike (seqNext key input output s)
      (seqNext key input output { s with seq := q, draws := d }) := by
  refine (agree_lookup hq key).bind fun p p' hp => ?_
  refine (agree_advance hp s.params.inBufCap input output).bind fun a b hab => ?_
  obtain ⟨a, fo'⟩ := a
  obtain ⟨b, fo''⟩ := b
  obtain ⟨hab, rfl⟩ := hab
  exact .ok ⟨alike_setInstance hq key hab, rfl⟩

theorem agree_seqWrite (hq : PoolAlike s.seq q) (key : Nat) (bytes : List Byte) :
    Agree AnswersAlike (seqWrite key bytes s) (seqWrite key bytes { s with seq := q, draws := d }) :=
  (agree_lookup hq key).bind fun _ _ hp =>
    (agree_enqueue hp s.params.outQCap bytes).bind fun _ _ hab =>
      .ok ⟨alike_setInstance hq key hab, rfl⟩

theorem agree_seqRead (hq : PoolAlike s.seq q) (key : Nat) :
    Agree AnswersAlike (seqRead key s) (seqRead key { s with seq := q, draws := d }) := by
  refine (agree_lookup hq key).bind fun p p' hp => ?_
  obtain ⟨hinit, hin, hout, hlen, hlast⟩ := hp
  rw [drain_eq, drain_eq, hin]
  exact .ok ⟨alike_setInstance hq key ⟨hinit, rfl, hout, hlen, hlast⟩, rfl⟩

theorem agree_seqNew (hq : PoolAlike s.seq q) (key frameLen : Nat) :
    Agree AnswersAlike (seqNew key frameLen s) (seqNew key frameLen { s with seq := q, draws := d }) := by
  rw [seqNew, seqNew]
  cases FrameLen.ofBytes frameLen with
  | none => exact .error _
  | some l => exact .ok ⟨⟨rfl, hq.mapSet key (alikeInstance_fresh l _ _)⟩, rfl⟩

theorem agree_cplNew (types : List ModuleType) (params : List (List Word16)) (offsets : List Word16) :
    Agree AnswersAlike (cplNew types params offsets s)
      (cplNew types params offsets { s with seq := q, draws := d }) := by
  simp only [cplNew]
  split
  · exact .error _
  · split
    · exact .error _
    · refine Agree.bind_same _ fun offs => Agree.bind_same _ fun mods => ?_
      exact .ok ⟨⟨rfl, poolAlike_buildPool _ mods 0 _ _⟩, rfl⟩

theorem agree_cplSetOutput (hq : PoolAlike s.seq q) (a : Address) (v : ChannelValue) :
    Agree AnswersAlike (cplSetOutput a v s) (cplSetOutput a v { s with seq := q, draws := d }) := by
  have hvalid : ({ s with seq := q, draws := d } : State).validAddr a = s.validAddr a := rfl
  simp only [cplSetOutput, hvalid]
  split
  · exact .ok ⟨⟨rfl, hq⟩, rfl⟩
  · exact .error _

theorem agree_cplNext (hq : PoolAlike s.seq q) (pin pout : List Word16) :
    Agree AnswersAlike (cplNext pin pout s) (cplNext pin pout { s with seq := q, draws := d }) := by
  refine Agree.bind_same (cyclePhase1 s pin pout) fun decoded => ?_
  refine (agree_sweep (agree_tunnelStep s.params decoded.1) _ ⟨q, rfl, hq⟩).bind fun w1 w1' h1 => ?_
  refine (agree_sweep (agree_plainStep s.codecs s.modules) _ h1).bind fun w2 w2' h2 => ?_
  obtain ⟨q2, rfl, hq2⟩ := h2
  exact Agree.bind_same (cyclePhase4 s w2.ov) fun regs => .ok ⟨⟨rfl, hq2⟩, rfl⟩

theorem agree_effect (hq : PoolAlike s.seq q) (i : Instr) :
    Agree AnswersAlike (effect i s) (effect i { s with seq := q, draws := d }) := by
  cases i with
  | baSplit | cplIsValidAddr | cplInputs | cplOutputs => exact .ok ⟨⟨rfl, hq⟩, rfl⟩
  | baJoin | baOffsets | baModlist | mapDecodeIn | mapDecodeOut | mapEncode =>
    exact Agree.bind_same _ fun _ => .ok ⟨⟨rfl, hq⟩, rfl⟩
  | seqNew key frameLen => exact agree_seqNew hq key frameLen
  | seqNext key input output => exact agree_seqNext hq key input output
  | seqWrite key bytes | cplWriter key bytes => exact agree_seqWrite hq key bytes
  | seqRead key | cplReader key => exact agree_seqRead hq key
  | cplNew types params offsets => exact agree_cplNew types params offsets
  | cplSetOutput addr value => exact agree_cplSetOutput hq addr value
  | cplNext pin pout => exact agree_cplNext hq pin pout

end

/-- Settles O19: the two effects run in step, so they raise the same error from alike states or answer the
same result in alike states. -/
theorem unspecifiedLastRxCntIsNeverObserved : Obligations.UnspecifiedLastRxCntIsNeverObserved := by
  rintro i s s' ⟨heq, hpool⟩
  obtain ⟨q, d, rfl, hq⟩ : ∃ q d, s' = { s with seq := q, draws := d } ∧ PoolAlike s.seq q :=
    ⟨s'.seq, s'.draws, heq, hpool⟩
  have hagree := agree_effect (d := d) hq i
  rw [exec_eq_finish, exec_eq_finish]
  generalize effect i s = x at hagree ⊢
  generalize effect i { s with seq := q, draws := d } = y at hagree ⊢
  cases hagree with
  | error e => exact ⟨_, _, rfl, rfl, rfl, rfl, hq⟩
  | @ok a b h =>
    obtain ⟨t, r⟩ := a
    obtain ⟨t', r'⟩ := b
    obtain ⟨⟨ht, hpools⟩, hr⟩ := h
    dsimp only at ht hpools hr
    subst hr
    refine ⟨_, _, rfl, rfl, rfl, ?_, hpools⟩
    conv_lhs => rw [ht]
    rfl

end Sys2Proof.Proofs.Unobserved

/-! ## Unit 0, the address codec -/

namespace Sys2Proof.Proofs.AddressWords

open Sys2Proof Sys2Proof.Machine Sys2Proof.Proofs.AddressCodec

/-! ### BA_JOIN and BA_SPLIT -/

theorem joinAddr_of_fits {register bit : Nat} (hr : register ≤ 0x0FFF) (hb : bit ≤ 15) :
    joinAddr register bit = .ok (joinFields register bit) :=
  if_neg (not_or.2 ⟨Nat.not_lt.2 hr, Nat.not_lt.2 hb⟩)

theorem joinAddr_of_too_large {register bit : Nat} (h : register > 0x0FFF ∨ bit > 15) :
    joinAddr register bit = .error .moduleOffset :=
  if_pos h

/-- Where both operands fit, BA_JOIN answers the joined fields (R90). -/
theorem exec_baJoin_of_fits {register bit : Nat} (hr : register ≤ 0x0FFF) (hb : bit ≤ 15) (s : State) :
    exec (.baJoin register bit) s =
      .next { s with response := some (.ok (.addr (joinFields register bit))) } := by
  rw [exec_baJoin, joinAddr_of_fits hr hb]
  rfl

/-- Settles O21: both bounds are the two checks, and the sum of the fields is their bitwise or. -/
theorem baJoinBuildsTheAddress : Obligations.BaJoinBuildsTheAddress := by
  refine ⟨rfl, fun register bit s => ⟨fun hr hb => ?fits, fun hlarge => ?rejected⟩⟩
  case fits =>
    refine ⟨joinFields register bit, exec_baJoin_of_fits hr hb s, ?_⟩
    calc (joinFields register bit).toNat = 16 * register + bit := joinFields_toNat hr hb
      _ = register <<< 4 + bit := by rw [Nat.shiftLeft_eq, Nat.mul_comm]
      _ = register <<< 4 ||| bit := Nat.shiftLeft_add_eq_or_of_lt (by omega) register
  case rejected =>
    rw [exec_baJoin, joinAddr_of_too_large hlarge]
    rfl

/-- Joining the two fields of an address gives the address (R91). -/
theorem joinFields_split (a : BitAddress) : joinFields (registerOf a).toNat (bitOf a).toNat = a := by
  have hr := (registerOf a).isLt
  have hb := (bitOf a).isLt
  apply BitVec.eq_of_toNat_eq
  rw [joinFields_toNat (by omega) (by omega), registerOf_toNat, bitOf_toNat]
  omega

/-- Settles O22: the fields of a joined address are quotient and remainder by 16, and joining the fields
of an address gives it back. -/
theorem splitAndJoinRoundTrip : Obligations.SplitAndJoinRoundTrip := by
  refine ⟨fun register bit s hr hb => ?joined, fun addr s => ?fields⟩
  case joined =>
    refine ⟨joinFields register bit, _, _, exec_baJoin_of_fits hr hb s, exec_baSplit _ s, ?_, ?_⟩
    · rw [registerOf_toNat, joinFields_toNat hr hb]
      omega
    · rw [bitOf_toNat, joinFields_toNat hr hb]
      omega
  case fields =>
    have hr := (registerOf addr).isLt
    have hb := (bitOf addr).isLt
    refine ⟨_, _, exec_baSplit addr s, ?_⟩
    rw [exec_baJoin_of_fits (by omega) (by omega), joinFields_split]

/-! ### BA_OFFSETS -/

/-- The k-th pair reads the words 2k and 2k + 1, output first (R75, R92). -/
theorem offsetPairs_getElem? {flat : List Word16} {k : Nat} {off : ModuleOffset}
    (h : (offsetPairs flat)[k]? = some off) :
    ∃ o i, flat[2 * k]? = some o ∧ flat[2 * k + 1]? = some i ∧ off = ⟨optOffset i, optOffset o⟩ := by
  induction flat using offsetPairs.induct generalizing k with
  | case1 o i rest ih =>
    cases k with
    | zero =>
      cases h
      exact ⟨o, i, rfl, rfl, rfl⟩
    | succ k => exact ih h
  | case2 flat hshort => simp [offsetPairs] at h

/-- Settles O23: an even list is half as many pairs, read word by word; an odd one is rejected. -/
theorem baOffsetsReadsPairs : Obligations.BaOffsetsReadsPairs := by
  refine ⟨rfl, fun flat s => ⟨fun heven => ?even, fun hodd => ?odd⟩⟩
  case even =>
    have hparse : parseOffsets flat = .ok (offsetPairs flat) := if_neg (by omega)
    have hlen : flat.length = 2 * (flat.length / 2) := by omega
    refine ⟨offsetPairs flat, ?_, ?_, fun k off hoff => ?_⟩
    · rw [exec_baOffsets, hparse]
      rfl
    · rw [offsetPairs_length hlen, ← hlen]
    · obtain ⟨o, i, ho, hi, rfl⟩ := offsetPairs_getElem? hoff
      exact ⟨o, i, ho, hi, rfl, rfl⟩
  case odd =>
    have hparse : parseOffsets flat = .error .registerCount := if_pos hodd
    rw [exec_baOffsets, hparse]
    rfl

/-! ### BA_MODLIST -/

theorem be32_eq_ofNat (hi lo : Word16) :
    be32 hi lo = BitVec.ofNat 32 (hi.toNat * 65536 + lo.toNat) := by
  apply BitVec.eq_of_toNat_eq
  have hh := hi.isLt
  have hl := lo.isLt
  rw [be32_toNat, BitVec.toNat_ofNat]
  omega

theorem identifiers_length (regs : List Word16) : (identifiers regs).length = regs.length / 2 := by
  induction regs using identifiers.induct with
  | case1 hi lo rest ih =>
    rw [identifiers, List.length_cons, ih, List.length_cons, List.length_cons]
    omega
  | case2 regs hshort =>
    match regs, hshort with
    | [], _ => rfl
    | [_], _ => simp [identifiers]
    | hi :: lo :: rest, hshort => exact absurd rfl (hshort hi lo rest)

/-- The k-th identifier is the register pair from 2k on, high register first (R50). -/
theorem identifiers_getElem? {regs : List Word16} {k : Nat} (h : 2 * k + 1 < regs.length) :
    (identifiers regs)[k]? = some (BitVec.ofNat 32
      ((regs.getD (2 * k) 0).toNat * 65536 + (regs.getD (2 * k + 1) 0).toNat)) := by
  induction regs using identifiers.induct generalizing k with
  | case1 hi lo rest ih =>
    cases k with
    | zero => exact congrArg some (be32_eq_ofNat hi lo)
    | succ k =>
      simp only [List.length_cons] at h
      exact ih (k := k) (by omega)
  | case2 regs hshort =>
    match regs, hshort with
    | [], _ => cases h
    | [_], _ => simp at h
    | hi :: lo :: rest, hshort => exact absurd rfl (hshort hi lo rest)

theorem lookupTypes_of_known {C : Codecs} {ids : List Word32} {ts : List ModuleType}
    (h : List.Forall₂ (fun id t => C.typeOfId id = some t) ids ts) : lookupTypes C ids = .ok ts := by
  induction h with
  | nil => rfl
  | cons hid _ ih => simp only [lookupTypes, hid, ih, ok_bind]

theorem lookupTypes_of_unknown {C : Codecs} {ids : List Word32} {id : Word32} (hmem : id ∈ ids)
    (h : C.typeOfId id = none) : lookupTypes C ids = .error .unknownModule := by
  induction ids with
  | nil => cases hmem
  | cons id' rest ih =>
    rw [lookupTypes]
    rcases List.mem_cons.1 hmem with rfl | hmem
    · rw [h]
    · cases C.typeOfId id' with
      | none => rfl
      | some t => simp only [ih hmem, error_bind]

theorem parseModlist_of_pairs {C : Codecs} {regs : List Word16} (hne : regs ≠ [])
    (heven : regs.length % 2 = 0) : parseModlist C regs = lookupTypes C (identifiers regs) := by
  have hpos := List.length_pos_iff.2 hne
  exact if_neg (by omega)

/-- Settles O24: the length check, then one lookup per register pair, an unknown identifier raising. -/
theorem baModlistLooksUpIdentifiers : Obligations.BaModlistLooksUpIdentifiers := by
  refine ⟨rfl, fun regs s => ⟨fun hbad => ?length, fun hne heven ts hlen hknown => ?known,
    fun hne heven hunknown => ?unknown⟩⟩
  case length =>
    have hparse : parseModlist s.codecs regs = .error .registerCount :=
      if_pos (hbad.imp_left List.length_eq_zero_iff.2)
    rw [exec_baModlist, hparse]
    rfl
  case known =>
    have hids : List.Forall₂ (fun id t => s.codecs.typeOfId id = some t) (identifiers regs) ts := by
      rw [List.forall₂_iff_get]
      refine ⟨by rw [identifiers_length]; omega, fun k hk hkt => ?_⟩
      have hpair := identifiers_getElem? (regs := regs) (k := k) (by omega)
      rw [List.getElem?_eq_getElem hk, Option.some.injEq] at hpair
      simp only [List.get_eq_getElem, hpair, hknown k hkt, List.getElem?_eq_getElem hkt]
    rw [exec_baModlist, parseModlist_of_pairs hne heven, lookupTypes_of_known hids]
    rfl
  case unknown =>
    obtain ⟨k, hk, hnone⟩ := hunknown
    have hmem := List.mem_of_getElem? (identifiers_getElem? (regs := regs) (k := k) (by omega))
    rw [exec_baModlist, parseModlist_of_pairs hne heven, lookupTypes_of_unknown hmem hnone]
    rfl

end Sys2Proof.Proofs.AddressWords

/-! ## Unit 1, the mapper -/

namespace Sys2Proof.Proofs.Images

open Sys2Proof Sys2Proof.Machine Sys2Proof.Claims Sys2Proof.Proofs.AddressCodec
  Sys2Proof.Proofs.Mapper

/-! ### The window by its words -/

section
variable {data ws xs : List Word16} {start n k : Nat}

theorem windowWords_getElem? (hk : k < n) : ((data.drop start).take n)[k]? = data[start + k]? := by
  rw [List.getElem?_take_of_lt hk, List.getElem?_drop]

theorem windowWords_getD (hk : k < n) :
    ((data.drop start).take n).getD k 0 = data.getD (start + k) 0 := by
  rw [List.getD_eq_getElem?_getD, windowWords_getElem? hk, List.getD_eq_getElem?_getD]

/-- The raw window word by word (R100). -/
theorem eq_windowWords_iff (h : start + n ≤ data.length) :
    ws = (data.drop start).take n ↔ ws.length = n ∧ ∀ k < n, ws[k]? = data[start + k]? := by
  refine ⟨fun hws => hws ▸ ⟨windowWords_length h, fun k hk => windowWords_getElem? hk⟩,
    fun ⟨hlen, hwords⟩ => ?_⟩
  apply List.ext_getElem? fun k => ?_
  by_cases hk : k < n
  · rw [hwords k hk, windowWords_getElem? hk]
  · rw [List.getElem?_eq_none (by omega), List.getElem?_eq_none (by rw [windowWords_length h]; omega)]

/-- SHIFT8 word by word (R102). -/
theorem eq_shift8_iff (hne : xs ≠ []) :
    ws = shift8 xs ↔ ws.length = xs.length ∧ ∀ k < xs.length, (ws.getD k 0).toNat =
      (xs.getD k 0).toNat / 256 +
        256 * (if k + 1 < xs.length then (xs.getD (k + 1) 0).toNat % 256 else 0) := by
  refine ⟨fun hws => hws ▸ ⟨shift8_length xs hne, fun k hk => shift8_getD xs k hk⟩,
    fun ⟨hlen, hwords⟩ => ?_⟩
  refine List.ext_getElem (hlen.trans (shift8_length xs hne).symm) fun k hk hk' => ?_
  have hword := (hwords k (hlen ▸ hk)).trans (shift8_getD xs k (hlen ▸ hk)).symm
  rw [List.getD_eq_getElem _ _ hk, List.getD_eq_getElem _ _ hk'] at hword
  exact BitVec.eq_of_toNat_eq hword

/-- SHIFT8 of a raw window, by the words of the data (R100, R102). -/
theorem eq_shift8_windowWords_iff (h : start + n ≤ data.length) (hn : 0 < n) :
    ws = shift8 ((data.drop start).take n) ↔ ws.length = n ∧ ∀ k < n, (ws.getD k 0).toNat =
      (data.getD (start + k) 0).toNat / 256 +
        256 * (if k + 1 < n then (data.getD (start + k + 1) 0).toNat % 256 else 0) := by
  have hlen := windowWords_length h
  rw [eq_shift8_iff (List.ne_nil_of_length_pos (hlen.symm ▸ hn)), hlen]
  refine and_congr_right fun _ => forall₂_congr fun k hk => ?_
  rw [windowWords_getD hk]
  by_cases hnext : k + 1 < n
  · rw [if_pos hnext, if_pos hnext, windowWords_getD hnext, Nat.add_assoc]
  · rw [if_neg hnext, if_neg hnext]

end

/-- WINDOW answers exactly the window of R100 to R102. -/
theorem window_ok_iff_isWindow {o : BitAddress} {byteCount : Nat} {base : Word16}
    {data ws : List Word16} : window o byteCount base data = .ok ws ↔ IsWindow o byteCount base data ws := by
  rw [window_ok_iff]
  refine and_congr_right fun _ => and_congr_right fun hlen => ?_
  rw [eq_windowWords_iff hlen, eq_shift8_windowWords_iff hlen (Nat.le_max_left 1 _)]
  change _ ↔ ws.length = wordCount byteCount ∧ _
  tauto

/-! ### What a decode operation answers -/

/-- A response that carries a computed result is OK with a value exactly where the computation is. -/
theorem next_ok_iff {α : Type} {s : State} {x : Except Err α} {f : α → Result}
    (hf : Function.Injective f) {a : α} :
    (Host.Outcome.next { s with response := some (responseOf (x.map f)) } :
        Host.Outcome State Fault Refusal) = .next { s with response := some (.ok (f a)) } ↔
      x = .ok a := by
  cases x with
  | error e => simp [Except.map]
  | ok b => simp [Except.map, hf.eq_iff]

theorem decodeModule_ok_iff_decodesTo {n : Nat} {o : Option BitAddress} {byteCount : Nat}
    {dec : List Word16 → Except CodecError (List ChannelValue)} {base : Word16} {data : List Word16}
    {vs : List ChannelValue} :
    decodeModule n o byteCount dec base data = .ok vs ↔ DecodesTo n o byteCount dec base data vs := by
  simp only [decodeModule_ok_iff, DecodesTo, window_ok_iff_isWindow]

section
variable {C : Codecs} {base : Word16} {data : List Word16} {mods : List (CodecInst × ModuleOffset)}
  {vss : List (List ChannelValue)}

theorem decodeInputs_ok_iff :
    decodeInputs C mods base data = .ok vss ↔ List.Forall₂ (DecodesInput C base data) mods vss := by
  simp only [decodeInputs, decodeModules_ok_iff, decodeModule_ok_iff_decodesTo]
  rfl

theorem decodeOutputs_ok_iff :
    decodeOutputs C mods base data = .ok vss ↔ List.Forall₂ (DecodesOutput C base data) mods vss := by
  simp only [decodeOutputs, decodeModules_ok_iff, decodeModule_ok_iff_decodesTo]
  rfl

end

theorem values_injective : Function.Injective Result.values := fun _ _ h => Result.values.inj h

theorem exec_mapDecodeIn_ok_iff {mods : List (CodecInst × ModuleOffset)} {base : Word16}
    {data : List Word16} {vss : List (List ChannelValue)} {s : State} :
    exec (.mapDecodeIn mods base data) s = .next { s with response := some (.ok (.values vss)) } ↔
      decodeInputs s.codecs mods base data = .ok vss := by
  rw [exec_mapDecodeIn]
  exact next_ok_iff values_injective

theorem exec_mapDecodeOut_ok_iff {mods : List (CodecInst × ModuleOffset)} {base : Word16}
    {data : List Word16} {vss : List (List ChannelValue)} {s : State} :
    exec (.mapDecodeOut mods base data) s = .next { s with response := some (.ok (.values vss)) } ↔
      decodeOutputs s.codecs mods base data = .ok vss := by
  rw [exec_mapDecodeOut]
  exact next_ok_iff values_injective

/-- Settles O26: the answer is OK exactly where DECODE is, and DECODE is one window and one codec call per
module. -/
theorem mapDecodeYieldsEachModule : Obligations.MapDecodeYieldsEachModule := fun _ _ _ _ _ =>
  ⟨exec_mapDecodeIn_ok_iff.trans decodeInputs_ok_iff,
    exec_mapDecodeOut_ok_iff.trans decodeOutputs_ok_iff⟩

/-! ### The error order of DECODE -/

/-- The order of R113 on a module whose offset is present. -/
theorem decodeModule_error_of_raises {n : Nat} {a : BitAddress} {byteCount : Nat}
    {dec : List Word16 → Except CodecError (List ChannelValue)} {base : Word16} {data : List Word16}
    {e : Err} (h : DecodeRaises a byteCount dec base data e) :
    decodeModule n (some a) byteCount dec base data = .error e := by
  rw [decodeModule_error_iff]
  refine ⟨a, rfl, ?_⟩
  simp only [DecodeRaises] at h
  split at h
  case isTrue hbelow => exact .inl (window_error_iff.2 (.inl ⟨hbelow, h⟩))
  case isFalse hbase =>
    split at h
    case isTrue hpast => exact .inl (window_error_iff.2 (.inr (.inl ⟨Nat.not_lt.1 hbase, hpast, h⟩)))
    case isFalse hin =>
      split at h
      case isTrue hbit =>
        exact .inl (window_error_iff.2
          (.inr (.inr ⟨Nat.not_lt.1 hbase, Nat.not_lt.1 hin, hbit.1, hbit.2, h⟩)))
      case isFalse =>
        obtain ⟨ws, ce, hws, hdec, rfl⟩ := h
        exact .inr ⟨ws, ce, window_ok_iff_isWindow.2 hws, hdec, rfl⟩

/-- Settles O27: the modules before decode, and the module's own first error is the list's. -/
theorem mapDecodeErrorOrder : Obligations.MapDecodeErrorOrder := by
  intro before rest c off a base data vss e s
  refine ⟨fun hbefore hoff hraises => ?input, fun hbefore hoff hraises => ?output⟩
  case input =>
    have herr : decodeInputs s.codecs (before ++ (c, off) :: rest) base data = .error e := by
      refine decodeModules_error_append (decodeInputs_ok_iff.2 hbefore) ?_
      simp only [inputView, hoff]
      exact decodeModule_error_of_raises hraises
    rw [exec_mapDecodeIn, herr]
    rfl
  case output =>
    have herr : decodeOutputs s.codecs (before ++ (c, off) :: rest) base data = .error e := by
      refine decodeModules_error_append (decodeOutputs_ok_iff.2 hbefore) ?_
      simp only [outputView, hoff]
      exact decodeModule_error_of_raises hraises
    rw [exec_mapDecodeOut, herr]
    rfl

/-! ### PLACE and the loop of MAP_ENCODE -/

theorem modify_concat {α : Type} (f : α → α) (init : List α) (a : α) :
    (init ++ [a]).modify init.length f = init ++ [f a] := by
  induction init with
  | nil => rfl
  | cons b init ih => simp [ih]

/-- Writing the last of `start + 1` words (R108). -/
theorem eq_modify_last_iff {out out' : List Word16} {start : Nat} (hlen : out.length = start + 1)
    (w : Word16) :
    (out' = out.modify start fun old => mergeHigh old w) ↔
      ∃ init old new, out = init ++ [old] ∧ out' = init ++ [new] ∧
        new.toNat = old.toNat % 256 + 256 * (w.toNat % 256) := by
  constructor
  · rintro rfl
    obtain ⟨init, old, rfl⟩ := (List.eq_nil_or_concat' out).resolve_left (by rintro rfl; simp at hlen)
    obtain rfl : init.length = start := by simpa using hlen
    exact ⟨init, old, mergeHigh old w, rfl, modify_concat _ init old, mergeHigh_toNat old w⟩
  · rintro ⟨init, old, new, rfl, rfl, hnew⟩
    obtain rfl : init.length = start := by simpa using hlen
    have hmerge : new = mergeHigh old w := BitVec.eq_of_toNat_eq (hnew.trans (mergeHigh_toNat old w).symm)
    rw [modify_concat, hmerge]

/-- PLACE answers exactly where the placement of R106 to R108 is possible, and answers it. -/
theorem place_ok_iff_places {out ws out' : List Word16} {o : BitAddress} {base : Word16} :
    place out ws o base = .ok out' ↔ Places base o ws out out' := by
  rw [place_ok_iff]
  refine and_congr_right fun _ => or_congr_right (and_congr_right fun _ => and_congr_right fun hlen => ?_)
  constructor
  · rintro ⟨w, rest, rfl, hout'⟩
    obtain ⟨init, old, new, hout, hnew, hword⟩ := (eq_modify_last_iff hlen w).1 hout'
    exact ⟨init, old, w, rest, new, hout, rfl, hnew, hword⟩
  · rintro ⟨init, old, w, rest, new, hout, rfl, hnew, hword⟩
    exact ⟨w, rest, rfl, (eq_modify_last_iff hlen w).2 ⟨init, old, new, hout, hnew, hword⟩⟩

theorem encodesTo_absent {C : Codecs} {base : Word16} {c : CodecInst} {off : ModuleOffset}
    {vs : List ChannelValue} {rest : List ((CodecInst × ModuleOffset) × List ChannelValue)}
    {out fin : List Word16} (h : off.output = none) :
    EncodesTo C base (((c, off), vs) :: rest) out fin ↔ EncodesTo C base rest out fin := by
  rw [EncodesTo, h]

theorem encodesTo_present {C : Codecs} {base : Word16} {c : CodecInst} {off : ModuleOffset}
    {o : BitAddress} {vs : List ChannelValue}
    {rest : List ((CodecInst × ModuleOffset) × List ChannelValue)} {out fin : List Word16}
    (h : off.output = some o) :
    EncodesTo C base (((c, off), vs) :: rest) out fin ↔
      ∃ ws out', C.encodeOutput c vs = .ok ws ∧ Places base o ws out out' ∧
        EncodesTo C base rest out' fin := by
  rw [EncodesTo, h]

/-- The loop answers exactly what the rules build (R105, R109). -/
theorem encodeModules_ok_iff {C : Codecs} {base : Word16}
    {mvs : List ((CodecInst × ModuleOffset) × List ChannelValue)} {out fin : List Word16} :
    encodeModules C base mvs out = .ok fin ↔ EncodesTo C base mvs out fin := by
  induction mvs generalizing out with
  | nil => simp [encodeModules, EncodesTo]
  | cons mv mvs ih =>
    obtain ⟨⟨c, off⟩, vs⟩ := mv
    cases hoff : off.output with
    | none => rw [encodeModules_absent hoff, encodesTo_absent hoff, ih]
    | some o =>
      simp only [encodeModules_present hoff, encodesTo_present hoff, bind_ok_iff, codecCall_ok_iff,
        place_ok_iff_places, ih, exists_and_left]

theorem mapEncode_ok_iff {C : Codecs} {mods : List (CodecInst × ModuleOffset)} {base : Word16}
    {values : List (List ChannelValue)} {ws : List Word16} :
    mapEncode C mods base values = .ok ws ↔
      mods.length = values.length ∧ EncodesTo C base (mods.zip values) [] ws := by
  by_cases hlen : mods.length = values.length
  · rw [mapEncode_eq hlen, encodeModules_ok_iff]
    exact (and_iff_right hlen).symm
  · rw [mapEncode_arity hlen]
    simp [hlen]

/-! ### What MAP_ENCODE answers -/

theorem exec_mapEncode (mods : List (CodecInst × ModuleOffset)) (base : Word16)
    (values : List (List ChannelValue)) (s : State) :
    exec (.mapEncode mods base values) s =
      .next { s with
        response := some (responseOf ((mapEncode s.codecs mods base values).map .words)) } :=
  (exec_eq_finish _ s).trans (finish_stateless s _ _)

theorem words_injective : Function.Injective Result.words := fun _ _ h => Result.words.inj h

theorem exec_mapEncode_ok_iff {mods : List (CodecInst × ModuleOffset)} {base : Word16}
    {values : List (List ChannelValue)} {ws : List Word16} {s : State} :
    exec (.mapEncode mods base values) s = .next { s with response := some (.ok (.words ws)) } ↔
      mapEncode s.codecs mods base values = .ok ws := by
  rw [exec_mapEncode]
  exact next_ok_iff words_injective

/-- Settles O29: the answer is OK exactly where the loop is, and the loop is the rules' relation. -/
theorem mapEncodeBuildsTheImage : Obligations.MapEncodeBuildsTheImage := fun _ _ _ _ _ =>
  exec_mapEncode_ok_iff.trans mapEncode_ok_iff

/-- The order of R111 on one module after `out`. -/
theorem encodeModules_error_of_raises {C : Codecs} {base : Word16} {c : CodecInst} {off : ModuleOffset}
    {vs : List ChannelValue} {o : BitAddress} {out : List Word16} {e : Err}
    {rest : List ((CodecInst × ModuleOffset) × List ChannelValue)} (hoff : off.output = some o)
    (h : EncodeRaises C base c vs o out e) :
    encodeModules C base (((c, off), vs) :: rest) out = .error e := by
  rw [encodeModules_present hoff, bind_error_iff]
  rcases h with ⟨ce, hcodec, he⟩ | ⟨ws, hcodec, hplace⟩
  · exact .inl (codecCall_error_iff.2 ⟨ce, hcodec, he⟩)
  · refine .inr ⟨ws, codecCall_ok_iff.2 hcodec, bind_error_iff.2 (.inl ?_)⟩
    exact place_error_iff.2 hplace

/-- Settles O30: the arity is checked first, and after the modules that place well the loop raises the
first error of the next one. -/
theorem mapEncodeErrorOrder : Obligations.MapEncodeErrorOrder := by
  refine ⟨fun mods base values s harity => ?arity,
    fun before rest c off vss vssRest vs o base out e s hb hr hbefore hoff hraises => ?loop⟩
  case arity =>
    rw [exec_mapEncode, mapEncode_arity harity]
    rfl
  case loop =>
    have herr : mapEncode s.codecs (before ++ (c, off) :: rest) base (vss ++ vs :: vssRest) = .error e := by
      rw [mapEncode_eq (by simp [hb, hr]), List.zip_append hb, encodeModules_append,
        encodeModules_ok_iff.2 hbefore, ok_bind]
      exact encodeModules_error_of_raises hoff hraises
    rw [exec_mapEncode, herr]
    rfl

/-! ### Consequences of the contiguity checks -/

/-- A module adds its words at bit 0 and none at bit 8 (R107, R108). -/
theorem places_length {C : Codecs} {base : Word16} {c : CodecInst} {off : ModuleOffset} {o : BitAddress}
    {vs : List ChannelValue} {ws out out' : List Word16} (hoff : off.output = some o)
    (hcodec : C.encodeOutput c vs = .ok ws) (h : Places base o ws out out') :
    out'.length = out.length + bit0Words C ((c, off), vs) := by
  simp only [bit0Words, hoff, hcodec]
  obtain ⟨-, ⟨hbit, -, rfl⟩ | ⟨hbit, -, init, old, w0, rest, new, rfl, -, rfl, -⟩⟩ := h
  · rw [if_pos hbit, List.length_append]
  · rw [if_neg (by omega)]
    simp

theorem encodesTo_length {C : Codecs} {base : Word16}
    {mvs : List ((CodecInst × ModuleOffset) × List ChannelValue)} {out fin : List Word16}
    (h : EncodesTo C base mvs out fin) : fin.length = out.length + (mvs.map (bit0Words C)).sum := by
  induction mvs generalizing out with
  | nil =>
    obtain rfl : out = fin := h
    rfl
  | cons mv mvs ih =>
    obtain ⟨⟨c, off⟩, vs⟩ := mv
    rw [List.map_cons, List.sum_cons]
    cases hoff : off.output with
    | none =>
      have hzero : bit0Words C ((c, off), vs) = 0 := by simp only [bit0Words, hoff]
      rw [ih ((encodesTo_absent hoff).1 h), hzero, Nat.zero_add]
    | some o =>
      obtain ⟨ws, out', hcodec, hplaces, hrest⟩ := (encodesTo_present hoff).1 h
      rw [ih hrest, places_length hoff hcodec hplaces, Nat.add_assoc]

/-- The first placement into an empty image is at the base register, bit 0 (R110). -/
theorem places_nil {base : Word16} {o : BitAddress} {ws out' : List Word16}
    (h : Places base o ws [] out') : o.toNat / 16 = base.toNat ∧ o.toNat % 16 = 0 := by
  obtain ⟨hbase, ⟨hbit, hlen, -⟩ | ⟨-, hlen, -⟩⟩ := h
  · rw [List.length_nil] at hlen
    exact ⟨by omega, hbit⟩
  · rw [List.length_nil] at hlen
    omega

theorem encodesTo_first {C : Codecs} {base : Word16} {mods : List (CodecInst × ModuleOffset)}
    {values : List (List ChannelValue)} {fin : List Word16} {o : BitAddress}
    (hlen : mods.length = values.length) (h : EncodesTo C base (mods.zip values) [] fin)
    (ho : (mods.filterMap fun m => m.2.output).head? = some o) :
    o.toNat / 16 = base.toNat ∧ o.toNat % 16 = 0 := by
  induction mods generalizing values with
  | nil => cases ho
  | cons m mods ih =>
    cases values with
    | nil => cases hlen
    | cons vs values =>
      obtain ⟨c, off⟩ := m
      rw [List.zip_cons_cons] at h
      cases hoff : off.output with
      | none =>
        simp only [List.filterMap_cons, hoff] at ho
        exact ih (Nat.succ.inj hlen) ((encodesTo_absent hoff).1 h) ho
      | some o' =>
        simp only [List.filterMap_cons, hoff, List.head?_cons, Option.some.injEq] at ho
        subst ho
        obtain ⟨ws, out', -, hplaces, -⟩ := (encodesTo_present hoff).1 h
        exact places_nil hplaces

/-- Settles O31: every placement adds its bit-0 words, and the first one starts from the empty image. -/
theorem mapEncodeIsContiguous : Obligations.MapEncodeIsContiguous := by
  intro mods base values ws s hexec
  obtain ⟨hlen, hencodes⟩ := (mapEncodeBuildsTheImage mods base values ws s).1 hexec
  refine ⟨?_, fun o ho => encodesTo_first hlen hencodes ho⟩
  rw [encodesTo_length hencodes, List.length_nil, Nat.zero_add]

/-! ### The shared register -/

/-- The bit address of a register's bit, as a number (R18). -/
theorem bitAddress_toNat {register bit : Nat} (hr : register ≤ 0x0FFF) (hb : bit < 16) :
    (BitVec.ofNat 16 (16 * register + bit)).toNat = 16 * register + bit := by
  rw [BitVec.toNat_ofNat]
  omega

theorem lowMask_toNat (w : Word16) : (w &&& 0x00FF).toNat = w.toNat % 256 := by
  rw [BitVec.toNat_and]
  exact Nat.and_two_pow_sub_one_eq_mod w.toNat 8

section
variable {register : Nat} (hr : register ≤ 0x0FFF)
include hr

theorem base_toNat : (BitVec.ofNat 16 register).toNat = register := by
  rw [BitVec.toNat_ofNat]
  omega

/-- A one-word module at bit 0, then a module at bit 8 of the same register, build one word (R107, R108). -/
theorem encodesTo_shared {C : Codecs} {lo hi : CodecInst} {vlo vhi : List ChannelValue} {a b : Word16}
    {bs : List Word16} (hlo : C.encodeOutput lo vlo = .ok [a]) (hhi : C.encodeOutput hi vhi = .ok (b :: bs)) :
    EncodesTo C (BitVec.ofNat 16 register)
      [((lo, ⟨none, some (BitVec.ofNat 16 (16 * register))⟩), vlo),
        ((hi, ⟨none, some (BitVec.ofNat 16 (16 * register + 8))⟩), vhi)] [] [mergeHigh a b] := by
  have hbase := base_toNat hr
  have h0 : (BitVec.ofNat 16 (16 * register)).toNat = 16 * register := bitAddress_toNat hr (bit := 0) (by omega)
  have h8 := bitAddress_toNat hr (bit := 8) (by omega)
  refine ⟨[a], [a], hlo, ?low, b :: bs, [mergeHigh a b], hhi, ?high, rfl⟩
  case low => exact ⟨by omega, .inl ⟨by omega, by rw [List.length_nil]; omega, rfl⟩⟩
  case high =>
    refine ⟨by omega, .inr ⟨by omega, by rw [List.length_singleton]; omega, ?_⟩⟩
    exact ⟨[], a, b, bs, mergeHigh a b, rfl, rfl, rfl, mergeHigh_toNat a b⟩

/-- The window of the module at bit 8 in the merged word is the low byte of its own first word (R102;
90_conflicts.md C6). -/
theorem isWindow_shared {byteCount : Nat} (hn : byteCount ≤ 3) (a b : Word16) :
    IsWindow (BitVec.ofNat 16 (16 * register + 8)) byteCount (BitVec.ofNat 16 register) [mergeHigh a b]
      [b &&& 0x00FF] := by
  have hbase := base_toNat hr
  have h8 := bitAddress_toNat hr (bit := 8) (by omega)
  have hone : max 1 (byteCount / 2) = 1 := by omega
  have hstart : (16 * register + 8) / 16 - register = 0 := by omega
  simp only [IsWindow, hbase, h8, hone, hstart]
  refine ⟨by omega, by simp, rfl, .inr ⟨by omega, fun k hk => ?_⟩⟩
  obtain rfl : k = 0 := by omega
  have hmerge := mergeHigh_toNat a b
  simp only [Nat.zero_add, Nat.lt_irrefl, if_false, List.getD_cons_zero, lowMask_toNat]
  omega

end

/-- Settles O32: the merged word has the first module's low byte low and the second's high, so the bit-8
window gives the latter back. -/
theorem sharedRegisterRoundTrips : Obligations.SharedRegisterRoundTrips := by
  intro lo hi register vlo vhi a b bs s hr hlo hhi hn
  refine ⟨mergeHigh a b, ?encode, ?low, fun vs hvs => ?decode⟩
  case encode => exact (mapEncodeBuildsTheImage _ _ _ _ s).2 ⟨rfl, encodesTo_shared hr hlo hhi⟩
  case low =>
    rw [mergeHigh_toNat]
    omega
  case decode =>
    refine (mapDecodeYieldsEachModule _ _ _ _ s).2.2 (.cons (.inr ?_) .nil)
    exact ⟨_, _, rfl, isWindow_shared hr hn a b, hvs⟩

/-! ### Statelessness -/

/-- Settles O33: each operation answers from its operands and the codecs, and writes the response port
only. -/
theorem unitOneIsStateless : Obligations.UnitOneIsStateless := by
  intro i hi s s' hcodecs
  cases i with
  | mapDecodeIn mods base data =>
    refine ⟨_, exec_mapDecodeIn mods base data s, ?_⟩
    rw [hcodecs]
    exact exec_mapDecodeIn mods base data s'
  | mapDecodeOut mods base data =>
    refine ⟨_, exec_mapDecodeOut mods base data s, ?_⟩
    rw [hcodecs]
    exact exec_mapDecodeOut mods base data s'
  | mapEncode mods base values =>
    refine ⟨_, exec_mapEncode mods base values s, ?_⟩
    rw [hcodecs]
    exact exec_mapEncode mods base values s'
  | _ => simp [Instr.opcode] at hi

end Sys2Proof.Proofs.Images

/-! ## Unit 2, the sequencer -/

namespace Sys2Proof.Proofs.Streams

open Sys2Proof Sys2Proof.Machine Sys2Proof.Claims Sys2Proof.Proofs.Sequencer
  Sys2Proof.Proofs.Exceptions

/-! ### Construction and lookup -/

theorem exec_seqNew_of_some {key frameLen : Nat} {l : FrameLen} (h : FrameLen.ofBytes frameLen = some l)
    (s : State) :
    exec (.seqNew key frameLen) s =
      .next { s with
        seq := mapSet natLt s.seq key (SeqState.fresh l s.draws), draws := s.draws + 1
        response := some (.ok .none) } := by
  have heffect : effect (.seqNew key frameLen) s =
      .ok ({ s.setInstance key (SeqState.fresh l s.draws) with draws := s.draws + 1 }, .none) :=
    seqNew_ok_iff.2 ⟨l, h, rfl, rfl⟩
  rw [exec_eq_finish, heffect, finish_ok]
  rfl

/-- Settles O34: the two lengths are the two frame formats, and any other is none. -/
theorem seqNewMakesAFreshInstance : Obligations.SeqNewMakesAFreshInstance := by
  refine fun key frameLen s => ⟨fun l hl => ?format, fun h8 h16 => ?other⟩
  case format =>
    exact ⟨_, SeqState.fresh l s.draws, exec_seqNew_of_some ((ofBytes_eq_some_iff _ _).2 hl) s, rfl,
      mapGet_mapSet_self natLt s.seq key _, rfl, rfl, rfl, rfl,
      fun k hk => mapGet_mapSet_other natLt s.seq key k _ hk⟩
  case other =>
    have heffect : effect (.seqNew key frameLen) s = .error .channelParameter :=
      seqNew_error_iff.2 ⟨(ofBytes_eq_none_iff _).2 ⟨h8, h16⟩, rfl⟩
    rw [exec_eq_finish, heffect, finish_error]
    rfl

/-- An error of the effect is the answer. -/
theorem exec_of_effect_error {i : Instr} {s : State} {e : Err} (h : effect i s = .error e) :
    exec i s = .next { s with response := some (.error e) } := by
  rw [exec_eq_finish, h, finish_error]
  rfl

/-- Settles O35: each of the five operations looks its key up first. -/
theorem unknownKeyRaisesAddress : Obligations.UnknownKeyRaisesAddress := by
  intro key s hkey i hi
  have hlookup : lookupInstance s.seq key = .error .address := lookupInstance_error_iff.2 ⟨hkey, rfl⟩
  have hnext (input : FrameIn) (output : FrameOut) : seqNext key input output s = .error .address := by
    rw [seqNext, hlookup, error_bind]
  have hwrite (bs : List Byte) : seqWrite key bs s = .error .address := by
    rw [seqWrite, hlookup, error_bind]
  have hread : seqRead key s = .error .address := by rw [seqRead, hlookup, error_bind]
  rcases hi with ⟨input, output, rfl⟩ | ⟨bs, rfl⟩ | rfl | rfl | ⟨bs, rfl⟩
  · exact exec_of_effect_error (hnext input output)
  · exact exec_of_effect_error (hwrite bs)
  · exact exec_of_effect_error hread
  · exact exec_of_effect_error hread
  · exact exec_of_effect_error (hwrite bs)

/-! ### SEQ_NEXT -/

/-- The state in which SEQ_NEXT answers `f`: `SEQ[key]` written and the frame on the response port. -/
def stepped (s : State) (key : Nat) (q : SeqState) (f : FrameOut) : State :=
  (s.setInstance key q).respond (.ok (.frame f))

@[simp] theorem stepped_params (s : State) (key : Nat) (q : SeqState) (f : FrameOut) :
    (stepped s key q f).params = s.params := rfl

@[simp] theorem stepped_response (s : State) (key : Nat) (q : SeqState) (f : FrameOut) :
    (stepped s key q f).response = some (.ok (.frame f)) := rfl

@[simp] theorem mapGet_stepped_self (s : State) (key : Nat) (q : SeqState) (f : FrameOut) :
    mapGet (stepped s key q f).seq key = some q := mapGet_mapSet_self natLt s.seq key q

theorem mapGet_stepped_other (s : State) {key k : Nat} (hk : k ≠ key) (q : SeqState) (f : FrameOut) :
    mapGet (stepped s key q f).seq k = mapGet s.seq k := mapGet_mapSet_other natLt s.seq key k q hk

/-- Writing what is read at the key changes no read. -/
theorem mapGet_stepped_same {s : State} {key : Nat} {p : SeqState} (hp : mapGet s.seq key = some p)
    (f : FrameOut) (k : Nat) : mapGet (stepped s key p f).seq k = mapGet s.seq k := by
  by_cases hk : k = key
  · rw [hk, mapGet_stepped_self, hp]
  · exact mapGet_stepped_other s hk p f

theorem exec_seqNext_stepped {key : Nat} {input : FrameIn} {output out : FrameOut} {s : State}
    {p q : SeqState} (hp : mapGet s.seq key = some p)
    (hadv : p.advance s.params.inBufCap input output = .ok (q, out)) :
    exec (.seqNext key input output) s = .next (stepped s key q out) :=
  exec_seqNext_of_advance hp hadv

/-- A frame SEQ_NEXT answers is the advance's, whose entry is written (R118). -/
theorem advance_of_exec_seqNext {key : Nat} {input : FrameIn} {output f : FrameOut} {s t : State}
    (hexec : exec (.seqNext key input output) s = .next t) (hf : t.response = some (.ok (.frame f))) :
    ∃ p q, mapGet s.seq key = some p ∧ p.advance s.params.inBufCap input output = .ok (q, f) ∧
      t = stepped s key q f := by
  rw [exec_eq_finish] at hexec
  obtain ⟨u, hu, rfl⟩ := finish_response_ok hexec hf
  obtain ⟨p, q, out, hp, hadv, rfl, hout⟩ := seqNext_ok_iff.1 hu
  cases hout
  exact ⟨p, q, hp, hadv, rfl⟩

/-- Settles O36: an entry that is not Done is in one of two states, each with its frame and its
successor. -/
theorem seqNextInitialises : Obligations.SeqNextInitialises := by
  intro key input output s p hp hnot
  cases hi : p.initState with
  | done => exact absurd hi hnot
  | clearBuffers =>
    exact ⟨_, exec_seqNext_stepped hp (advance_clearBuffers hi), rfl,
      fun k hk => mapGet_stepped_other s hk _ _, fun _ => ⟨rfl, mapGet_stepped_self s key _ _⟩, nofun⟩
  | reset =>
    exact ⟨_, exec_seqNext_stepped hp (advance_reset hi), rfl,
      fun k hk => mapGet_stepped_other s hk _ _, nofun, fun _ => ⟨rfl, mapGet_stepped_self s key _ _⟩⟩

theorem fits_eq_false_iff (cap : Option Nat) (n : Nat) : fits cap n = false ↔ ∃ k, cap = some k ∧ k < n := by
  cases cap <;> simp [fits]

/-- Settles O38: a Done entry that accepts a frame past its capacity is where the advance raises. -/
theorem inboundOverflowRaisesBufferLength : Obligations.InboundOverflowRaisesBufferLength := by
  intro key input output s p cap hp hd hcap havail hnew hover
  have hadv : p.advance s.params.inBufCap input output = .error .bufferLength :=
    advance_error_iff.2 ⟨rfl, hd, (accepts_iff _ _).2 ⟨havail, hnew⟩,
      (fits_eq_false_iff _ _).2 ⟨cap, hcap, hover⟩⟩
  have heffect : effect (.seqNext key input output) s = .error .bufferLength := by
    simp only [effect, seqNext, lookupInstance_ok_iff.2 hp, ok_bind, hadv, error_bind]
  exact exec_of_effect_error heffect

/-- Every advance ends with the acknowledgement (R122). -/
theorem advance_rxCntAck {cap : Option Nat} {p q : SeqState} {input : FrameIn} {output out : FrameOut}
    (h : p.advance cap input output = .ok (q, out)) : out.rxCntAck = input.rxCnt := by
  rcases advance_ok_cases h with ⟨-, -, rfl⟩ | ⟨-, -, rfl⟩ | ⟨-, -, rfl⟩ <;>
    exact acknowledge_rxCntAck _ _

/-- Settles O39: the frame is some advance's. -/
theorem everySeqNextAcknowledges : Obligations.EverySeqNextAcknowledges := by
  intro key input output f s t hexec hf
  obtain ⟨p, q, -, hadv, -⟩ := advance_of_exec_seqNext hexec hf
  exact advance_rxCntAck hadv

/-! ### Stall -/

/-- A stalled Done entry that accepts nothing is left as it is (R120, R121). -/
theorem advance_of_stall {cap : Option Nat} {p : SeqState} {input : FrameIn} {output : FrameOut}
    (hd : p.initState = .done) (hcnt : output.txCnt.toNat = (input.txCntAck.toNat + 1) % 4)
    (hna : input.dataAvailable = false ∨ input.rxCnt = p.lastRxCnt) :
    p.advance cap input output = .ok (p, acknowledge input.rxCnt output) := by
  have hstall : maySend input.txCntAck output.txCnt = false :=
    Bool.eq_false_iff.2 fun hs => (maySend_iff _ _).1 hs hcnt.symm
  have hrx : p.rxStep cap input = .ok p := rxStep_ok_iff.2 (.inr ⟨(accepts_eq_false_iff _ _).2 hna, rfl⟩)
  rw [advance_done hd, txStep_of_stall (.inr hstall), hrx, ok_bind]

/-- A run of echoed operations from one answered operation (R125). -/
theorem echoRun_succ {key : Nat} {input : FrameIn} {output f : FrameOut} {s t : State}
    (h : exec (.seqNext key input output) s = .next t) (hf : t.response = some (.ok (.frame f))) (k : Nat) :
    echoRun key input (k + 1) output s = echoRun key input k f t := by
  rw [echoRun, h]
  simp only [hf]

/-- One stalled operation changes no entry, and its frame stalls again with the same acknowledgement. -/
theorem echoRun_of_stall {key : Nat} {input : FrameIn} {p : SeqState} (hd : p.initState = .done)
    (hna : input.dataAvailable = false ∨ input.rxCnt = p.lastRxCnt) (n : Nat) {output : FrameOut}
    {s : State} (hp : mapGet s.seq key = some p)
    (hcnt : output.txCnt.toNat = (input.txCntAck.toNat + 1) % 4) :
    ∃ t, echoRun key input (n + 1) output s = some (t, acknowledge input.rxCnt output) ∧
      t = { s with seq := t.seq, response := t.response } ∧ ∀ k, mapGet t.seq k = mapGet s.seq k := by
  have hexec := exec_seqNext_stepped hp (advance_of_stall (cap := s.params.inBufCap) hd hcnt hna)
  have hkeep := mapGet_stepped_same hp (acknowledge input.rxCnt output)
  induction n generalizing s output with
  | zero => exact ⟨_, echoRun_succ hexec rfl 0, rfl, hkeep⟩
  | succ n ih =>
    have hp' := mapGet_stepped_self s key p (acknowledge input.rxCnt output)
    obtain ⟨t, hrun, ht, hsame⟩ := ih (output := acknowledge input.rxCnt output) hp' hcnt
      (exec_seqNext_stepped hp' (advance_of_stall hd hcnt hna)) (mapGet_stepped_same hp' _)
    exact ⟨t, (echoRun_succ hexec rfl (n + 1)).trans hrun, ht, fun k => (hsame k).trans (hkeep k)⟩

/-- Settles O40: the count in flight is the one to send, so every operation of the loop stalls. -/
theorem stallIsIdempotent : Obligations.StallIsIdempotent :=
  fun _ n _ _ _ _ hp hd _ hcnt hna => echoRun_of_stall hd hna n hp hcnt

/-! ### The initialisation sequence -/

/-- Settles O42: the entry moves from ClearBuffers to Reset to Done with its queue kept, and in Done its
count is the sentinel 4, so the capacity premise covers the third frame. -/
theorem initialisationSequence : Obligations.InitialisationSequence := by
  intro key input o1 o2 o3 s p chunk rest hp hclear hqueue hcap
  have hexec1 := exec_seqNext_stepped hp (advance_clearBuffers (input := input) (output := o1) hclear)
  have hexec2 := exec_seqNext_stepped
    (mapGet_stepped_self s key { p with initState := .reset } (acknowledge input.rxCnt (flushRequest o1)))
    (advance_reset (input := input) (output := o2) rfl)
  have hfit (ha : accepts input 4 = true) :
      fits s.params.inBufCap (p.inData.length + input.data.length) = true := by
    obtain ⟨havail, hnew⟩ := (accepts_iff _ _).1 ha
    exact (fits_iff _ _).2 fun cap hc => hcap cap hc havail hnew
  obtain ⟨q, f3, hadv⟩ := exists_advance_ok (cap := s.params.inBufCap) (input := input) (output := o3)
    (p := { p with lastRxCnt := 4, initState := .done }) hfit
  have hexec3 := exec_seqNext_stepped (mapGet_stepped_self
    (stepped s key { p with initState := .reset } (acknowledge input.rxCnt (flushRequest o1))) key
    { p with lastRxCnt := 4, initState := .done } (acknowledge input.rxCnt (resetRequest o2))) hadv
  refine ⟨_, _, _, _, _, f3, hexec1, rfl, rfl, rfl, rfl, rfl, hexec2, rfl, rfl, rfl, rfl, rfl,
    hexec3, rfl, ?_⟩
  split
  case isTrue hcnt =>
    obtain ⟨rfl, -⟩ := advance_sends rfl hadv hqueue hcnt
    exact ⟨rfl, rfl⟩
  case isFalse hcnt =>
    obtain ⟨rfl, -⟩ := advance_stalls rfl hadv (.inr (not_not.1 hcnt))
    exact ⟨rfl, rfl⟩

/-! ### Chunks -/

/-- The least number of chunks is the model's quotient (R123). -/
theorem eq_ceilDiv_of_isCeil {n u k : Nat} (hu : 0 < u) (h : IsCeil n u k) : k = ceilDiv n u := by
  obtain ⟨hreach, hleast⟩ := ceilDiv_spec hu n
  exact Nat.le_antisymm (h.2 _ hreach) (hleast k h.1)

/-- The chunks join to the bytes (R123). -/
theorem chunks_flatten {u : Nat} (hu : 0 < u) (bytes : List Byte) : (chunks u bytes).flatten = bytes := by
  induction hn : bytes.length using Nat.strong_induction_on generalizing bytes with
  | _ n ih =>
    by_cases hb : bytes = []
    · rw [hb, chunks_nil, List.flatten_nil]
    · have hpos : 0 < bytes.length := List.length_pos_iff.2 hb
      have hrest := ih (bytes.drop u).length (by rw [List.length_drop]; omega) (bytes.drop u) rfl
      rw [chunks_cons hu hb, List.flatten_cons, hrest, List.take_append_drop]

/-- A chunk before the last is full: otherwise fewer chunks would hold the bytes (R123). -/
theorem chunks_full {u k : Nat} (hu : 0 < u) {bytes : List Byte} (hk : k + 1 < (chunks u bytes).length) :
    ((chunks u bytes).getD k []).length = u := by
  rw [chunks_length] at hk
  have hmore : (k + 1) * u < bytes.length := by
    by_contra hle
    exact absurd ((ceilDiv_spec hu bytes.length).2 (k + 1) (Nat.not_lt.1 hle)) (Nat.not_le.2 hk)
  have hchunk : (chunks u bytes).getD k [] = (bytes.drop (k * u)).take u := by
    rw [chunks, List.getD_eq_getElem _ _ (by simpa using Nat.lt_of_succ_lt hk), List.getElem_map,
      List.getElem_range]
  rw [Nat.succ_mul] at hmore
  rw [hchunk, List.length_take, List.length_drop]
  omega

theorem chunks_isChunking {u : Nat} (hu : 0 < u) (bytes : List Byte) : IsChunking u bytes (chunks u bytes) :=
  ⟨chunks_flatten hu bytes, fun _ hc => chunks_bounds hu hc, fun _ hk => chunks_full hu hk⟩

/-! ### Writing and reading -/

/-- Queued chunks that fit are SEQ_WRITE's answer (R123). -/
theorem exec_seqWrite_of_enqueue {key : Nat} {bytes : List Byte} {s : State} {p q : SeqState}
    (hp : mapGet s.seq key = some p) (hq : p.enqueue s.params.outQCap bytes = .ok q) :
    exec (.seqWrite key bytes) s = .next ((s.setInstance key q).respond (.ok .none)) := by
  have heffect : effect (.seqWrite key bytes) s = .ok (s.setInstance key q, .none) :=
    seqWrite_ok_iff.2 ⟨p, q, hp, hq, rfl, rfl⟩
  rw [exec_eq_finish, heffect, finish_ok]

/-- Settles O43: the model's chunks are a chunking, they are as many as the rule's quotient, and the
capacity check is on that number. -/
theorem writeQueuesChunks : Obligations.WriteQueuesChunks := by
  intro key bytes i s p n hi hp hceil
  have hu := userDataLen_pos p.processDataLen
  have hn : n = (chunks p.processDataLen.userDataLen bytes).length :=
    (eq_ceilDiv_of_isCeil hu hceil).trans (chunks_length _ _).symm
  have hsame : exec i s = exec (.seqWrite key bytes) s := by
    rcases hi with rfl | rfl
    · rfl
    · exact (Controller.readerAndWriterAreTheSequencers.2.2 key bytes s).2
  rw [hsame]
  refine ⟨fun hcap => ?fits, fun cap hcap hover => ?full⟩
  case fits =>
    have hfits : fits s.params.outQCap
        (p.outData.length + (chunks p.processDataLen.userDataLen bytes).length) = true :=
      (fits_iff _ _).2 fun cap hc => hn ▸ hcap cap hc
    exact ⟨_, chunks _ bytes, exec_seqWrite_of_enqueue hp (enqueue_ok_iff.2 ⟨hfits, rfl⟩), rfl,
      mapGet_mapSet_self natLt s.seq key _, fun k hk => mapGet_mapSet_other natLt s.seq key k _ hk,
      hn.symm, chunks_isChunking hu bytes⟩
  case full =>
    have hfull : p.enqueue s.params.outQCap bytes = .error .bufferLength :=
      enqueue_error_iff.2 ⟨(fits_eq_false_iff _ _).2 ⟨cap, hcap, hn ▸ hover⟩, rfl⟩
    have heffect : effect (.seqWrite key bytes) s = .error .bufferLength := by
      simp only [effect, seqWrite, lookupInstance_ok_iff.2 hp, ok_bind, hfull, error_bind]
    exact exec_of_effect_error heffect

/-- SEQ_READ answers the whole buffer, or none where it is empty, and empties it (R124). -/
theorem exec_seqRead_of_entry {key : Nat} {s : State} {p : SeqState} (hp : mapGet s.seq key = some p) :
    exec (.seqRead key) s = .next ((s.setInstance key { p with inData := [] }).respond
      (.ok (.bytes (if p.inData = [] then none else some p.inData)))) := by
  have heffect : effect (.seqRead key) s = .ok (s.setInstance key { p with inData := [] },
      .bytes (if p.inData = [] then none else some p.inData)) := seqRead_ok_iff.2 ⟨p, hp, rfl, rfl⟩
  rw [exec_eq_finish, heffect, finish_ok]

/-- Settles O44: the first read leaves an empty buffer, on which the second reads none. -/
theorem readDrainsTheBuffer : Obligations.ReadDrainsTheBuffer := by
  intro key i s p hi hp
  have hsame (s : State) : exec i s = exec (.seqRead key) s := by
    rcases hi with rfl | rfl
    · rfl
    · exact (Controller.readerAndWriterAreTheSequencers.2.2 key [] s).1
  have hdrained := mapGet_mapSet_self natLt s.seq key { p with inData := [] }
  refine ⟨_, _, (hsame s).trans (exec_seqRead_of_entry hp), rfl, hdrained,
    fun k hk => mapGet_mapSet_other natLt s.seq key k _ hk,
    (hsame _).trans (exec_seqRead_of_entry hdrained), ?_⟩
  rw [if_pos rfl]
  rfl

/-! ### The loopback -/

/-- A count is never its own successor, so the frame that echoes it never stalls the next chunk (R116). -/
theorem inc_ne_self (n : Counter) : (n.toNat + 1) % 4 ≠ n.toNat := by omega

theorem loopbackRun_succ {key : Nat} {output f : FrameOut} {s t : State}
    (h : exec (.seqNext key (loopbackFrame output) output) s = .next t)
    (hf : t.response = some (.ok (.frame f))) (k : Nat) :
    loopbackRun key (k + 1) output s = loopbackRun key k f t := by
  rw [loopbackRun, h]
  simp only [hf]

/-- Against a loopback far end, the chunk in flight and then every queued chunk arrive in order: each
operation accepts the chunk of the frame before and sends the next one with the next count (R129). -/
theorem loopbackRun_delivers {key : Nat} {p : SeqState} {f : FrameOut} {s : State}
    (hp : mapGet s.seq key = some p) (hd : p.initState = .done) (hcap : s.params.inBufCap = none)
    (hnew : f.txCnt ≠ p.lastRxCnt) :
    ∃ t q, loopbackRun key (p.outData.length + 1) f s = some t ∧ mapGet t.seq key = some q ∧
      q.inData = p.inData ++ f.data ++ p.outData.flatten := by
  have haccept : accepts (loopbackFrame f) p.lastRxCnt = true := (accepts_iff _ _).2 ⟨rfl, hnew⟩
  have hfit (_ : accepts (loopbackFrame f) p.lastRxCnt = true) :
      fits s.params.inBufCap (p.inData.length + (loopbackFrame f).data.length) = true := by
    rw [hcap]
    rfl
  obtain ⟨q, f', hadv⟩ := exists_advance_ok (output := f) hfit
  obtain ⟨hin, hlast⟩ := advance_accepts hd hadv haccept
  have hexec := exec_seqNext_stepped hp hadv
  have hq := mapGet_stepped_self s key q f'
  cases hqueue : p.outData with
  | nil =>
    refine ⟨_, q, loopbackRun_succ hexec rfl 0, hq, ?_⟩
    rw [hin, List.flatten_nil, List.append_nil]
    rfl
  | cons chunk rest =>
    obtain ⟨hf', hrest⟩ := advance_sends hd hadv hqueue (inc_ne_self f.txCnt)
    have hnew' : f'.txCnt ≠ q.lastRxCnt := by
      rw [hlast, hf']
      intro hsame
      exact inc_ne_self f.txCnt ((inc_toNat f.txCnt).symm.trans (congrArg BitVec.toNat hsame))
    obtain ⟨t, r, hrun, hr, hdata⟩ :=
      loopbackRun_delivers hq (advance_stays_done hd hadv).1 hcap hnew'
    refine ⟨t, r, ?_, hr, ?_⟩
    · rw [loopbackRun_succ hexec rfl, List.length_cons, ← hrest]
      exact hrun
    · have hchunk : f'.data = chunk := by rw [hf', acknowledge_data, sendChunk_data]
      rw [hdata, hin, hchunk, hrest, List.flatten_cons, List.append_assoc (p.inData ++ _)]
      rfl
termination_by p.outData.length
decreasing_by
  rw [hqueue, hrest, List.length_cons]
  omega

/-- Settles O45: the bytes are queued as their chunks, the first frame sends the first chunk, and the
loopback delivers the chunks in order, which join to the bytes. -/
theorem loopbackDeliversTheByteStream : Obligations.LoopbackDeliversTheByteStream := by
  intro key n bytes output s p hp hd hin hout hcapIn hcapOut hne hfresh hceil
  have hu := userDataLen_pos p.processDataLen
  obtain ⟨chunk, rest, hchunks⟩ : ∃ chunk rest, chunks p.processDataLen.userDataLen bytes = chunk :: rest :=
    ⟨_, _, chunks_cons hu hne⟩
  have hn : n = rest.length + 1 := by
    rw [eq_ceilDiv_of_isCeil hu hceil, ← chunks_length, hchunks, List.length_cons]
  have hwrite : p.enqueue s.params.outQCap bytes = .ok { p with outData := chunk :: rest } :=
    enqueue_ok_iff.2 ⟨by rw [hcapOut]; rfl, by rw [hout, hchunks, List.nil_append]⟩
  have hexec1 := exec_seqWrite_of_enqueue hp hwrite
  have hp1 := mapGet_mapSet_self natLt s.seq key { p with outData := chunk :: rest }
  have hd1 : ({ p with outData := chunk :: rest } : SeqState).initState = .done := hd
  obtain ⟨q, f, hadv⟩ := exists_advance_ok (cap := s.params.inBufCap) (output := output)
    (p := { p with outData := chunk :: rest }) (input := ⟨false, false, false, 0, output.txCnt, []⟩) nofun
  have hexec2 := exec_seqNext_stepped
    (s := (s.setInstance key { p with outData := chunk :: rest }).respond (.ok .none)) hp1 hadv
  obtain ⟨hf, hrest⟩ := advance_sends hd1 hadv rfl (inc_ne_self output.txCnt)
  obtain ⟨hqin, hqlast⟩ := advance_ignores hd1 hadv rfl
  have hnew : f.txCnt ≠ q.lastRxCnt := by
    rw [hqlast, hf]
    intro hsame
    exact hfresh ((congrArg BitVec.toNat hsame).symm.trans (inc_toNat output.txCnt))
  have hq := mapGet_stepped_self
    ((s.setInstance key { p with outData := chunk :: rest }).respond (.ok .none)) key q f
  obtain ⟨t3, r, hrun, hr, hdata⟩ :=
    loopbackRun_delivers hq (advance_stays_done hd1 hadv).1 hcapIn hnew
  have hbytes : r.inData = bytes := by
    rw [hdata, hqin, hrest, hf, acknowledge_data, sendChunk_data, hin, List.nil_append,
      ← List.flatten_cons, ← hchunks, chunks_flatten hu]
  rw [hrest, ← hn] at hrun
  refine ⟨_, _, t3, _, f, hexec1, hexec2, rfl, hrun, exec_seqRead_of_entry hr, ?_⟩
  rw [hbytes, if_neg hne]
  rfl

/-! ### The frame-encode contract -/

theorem frameEncodeCheck_ok {l : FrameLen} {f : FrameOut} (htx : f.txCnt.toNat ≤ 3)
    (hrx : f.rxCntAck.toNat ≤ 3) (hdata : f.data.length ≤ l.userDataLen) :
    frameEncodeCheck l f = .ok () := by
  rw [frameEncodeCheck, if_neg (Nat.not_lt.2 htx), if_neg (Nat.not_lt.2 hrx), if_neg (Nat.not_lt.2 hdata)]

/-- The count and the data an advance answers are echoed, cleared, or those of a queued chunk (R119, R120). -/
theorem advance_frame_cases {cap : Option Nat} {p q : SeqState} {input : FrameIn}
    {output out : FrameOut} (h : p.advance cap input output = .ok (q, out)) :
    (out.txCnt = output.txCnt ∧ (out.data = [] ∨ out.data = output.data)) ∨
      (out.txCnt = inc input.txCntAck ∧ out.data ∈ p.outData) := by
  rcases advance_ok_cases h with ⟨-, -, rfl⟩ | ⟨-, -, rfl⟩ | ⟨-, -, rfl⟩
  · exact .inl ⟨rfl, .inl rfl⟩
  · exact .inl ⟨rfl, .inl rfl⟩
  · rcases txStep_cases p input output with ⟨chunk, rest, hqueue, -, htx⟩ | ⟨-, htx⟩ <;> rw [htx]
    · exact .inr ⟨rfl, hqueue ▸ List.mem_cons_self ..⟩
    · exact .inl ⟨rfl, .inr rfl⟩

/-- Settles O46: an echoed count and an incremented one are at most 3, and echoed data, no data and a queued
chunk are within the frame's capacity. -/
theorem producedFramesPassTheContract : Obligations.ProducedFramesPassTheContract := by
  intro key input output f s t p hp hsound hin hout hlen hexec hf
  obtain ⟨p', q, hp', hadv, -⟩ := advance_of_exec_seqNext hexec hf
  obtain rfl : p = p' := Option.some.inj (hp.symm.trans hp')
  have hrx : f.rxCntAck.toNat ≤ 3 := by
    rw [advance_rxCntAck hadv]
    exact hin.1
  rcases advance_frame_cases hadv with ⟨htx, hdata⟩ | ⟨htx, hdata⟩
  · refine frameEncodeCheck_ok (htx ▸ hout.1) hrx ?_
    rcases hdata with hdata | hdata <;> rw [hdata]
    · exact Nat.zero_le _
    · exact hlen
  · refine frameEncodeCheck_ok ?_ hrx (hsound.chunkSizes _ hdata).2
    rw [htx, inc_toNat]
    omega

end Sys2Proof.Proofs.Streams

/-! ## Unit 3, the controller -/

namespace Sys2Proof.Proofs.Configuration

open Sys2Proof Sys2Proof.Machine Sys2Proof.Claims Sys2Proof.Proofs.AddressCodec
  Sys2Proof.Proofs.Streams

/-- Settles O52: each answers its snapshot and hands its own state on. -/
theorem snapshotsAreReadOnly : Obligations.SnapshotsAreReadOnly :=
  ⟨rfl, rfl, fun s => ⟨(exec_eq_finish .cplInputs s).trans (finish_ok s s _),
    (exec_eq_finish .cplOutputs s).trans (finish_ok s s _)⟩⟩

/-! ### Construction -/

/-- Settles O47: with the lengths right and the codecs constructed the commit is one state, whose pool
has a fresh entry exactly at the tunnel modules. -/
theorem cplNewCommitsTheConfiguration : Obligations.CplNewCommitsTheConfiguration := by
  intro types params offsets mods s hparams hoffsets hmods
  obtain ⟨t, heffect, ht⟩ : ∃ t, effect (.cplNew types params offsets) s = .ok (t, .none) ∧ t = { s with
      modules := mods, offsets := offsetPairs offsets, encOrder := encodeOrder (offsetPairs offsets)
      seq := buildPool s.codecs 0 s.draws mods
      draws := s.draws + (buildPool s.codecs 0 s.draws mods).length, write := []
      inValues := [], outValues := [], lastTxCnt := [], txEdge := [] } :=
    ⟨_, cplNew_ok_iff.2 ⟨hparams, hoffsets, mods, buildModules_ok_iff.2 hmods, rfl, rfl⟩, rfl⟩
  have hexec : exec (.cplNew types params offsets) s = .next (t.respond (.ok .none)) := by
    rw [exec_eq_finish, heffect, finish_ok]
  subst ht
  have hparse : parseOffsets offsets = .ok (offsetPairs offsets) := if_neg (by omega)
  refine ⟨_, hexec, rfl, rfl, ?offsets, rfl, rfl, rfl, rfl, rfl, rfl, rfl, fun k => ?pool⟩
  case offsets =>
    rw [exec_baOffsets, hparse]
    rfl
  case pool =>
    have hpool := (mapGet_buildPool (C := s.codecs) (mods := mods) (idx := 0) (draw := s.draws) (k := k)).2
    rw [Nat.zero_add] at hpool
    split
    case h_1 l hl =>
      rw [hl] at hpool
      obtain ⟨d, hd⟩ := hpool
      exact ⟨_, hd, rfl, rfl, rfl, rfl⟩
    case h_2 hl =>
      rw [hl] at hpool
      exact hpool

/-- Settles O48: the two length checks come first, and then the construction ends at the first codec that
does not construct. -/
theorem cplNewErrorOrder : Obligations.CplNewErrorOrder := by
  refine fun types params offsets s => ⟨fun hparams => ?params, fun hparams hoffsets => ?offsets,
    fun hparams hoffsets before rest t p mods ce hzip hbefore herr => ?codec⟩
  case params => exact exec_of_effect_error (if_pos hparams)
  case offsets =>
    exact exec_of_effect_error ((if_neg (not_not.2 hparams)).trans (if_pos hoffsets))
  case codec =>
    have hparse : parseOffsets offsets = .ok (offsetPairs offsets) := if_neg (by omega)
    have hbuild : buildModules s.codecs (types.zip params) = .error (codecErr ce) := by
      rw [hzip]
      exact buildModules_error_append (buildModules_ok_iff.2 hbefore) herr
    have heffect : effect (.cplNew types params offsets) s = .error (codecErr ce) := by
      simp only [effect, cplNew, hparams, hoffsets, ne_eq, not_true_eq_false, if_false, hparse, ok_bind,
        hbuild, error_bind]
    exact exec_of_effect_error heffect

/-! ### The encode order -/

/-- The sort key of module `i` (R137). -/
def outputKey (offs : List ModuleOffset) (i : Nat) : Nat × Nat := encKey (offs.getD i ⟨none, none⟩)

section
variable {offs : List ModuleOffset} {i j : Nat}

/-- The order of a stable sort: the key is no larger, and of equal keys the index is smaller (R137). -/
theorem encBefore_iff :
    EncBefore offs i j ↔ encKeyLe (outputKey offs i) (outputKey offs j) = true ∧
      (encKeyLe (outputKey offs j) (outputKey offs i) = true → i < j) := by
  unfold EncBefore outputKey encKey
  generalize (offs.getD i ⟨none, none⟩).output = a
  generalize (offs.getD j ⟨none, none⟩).output = b
  cases a with
  | none => cases b <;> simp [encKeyLe]
  | some a =>
    cases b with
    | none => simp [encKeyLe]
    | some b =>
      simp only [encKeyLe, ← BitVec.toNat_inj, Bool.or_eq_true, Bool.and_eq_true,
        decide_eq_true_eq, Nat.lt_irrefl, false_or, true_and]
      omega

theorem encBefore_of_not_le (hnot : ¬encKeyLe (outputKey offs i) (outputKey offs j) = true) :
    EncBefore offs j i :=
  encBefore_iff.2 ⟨(encKeyLe_total _ _).resolve_left hnot, fun hle => absurd hle hnot⟩

/-- Inserting an index below all those sorted so far keeps the order of a stable sort. -/
theorem pairwise_orderedInsert {r : Nat → Nat → Prop} [DecidableRel r]
    (hr : ∀ i j, r i j ↔ encKeyLe (outputKey offs i) (outputKey offs j) = true) {l : List Nat}
    (hmin : ∀ j ∈ l, i < j) (h : l.Pairwise (EncBefore offs)) :
    (l.orderedInsert r i).Pairwise (EncBefore offs) := by
  induction l with
  | nil => exact List.pairwise_singleton _ i
  | cons j l ih =>
    obtain ⟨hj, hl⟩ := List.pairwise_cons.1 h
    rw [List.orderedInsert]
    split
    case isTrue hle =>
      refine List.pairwise_cons.2 ⟨fun k hk => encBefore_iff.2 ⟨?_, fun _ => hmin k hk⟩, h⟩
      rcases List.mem_cons.1 hk with rfl | hk
      · exact (hr i k).1 hle
      · exact encKeyLe_trans ((hr i j).1 hle) (encBefore_iff.1 (hj k hk)).1
    case isFalse hnot =>
      refine List.pairwise_cons.2 ⟨fun k hk => ?_, ih (fun k hk => hmin k (List.mem_cons_of_mem j hk)) hl⟩
      rcases (List.mem_orderedInsert r).1 hk with rfl | hk
      · exact encBefore_of_not_le fun hle => hnot ((hr k j).2 hle)
      · exact hj k hk

/-- Insertion sort of ascending indices is stable. -/
theorem pairwise_insertionSort {r : Nat → Nat → Prop} [DecidableRel r]
    (hr : ∀ i j, r i j ↔ encKeyLe (outputKey offs i) (outputKey offs j) = true) {l : List Nat}
    (h : l.Pairwise (· < ·)) : (l.insertionSort r).Pairwise (EncBefore offs) := by
  induction l with
  | nil => exact .nil
  | cons i l ih =>
    obtain ⟨hi, hl⟩ := List.pairwise_cons.1 h
    exact pairwise_orderedInsert hr (fun j hj => hi j ((List.mem_insertionSort r).1 hj)) (ih hl)

end

/-- Settles O49: the order is the insertion sort of the ascending indices, which permutes them and is
stable. -/
theorem encodeOrderIsAStableSort : Obligations.EncodeOrderIsAStableSort := by
  intro types params offsets s t hexec hok
  rw [exec_eq_finish] at hexec
  obtain ⟨u, heffect, rfl⟩ := finish_response_ok hexec hok
  obtain ⟨-, hoffsets, mods, -, -, rfl⟩ := cplNew_ok_iff.1 heffect
  refine ⟨?_, pairwise_insertionSort (fun _ _ => Iff.rfl) List.pairwise_lt_range⟩
  have hperm := encodeOrder_perm (offsetPairs offsets)
  rwa [offsetPairs_length hoffsets] at hperm

end Sys2Proof.Proofs.Configuration

/-! ## The cycle -/

namespace Sys2Proof.Proofs.Cycles

open Sys2Proof Sys2Proof.Machine Sys2Proof.Claims Sys2Proof.Proofs.AddressCodec
  Sys2Proof.Proofs.Mapper Sys2Proof.Proofs.Images Sys2Proof.Proofs.Sequencer Sys2Proof.Proofs.Streams
  Sys2Proof.Proofs.Writers Sys2Proof.Proofs.Soundness

/-! ### The advance of a tunnel module in the terms of the rules -/

section
variable {cap : Option Nat} {p q : SeqState} {fi : FrameIn} {fo fo' : FrameOut}

/-- The advance raises exactly on an accepted frame past a finite capacity (R121, R127). -/
theorem advance_error_iff_overflows {e : Err} :
    p.advance cap fi fo = .error e ↔
      (∃ k, cap = some k ∧ Accepts p fi ∧ k < p.inData.length + fi.data.length) ∧ e = .bufferLength := by
  rw [advance_error_iff, fits_eq_false_iff, accepts_iff, Accepts]
  constructor
  · rintro ⟨he, hd, ⟨havail, hnew⟩, k, hk, hover⟩
    exact ⟨⟨k, hk, ⟨hd, havail, hnew⟩, hover⟩, he⟩
  · rintro ⟨⟨k, hk, ⟨hd, havail, hnew⟩, hover⟩, he⟩
    exact ⟨he, hd, ⟨havail, hnew⟩, k, hk, hover⟩

theorem not_sends_iff (hd : p.initState = .done) :
    ¬Sends p fi fo ↔ p.outData = [] ∨ (fi.txCntAck.toNat + 1) % 4 = fo.txCnt.toNat := by
  simp only [Sends, hd, true_and, not_and_or, not_not]

/-- The queue after an advance: one chunk fewer exactly where one was sent (R120). -/
theorem advance_queue_length (h : p.advance cap fi fo = .ok (q, fo')) :
    (Sends p fi fo → q.outData.length = p.outData.length - 1) ∧
      (¬Sends p fi fo → q.outData.length = p.outData.length) := by
  refine ⟨fun hsends => ?_, fun hnot => ?_⟩
  · obtain ⟨hd, hne, hcnt⟩ := hsends
    obtain ⟨chunk, rest, hqueue⟩ := List.exists_cons_of_ne_nil hne
    rw [(advance_sends hd h hqueue hcnt).2, hqueue, List.length_cons, Nat.add_sub_cancel]
  · rcases advance_ok_cases h with ⟨-, rfl, -⟩ | ⟨-, rfl, -⟩ | ⟨hd, -, -⟩
    · rfl
    · rfl
    · rw [(advance_stalls hd h ((not_sends_iff hd).1 hnot)).2]

/-- The frame an advance answers is the one the rules give (R119, R120, R122, R132). -/
theorem advance_frameAfter (h : p.advance cap fi fo = .ok (q, fo')) : FrameAfter p fi fo fo' := by
  refine ⟨advance_rxCntAck h, fun hi => ?clear, fun hi => ?reset, fun hsends => ?sends,
    fun hd hnot => ?echo⟩
  case clear =>
    rw [advance_clearBuffers hi] at h
    cases h
    rfl
  case reset =>
    rw [advance_reset hi] at h
    cases h
    rfl
  case sends =>
    obtain ⟨hd, hne, hcnt⟩ := hsends
    obtain ⟨chunk, rest, hqueue⟩ := List.exists_cons_of_ne_nil hne
    obtain ⟨rfl, -⟩ := advance_sends hd h hqueue hcnt
    exact ⟨inc_toNat _, rfl, by rw [hqueue]; rfl, rfl, rfl, rfl⟩
  case echo => exact (advance_stalls hd h ((not_sends_iff hd).1 hnot)).1

/-- The rules give one frame. -/
theorem frameAfter_unique {f g : FrameOut} (hf : FrameAfter p fi fo f) (hg : FrameAfter p fi fo g) :
    f = g := by
  obtain ⟨hackf, hclearf, hresetf, hsendf, hechof⟩ := hf
  obtain ⟨hackg, hclearg, hresetg, hsendg, hechog⟩ := hg
  cases hi : p.initState with
  | clearBuffers => rw [hclearf hi, hclearg hi]
  | reset => rw [hresetf hi, hresetg hi]
  | done =>
    by_cases hsends : Sends p fi fo
    · obtain ⟨htxf, hactf, hdataf, hrstf, hrxf, htxff⟩ := hsendf hsends
      obtain ⟨htxg, hactg, hdatag, hrstg, hrxg, htxfg⟩ := hsendg hsends
      have htx : f.txCnt = g.txCnt := BitVec.eq_of_toNat_eq (htxf.trans htxg.symm)
      have hdata : f.data = g.data := Option.some.inj (hdataf.symm.trans hdatag)
      cases f
      cases g
      simp_all only
    · rw [hechof hi hsends, hechog hi hsends]

/-- Queueing after an advance raises exactly where the chunks do not fit the queue it leaves (R123, R127). -/
theorem enqueue_error_iff_overflows (h : p.advance cap fi fo = .ok (q, fo')) {qcap : Option Nat}
    {bs : List Byte} {e : Err} :
    q.enqueue qcap bs = .error e ↔ e = .bufferLength ∧ ∃ k n, qcap = some k ∧
      IsCeil bs.length p.processDataLen.userDataLen n ∧
      (Sends p fi fo → k < p.outData.length - 1 + n) ∧ (¬Sends p fi fo → k < p.outData.length + n) := by
  have hu := userDataLen_pos p.processDataLen
  have hlen := (advance_progress h).1
  obtain ⟨hsent, hkept⟩ := advance_queue_length h
  rw [enqueue_error_iff, fits_eq_false_iff, hlen, chunks_length]
  constructor
  · rintro ⟨⟨k, hk, hover⟩, he⟩
    exact ⟨he, k, _, hk, ceilDiv_spec hu _, fun hs => hsent hs ▸ hover, fun hn => hkept hn ▸ hover⟩
  · rintro ⟨he, k, n, hk, hceil, hoversent, hoverkept⟩
    rw [eq_ceilDiv_of_isCeil hu hceil] at hoversent hoverkept
    refine ⟨⟨k, hk, ?_⟩, he⟩
    by_cases hs : Sends p fi fo
    · rw [hsent hs]
      exact hoversent hs
    · rw [hkept hs]
      exact hoverkept hs

end

/-! ### Phase 2 on one module -/

/-- The decoded frames of a module, where channel 0 is a frame on both sides (R146). -/
def framesOf (iv ov : List ChannelValue) : Option (FrameIn × FrameOut) :=
  match iv, ov with
  | .tunnelIn fi :: _, .tunnelOut fo :: _ => some (fi, fo)
  | _, _ => none

theorem tunnelFrames_eq (iv ov : List (List ChannelValue)) (i : Nat) :
    tunnelFrames iv ov i = framesOf (iv.getD i []) (ov.getD i []) := rfl

theorem framesOf_eq_some_iff {iv ov : List ChannelValue} {fi : FrameIn} {fo : FrameOut} :
    framesOf iv ov = some (fi, fo) ↔ ∃ ivs ovs, iv = .tunnelIn fi :: ivs ∧ ov = .tunnelOut fo :: ovs := by
  unfold framesOf
  split
  · simp
  · next hnot =>
    simp only [reduceCtorEq, false_iff]
    rintro ⟨ivs, ovs, rfl, rfl⟩
    exact hnot _ _ _ _ rfl rfl

/-- The output values of a module's view. -/
def values (v : ModuleView) : List ChannelValue := v.ov.getD []

theorem values_moduleView (i : Nat) (w : Cycle) : values (moduleView i w) = w.ov.getD i [] :=
  (List.getD_eq_getElem?_getD ..).symm

theorem mem_txEdgeStep_edge {i : Nat} {f : FrameOut} {w : Cycle} :
    i ∈ (txEdgeStep i f w).edge ↔ i ∈ w.edge ∨ ∃ n, mapGet w.lastTx i = some n ∧ n ≠ f.txCnt := by
  simp only [txEdgeStep]
  cases mapGet w.lastTx i with
  | none => simp
  | some n =>
    by_cases hn : n = f.txCnt
    · simp [hn]
    · simp [hn]

/-- What phase 2 does to the view of a module it advances (R146, R150, R153). -/
structure Advances (params : Params) (fi : FrameIn) (fo : FrameOut) (v v' : ModuleView) (p q : SeqState)
    (fo' : FrameOut) : Prop where
  entry : v.seq = some p
  advance : p.advance params.inBufCap fi fo = .ok (q, fo')
  ov : v'.ov = v.ov.map fun vs => vs.set 0 (.tunnelOut fo')
  lastTx : v'.lastTx = some fo'.txCnt
  edge : v'.edge ↔ v.edge ∨ ∃ n, v.lastTx = some n ∧ n ≠ fo'.txCnt
  consumed : v'.write 0 = none
  kept : ∀ ch, ch ≠ 0 → v'.write ch = v.write ch
  queued : (v.write 0 = none ∧ v'.seq = some q) ∨ ∃ bs q', v.write 0 = some (.bytes bs) ∧
    q.enqueue params.outQCap bs = .ok q' ∧ v'.seq = some q'

/-- What phase 2 does to the view of a module that it advances, or leaves as decoded (R146). -/
def Phase2 (params : Params) (iv : List ChannelValue) (v v' : ModuleView) : Prop :=
  (∃ fi fo p q fo', framesOf iv (values v) = some (fi, fo) ∧ Advances params fi fo v v' p q fo') ∨
    ((v.seq = none ∨ framesOf iv (values v) = none) ∧ v' = v)

theorem tunnelStep_phase2 {params : Params} {iv : List (List ChannelValue)} {i : Nat} {w w' : Cycle}
    (h : tunnelStep params iv i w = .ok w') :
    Phase2 params (iv.getD i []) (moduleView i w) (moduleView i w') := by
  rw [Phase2, values_moduleView]
  rcases tunnelStep_ok_iff.1 h with ⟨p, fi, fo, q, fo', hp, hframes, hadv, hwrite⟩ | ⟨hidle, rfl⟩
  · have hchannels (ch : Nat) (hch : ch ≠ 0) : (⟨i, ch⟩ : Address) ≠ ⟨i, 0⟩ := fun h => hch (by cases h; rfl)
    refine .inl ⟨fi, fo, p, q, fo', hframes, ?_⟩
    rcases tunnelWrite_ok_iff.1 hwrite with ⟨hnone, rfl⟩ | ⟨bs, q', hbs, henq, rfl⟩
    · exact
        { entry := hp
          advance := hadv
          ov := getElem?_setChannel_self w.ov i 0 _
          lastTx := mapGet_mapSet_self natLt w.lastTx i _
          edge := mem_txEdgeStep_edge
          consumed := hnone
          kept := fun _ _ => rfl
          queued := .inl ⟨hnone, mapGet_mapSet_self natLt w.seq i q⟩ }
    · exact
        { entry := hp
          advance := hadv
          ov := getElem?_setChannel_self w.ov i 0 _
          lastTx := mapGet_mapSet_self natLt w.lastTx i _
          edge := mem_txEdgeStep_edge
          consumed := (mapGet_mapRemove _ _ _).trans (if_pos rfl)
          kept := fun ch hch => (mapGet_mapRemove _ _ _).trans (if_neg (hchannels ch hch))
          queued := .inr ⟨bs, q', hbs, henq, mapGet_mapSet_self natLt _ i q'⟩ }
  · exact .inr ⟨hidle, rfl⟩

/-- Phase 2 on a module whose view is the one at the start of the cycle raises what R154 says. -/
theorem tunnelStep_error_iff_raises {s : State} {iv ov : List (List ChannelValue)} {i : Nat} {w : Cycle}
    {e : Err} (hw : moduleView i w = moduleView i (s.staged ov)) :
    tunnelStep s.params iv i w = .error e ↔ TunnelRaises s i (iv.getD i []) (ov.getD i []) e := by
  have hseq : mapGet w.seq i = mapGet s.seq i := congrArg ModuleView.seq hw
  have hwrite : mapGet w.write ⟨i, 0⟩ = mapGet s.write ⟨i, 0⟩ := congrFun (congrArg ModuleView.write hw) 0
  have hov : w.ov.getD i [] = ov.getD i [] := by
    rw [← values_moduleView, hw, values_moduleView, staged_ov]
  rw [tunnelStep_error_iff, tunnelFrames_eq, hov, hseq]
  simp only [tunnelWrite_error_iff, txEdgeStep_write, hwrite]
  constructor
  · rintro ⟨p, fi, fo, hp, hframes, hraise⟩
    obtain ⟨ivs, ovs, hiv, hov⟩ := framesOf_eq_some_iff.1 hframes
    simp only [TunnelRaises, hp, hiv, hov]
    rcases hraise with hadv | ⟨q, fo', hadv, v, hv, hraise⟩
    · exact .inl (advance_error_iff_overflows.1 hadv)
    · refine .inr ⟨fun hover => ?_, ?_⟩
      · rw [advance_error_iff_overflows.2 ⟨hover, rfl⟩] at hadv
        cases hadv
      · rw [hv]
        cases v with
        | bytes bs => exact (enqueue_error_iff_overflows hadv).1 hraise
        | _ => exact hraise
  · intro hraise
    unfold TunnelRaises at hraise
    split at hraise
    case h_2 => exact hraise.elim
    case h_1 p fi ivs fo ovs hp hiv hov =>
      refine ⟨p, fi, fo, hp, framesOf_eq_some_iff.2 ⟨ivs, ovs, hiv, hov⟩, ?_⟩
      rcases hraise with hover | ⟨hnot, hraise⟩
      · exact .inl (advance_error_iff_overflows.2 hover)
      · cases hadv : p.advance s.params.inBufCap fi fo with
        | error e' => exact absurd (advance_error_iff_overflows.1 hadv).1 hnot
        | ok r =>
          obtain ⟨q, fo'⟩ := r
          refine .inr ⟨q, fo', rfl, ?_⟩
          split at hraise
          case h_1 => exact hraise.elim
          case h_2 bs hbs => exact ⟨_, hbs, (enqueue_error_iff_overflows hadv).2 hraise⟩
          case h_3 v hnotBytes hv =>
            refine ⟨v, hv, ?_⟩
            cases v with
            | bytes bs => exact absurd rfl (hnotBytes bs)
            | _ => exact hraise

/-- A module that the rules call ready raises nothing in phase 2. -/
theorem not_tunnelRaises_of_ready {s : State} {i : Nat} {iv ov : List ChannelValue} {e : Err}
    (h : TunnelReady s i iv ov) : ¬TunnelRaises s i iv ov e := by
  intro hraise
  unfold TunnelRaises at hraise
  split at hraise
  case h_2 => exact hraise
  case h_1 p fi ivs fo ovs hp =>
    simp only [TunnelReady, hp] at h
    obtain ⟨hfits, hqueues⟩ := h
    rcases hraise with ⟨⟨cap, hcap, haccepts, hover⟩, -⟩ | ⟨-, hraise⟩
    · exact absurd (hfits cap hcap haccepts) (Nat.not_le.2 hover)
    · split at hraise
      case h_1 => exact hraise
      case h_3 v hnotBytes hv =>
        rw [hv] at hqueues
        cases v with
        | bytes bs => exact absurd rfl (hnotBytes bs)
        | _ => exact hqueues
      case h_2 bs hbs =>
        rw [hbs] at hqueues
        obtain ⟨-, cap, n, hcap, hceil, hoverSent, hoverKept⟩ := hraise
        obtain ⟨hsent, hkept⟩ := hqueues cap n hcap hceil
        by_cases hs : Sends p fi fo
        · exact absurd (hsent hs) (Nat.not_le.2 (hoverSent hs))
        · exact absurd (hkept hs) (Nat.not_le.2 (hoverKept hs))

/-- A module ready for both phases is ready for phase 2. -/
theorem tunnelReady_of_moduleReady {s : State} {i : Nat} {c : CodecInst} {iv ov ov' : List ChannelValue}
    (h : ModuleReady s i c iv ov ov') : TunnelReady s i iv ov := by
  unfold TunnelReady
  split
  case h_1 p fi ivs fo ovs hp =>
    simp only [ModuleReady, hp] at h
    obtain ⟨-, hfits, hqueues⟩ := h
    exact ⟨hfits, hqueues⟩
  case h_2 => trivial

/-! ### Phase 3 on one module -/

/-- What phase 3 does to the view of a module of `n` channels: all pending writes of a plain module are
applied and consumed, a tunnel module is left alone (R148, R151). -/
def Phase3 (n : Nat) (v v' : ModuleView) : Prop :=
  (v.seq ≠ none ∧ v' = v) ∨
    (v.seq = none ∧ v'.seq = none ∧ v'.lastTx = v.lastTx ∧ (v'.edge ↔ v.edge) ∧
      ∀ ch, if ch < n then
          v'.write ch = none ∧
            match v.write ch with
            | some x => (values v')[ch]? = some x ∧ ch < (values v).length
            | none => (values v')[ch]? = (values v)[ch]?
        else (values v')[ch]? = (values v)[ch]? ∧ v'.write ch = v.write ch)

section
variable {C : Codecs} {modules : List CodecInst} {i : Nat} {c : CodecInst} {w w' : Cycle}

theorem plainStep_of_entry (h : mapGet w.seq i ≠ none) : plainStep C modules i w = .ok w := by
  obtain ⟨p, hp⟩ := Option.ne_none_iff_exists'.1 h
  rw [plainStep_eq, hp]

theorem plainStep_of_plain (h : mapGet w.seq i = none) (hc : modules[i]? = some c) :
    plainStep C modules i w = sweep (channelStep i) (List.range (C.channelCount c)) w := by
  rw [plainStep_eq, h, hc]

theorem plainStep_phase3 (hc : modules[i]? = some c) (h : plainStep C modules i w = .ok w') :
    Phase3 (C.channelCount c) (moduleView i w) (moduleView i w') := by
  by_cases hseq : mapGet w.seq i = none
  · obtain ⟨hpool, hlast, hedge⟩ := plainStep_frame h
    rw [plainStep_of_plain hseq hc] at h
    refine .inr ⟨hseq, ?_, ?_, ?_, ?_⟩
    · exact (congrArg (mapGet · i) hpool).trans hseq
    · exact congrArg (mapGet · i) hlast
    · exact iff_of_eq (congrArg (i ∈ ·) hedge)
    · rw [values_moduleView, values_moduleView]
      exact channels_ok h
  · rw [plainStep_of_entry hseq] at h
    cases h
    exact .inl ⟨hseq, rfl⟩

end

/-! ### The two phases on every module -/

section
variable {s : State} {iv ov : List (List ChannelValue)} {w1 w2 : Cycle} {i : Nat}

theorem phase2_of_sweep
    (h : sweep (tunnelStep s.params iv) (List.range s.modules.length) (s.staged ov) = .ok w1)
    (hi : i < s.modules.length) :
    Phase2 s.params (iv.getD i []) (moduleView i (s.staged ov)) (moduleView i w1) := by
  obtain ⟨u, u', hu, hbefore, hafter⟩ := (sweep_local (view := moduleView)
    (fun i w w' hw j hj => tunnelStep_local hw hj) List.nodup_range h).2 i (List.mem_range.2 hi)
  rw [hafter, ← hbefore]
  exact tunnelStep_phase2 hu

theorem phase3_of_sweep {c : CodecInst}
    (h : sweep (plainStep s.codecs s.modules) (List.range s.modules.length) w1 = .ok w2)
    (hc : s.modules[i]? = some c) :
    Phase3 (s.codecs.channelCount c) (moduleView i w1) (moduleView i w2) := by
  obtain ⟨hi, -⟩ := List.getElem?_eq_some_iff.1 hc
  obtain ⟨u, u', hu, hbefore, hafter⟩ := (sweep_local (view := moduleView)
    (fun i w w' hw j hj => plainStep_local hw hj) List.nodup_range h).2 i (List.mem_range.2 hi)
  rw [hafter, ← hbefore]
  exact plainStep_phase3 hc hu

/-- The phases leave everything past the configuration alone. -/
theorem moduleView_past_configuration
    (h2 : sweep (tunnelStep s.params iv) (List.range s.modules.length) (s.staged ov) = .ok w1)
    (h3 : sweep (plainStep s.codecs s.modules) (List.range s.modules.length) w1 = .ok w2)
    (hi : s.modules.length ≤ i) : moduleView i w2 = moduleView i (s.staged ov) := by
  have hnot : i ∉ List.range s.modules.length := fun hmem =>
    absurd (List.mem_range.1 hmem) (Nat.not_lt.2 hi)
  have hplain := (sweep_local (view := moduleView) (fun i w w' hw j hj => plainStep_local hw hj)
    List.nodup_range h3).1 i hnot
  have htunnel := (sweep_local (view := moduleView) (fun i w w' hw j hj => tunnelStep_local hw hj)
    List.nodup_range h2).1 i hnot
  exact hplain.trans htunnel

end

/-! ### What a completed cycle did -/

/-- The part of a state that the phases of a cycle write. -/
def committed (t : State) : Cycle := ⟨t.outValues, t.write, t.seq, t.lastTxCnt, t.txEdge⟩

theorem values_staged (s : State) (ov : List (List ChannelValue)) (i : Nat) :
    values (moduleView i (s.staged ov)) = ov.getD i [] := values_moduleView i _

/-- A value list whose module decoded a frame is there. -/
theorem getElem?_of_frames {ov : List (List ChannelValue)} {i : Nat} {x : ChannelValue}
    {xs : List ChannelValue} (h : ov.getD i [] = x :: xs) : ov[i]? = some (x :: xs) := by
  rw [List.getD_eq_getElem?_getD] at h
  cases ho : ov[i]? with
  | none => simp [ho] at h
  | some vs => simpa [ho] using h

/-- An advance sets channel 0 of the module's values. -/
theorem values_of_advances {s : State} {ov : List (List ChannelValue)} {i : Nat} {fi : FrameIn}
    {fo fo' : FrameOut} {v' : ModuleView} {p q : SeqState} {ovs : List ChannelValue}
    (h : Advances s.params fi fo (moduleView i (s.staged ov)) v' p q fo')
    (hov : ov.getD i [] = .tunnelOut fo :: ovs) : values v' = .tunnelOut fo' :: ovs := by
  have hentry : (moduleView i (s.staged ov)).ov = some (.tunnelOut fo :: ovs) := getElem?_of_frames hov
  rw [values, h.ov, hentry]
  rfl

theorem Advances.entry_after {params : Params} {fi : FrameIn} {fo fo' : FrameOut} {v v' : ModuleView}
    {p q : SeqState} (h : Advances params fi fo v v' p q fo') : v'.seq ≠ none := by
  rcases h.queued with ⟨-, hq⟩ | ⟨bs, q', -, -, hq⟩ <;> rw [hq] <;> nofun

section
variable {s t : State} {iv ov : List (List ChannelValue)} {i : Nat} {c : CodecInst} {v1 : ModuleView}

/-- A plain module's outcome is phase 3's (R148, R151). -/
theorem moduleOutcome_of_plain (hseq : mapGet s.seq i = none)
    (h2 : Phase2 s.params (iv.getD i []) (moduleView i (s.staged ov)) v1)
    (h3 : Phase3 (s.codecs.channelCount c) v1 (moduleView i (committed t))) :
    ModuleOutcome s t t.txEdge i c (iv.getD i []) (ov.getD i []) (t.outValues.getD i []) := by
  obtain ⟨fi, fo, p, q, fo', -, hadv⟩ | ⟨-, rfl⟩ := h2
  · exact absurd (hadv.entry.symm.trans hseq) (by nofun)
  obtain ⟨hentry, -⟩ | ⟨-, hseq', hlast, hedge, hchannels⟩ := h3
  · exact absurd hseq hentry
  simp only [ModuleOutcome, hseq]
  refine ⟨hseq', hlast, fun hmem => ?_, fun ch => ?_⟩
  · exact absurd (hedge.1 hmem) List.not_mem_nil
  · have hch := hchannels ch
    rw [values_staged, values_moduleView] at hch
    exact hch

/-- A tunnel module's outcome is phase 2's (R146, R150, R153). -/
theorem moduleOutcome_of_tunnel {p : SeqState} (hseq : mapGet s.seq i = some p)
    (h2 : Phase2 s.params (iv.getD i []) (moduleView i (s.staged ov)) v1)
    (h3 : Phase3 (s.codecs.channelCount c) v1 (moduleView i (committed t))) :
    ModuleOutcome s t t.txEdge i c (iv.getD i []) (ov.getD i []) (t.outValues.getD i []) := by
  have hvalues : values (moduleView i (committed t)) = t.outValues.getD i [] := values_moduleView i _
  rw [← hvalues]
  obtain ⟨fi, fo, p', q, fo', hframes, hadv⟩ | ⟨hidle, rfl⟩ := h2
  · obtain rfl : p = p' := Option.some.inj (hseq.symm.trans hadv.entry)
    obtain rfl : moduleView i (committed t) = v1 := by
      rcases h3 with ⟨-, h⟩ | ⟨hnone, -⟩
      · exact h
      · exact absurd hnone hadv.entry_after
    rw [values_staged] at hframes
    obtain ⟨ivs, ovs, hiv, hov⟩ := framesOf_eq_some_iff.1 hframes
    have hexec := exec_seqNext_stepped hseq hadv.advance
    have hq := mapGet_stepped_self s i q fo'
    simp only [ModuleOutcome, hseq, hiv, hov]
    refine ⟨hadv.kept, _, fo', q, hexec, rfl, hq, values_of_advances hadv hov, hadv.lastTx, ?edge,
      hadv.consumed, ?queued⟩
    case edge => exact hadv.edge.trans (or_iff_right List.not_mem_nil)
    case queued =>
      rcases hadv.queued with ⟨hnone, hseq'⟩ | ⟨bs, q', hbs, henq, hseq'⟩
      · have hnone : mapGet s.write ⟨i, 0⟩ = none := hnone
        rw [hnone]
        exact hseq'
      · have hbs : mapGet s.write ⟨i, 0⟩ = some (.bytes bs) := hbs
        rw [hbs]
        exact ⟨_, exec_seqWrite_of_enqueue hq henq, rfl,
          hseq'.trans (mapGet_mapSet_self natLt _ i q').symm⟩
  · have hsame : moduleView i (committed t) = moduleView i (s.staged ov) := by
      rcases h3 with ⟨-, h⟩ | ⟨hnone, -⟩
      · exact h
      · exact absurd (hseq.symm.trans hnone) (by nofun)
    have hnoframes : framesOf (iv.getD i []) (ov.getD i []) = none := by
      rw [values_staged] at hidle
      exact hidle.resolve_left fun hnone => absurd (hseq.symm.trans hnone) (by nofun)
    have hwrite (ch : Nat) : mapGet t.write ⟨i, ch⟩ = mapGet s.write ⟨i, ch⟩ :=
      congrFun (congrArg ModuleView.write hsame) ch
    have hedge : (i ∈ t.txEdge) = (i ∈ ([] : List Nat)) := congrArg ModuleView.edge hsame
    simp only [ModuleOutcome, hseq]
    refine ⟨fun ch _ => hwrite ch, ?_⟩
    split
    case h_1 fi ivs fo ovs hiv hov =>
      rw [framesOf_eq_some_iff.2 ⟨ivs, ovs, hiv, hov⟩] at hnoframes
      cases hnoframes
    case h_2 =>
      refine ⟨(congrArg ModuleView.seq hsame).trans hseq, ?_, ?_, congrArg ModuleView.lastTx hsame, hwrite 0⟩
      · rw [hsame, values_staged]
      · rw [hedge]
        exact List.not_mem_nil

theorem moduleOutcome_of_phases
    (h2 : Phase2 s.params (iv.getD i []) (moduleView i (s.staged ov)) v1)
    (h3 : Phase3 (s.codecs.channelCount c) v1 (moduleView i (committed t))) :
    ModuleOutcome s t t.txEdge i c (iv.getD i []) (ov.getD i []) (t.outValues.getD i []) := by
  cases hseq : mapGet s.seq i with
  | none => exact moduleOutcome_of_plain hseq h2 h3
  | some p => exact moduleOutcome_of_tunnel hseq h2 h3

end

/-- Settles O54: phase by phase, each module's view is its outcome, the rest is the frame, and the
registers are phase 4's. -/
theorem completedCycleFollowsTheRules : Obligations.CompletedCycleFollowsTheRules := by
  intro pin pout s t regs edge hs hexec hresp
  rw [exec_eq_finish] at hexec
  obtain ⟨u, heffect, rfl⟩ := finish_response_ok hexec hresp
  obtain ⟨iv, ov, w1, w2, regs', hiv, hov, h2, h3, h4, rfl, hr⟩ := cplNext_ok_iff.1 heffect
  cases hr
  have hascend : w2.edge.Pairwise (· < ·) :=
    List.pairwise_lt_range.sublist ((plainSweep_frame h3).2.2 ▸ tunnelSweep_edge_range h2)
  refine ⟨iv, ov, exec_mapDecodeIn_ok_iff.2 hiv, exec_mapDecodeOut_ok_iff.2 hov, rfl, ?length, hascend,
    fun i c hc => ?outcome, fun i hi => ?past, exec_mapEncode_ok_iff.2 h4⟩
  case length =>
    calc w2.ov.length = w1.ov.length := plainSweep_ov_length h3
      _ = ov.length := tunnelSweep_ov_length h2
      _ = s.modules.length := (decodeModules_length hov).trans (configured_length hs)
  case outcome =>
    obtain ⟨hi, -⟩ := List.getElem?_eq_some_iff.1 hc
    exact moduleOutcome_of_phases (phase2_of_sweep h2 hi) (phase3_of_sweep h3 hc)
  case past =>
    have hview := moduleView_past_configuration h2 h3 hi
    refine ⟨congrArg ModuleView.seq hview, congrArg ModuleView.lastTx hview, ?_,
      fun ch => congrFun (congrArg ModuleView.write hview) ch⟩
    have hedge : (i ∈ w2.edge) = (i ∈ ([] : List Nat)) := congrArg ModuleView.edge hview
    exact fun hmem => absurd (hedge.mp hmem) List.not_mem_nil

/-! ### When a cycle completes, and which error it answers -/

/-- A response that carries a computed result is an error exactly where the computation raises it. -/
theorem next_error_iff {α : Type} {s : State} {x : Except Err α} {f : α → Result} {e : Err} :
    (Host.Outcome.next { s with response := some (responseOf (x.map f)) } :
        Host.Outcome State Fault Refusal) = .next { s with response := some (.error e) } ↔
      x = .error e := by
  cases x <;> simp [Except.map]

/-- Settles O56: the input image is decoded first, then the output image, and either error ends the
cycle. -/
theorem cycleReportsDecodeErrorsFirst : Obligations.CycleReportsDecodeErrorsFirst := by
  refine fun pin pout s e => ⟨fun hin => ?input, fun iv hin hout => ?output⟩
  case input =>
    rw [exec_mapDecodeIn, next_error_iff] at hin
    have hphase1 : cyclePhase1 s pin pout = .error e := bind_error_iff.2 (.inl hin)
    exact exec_of_effect_error (bind_error_iff.2 (.inl hphase1))
  case output =>
    have hin := exec_mapDecodeIn_ok_iff.1 hin
    rw [exec_mapDecodeOut, next_error_iff] at hout
    have hphase1 : cyclePhase1 s pin pout = .error e :=
      bind_error_iff.2 (.inr ⟨iv, hin, bind_error_iff.2 (.inl hout)⟩)
    exact exec_of_effect_error (bind_error_iff.2 (.inl hphase1))

section
variable {s : State} {iv ov ov' : List (List ChannelValue)} {w w1 : Cycle} {i : Nat} {c : CodecInst}

/-- A ready module's round of phase 2 completes. -/
theorem tunnelStep_of_ready (hw : moduleView i w = moduleView i (s.staged ov))
    (h : TunnelReady s i (iv.getD i []) (ov.getD i [])) : ∃ w', tunnelStep s.params iv i w = .ok w' := by
  cases hstep : tunnelStep s.params iv i w with
  | ok w' => exact ⟨w', rfl⟩
  | error e => exact absurd ((tunnelStep_error_iff_raises hw).1 hstep) (not_tunnelRaises_of_ready h)

/-- Phase 2 completes where every module is ready for it. -/
theorem tunnelSweep_of_ready
    (h : ∀ j < s.modules.length, TunnelReady s j (iv.getD j []) (ov.getD j [])) :
    ∃ w1, sweep (tunnelStep s.params iv) (List.range s.modules.length) (s.staged ov) = .ok w1 :=
  sweep_completes (view := moduleView) (fun _ _ _ hw _ hj => tunnelStep_local hw hj) List.nodup_range
    fun j hj _ hu => tunnelStep_of_ready hu (h j (List.mem_range.1 hj))

/-- The indices up to `n`, around one of them. -/
theorem range_split {n : Nat} (hi : i < n) : ∃ rest, List.range n = List.range i ++ i :: rest := by
  obtain ⟨k, rfl⟩ := Nat.exists_eq_add_of_lt hi
  refine ⟨(List.range k).map (i + Nat.succ ·), ?_⟩
  rw [Nat.add_assoc, List.range_add, List.range_succ_eq_map, List.map_cons, List.map_map]
  rfl

/-- The first module that raises in phase 2 ends it (R154). -/
theorem tunnelSweep_error {e : Err} (hi : i < s.modules.length)
    (hbefore : ∀ j < i, TunnelReady s j (iv.getD j []) (ov.getD j []))
    (h : TunnelRaises s i (iv.getD i []) (ov.getD i []) e) :
    sweep (tunnelStep s.params iv) (List.range s.modules.length) (s.staged ov) = .error e := by
  obtain ⟨rest, hsplit⟩ := range_split hi
  have hnodup : (List.range i ++ i :: rest).Nodup := hsplit ▸ List.nodup_range
  rw [hsplit]
  exact sweep_raises (view := moduleView) (fun _ _ _ hw _ hj => tunnelStep_local hw hj) hnodup
    (fun j hj _ hu => tunnelStep_of_ready hu (hbefore j (List.mem_range.1 hj)))
    fun _ hu => (tunnelStep_error_iff_raises hu).2 h

/-- Phase 2 leaves a plain module's view as it was at the start. -/
theorem moduleView_of_plain
    (h2 : sweep (tunnelStep s.params iv) (List.range s.modules.length) (s.staged ov) = .ok w1)
    (hi : i < s.modules.length) (hseq : mapGet s.seq i = none) :
    moduleView i w1 = moduleView i (s.staged ov) := by
  rcases phase2_of_sweep h2 hi with ⟨fi, fo, p, q, fo', -, hadv⟩ | ⟨-, hsame⟩
  · exact absurd (hadv.entry.symm.trans hseq) (by nofun)
  · exact hsame

/-- A pending write past a plain module's decoded values ends phase 3 (R151). -/
theorem plainSweep_error
    (h2 : sweep (tunnelStep s.params iv) (List.range s.modules.length) (s.staged ov) = .ok w1)
    (hc : s.modules[i]? = some c) (h : PlainRaises s i c (ov.getD i [])) :
    sweep (plainStep s.codecs s.modules) (List.range s.modules.length) w1 = .error .channelValue := by
  obtain ⟨hseq, ch, v, hch, hv, hpast⟩ := h
  obtain ⟨hi, -⟩ := List.getElem?_eq_some_iff.1 hc
  cases h3 : sweep (plainStep s.codecs s.modules) (List.range s.modules.length) w1 with
  | error e =>
    obtain ⟨j, -, u, hu⟩ := sweep_error h3
    rw [plainStep_error hu]
  | ok w2 =>
    have hview := moduleView_of_plain h2 hi hseq
    rcases phase3_of_sweep h3 hc with ⟨hentry, -⟩ | ⟨-, -, -, -, hchannels⟩
    · exact absurd ((congrArg ModuleView.seq hview).trans hseq) hentry
    · have happlied := hchannels ch
      have hpending : (moduleView i (s.staged ov)).write ch = some v := hv
      rw [if_pos hch, hview, hpending, values_staged] at happlied
      exact absurd happlied.2.2 (Nat.not_lt.2 hpast)

/-- Phase 3 completes where every module is ready: a plain module's pending writes have decoded values to
replace (R151). -/
theorem plainSweep_of_ready
    (h2 : sweep (tunnelStep s.params iv) (List.range s.modules.length) (s.staged ov) = .ok w1)
    (hready : ∀ (j : Nat) (d : CodecInst), s.modules[j]? = some d →
      ModuleReady s j d (iv.getD j []) (ov.getD j []) (ov'.getD j [])) :
    ∃ w2, sweep (plainStep s.codecs s.modules) (List.range s.modules.length) w1 = .ok w2 := by
  refine sweep_completes (view := moduleView) (fun _ _ _ hw _ hj => plainStep_local hw hj)
    List.nodup_range fun j hj u hu => ?_
  have hj := List.mem_range.1 hj
  have hd := List.getElem?_eq_getElem hj
  by_cases hentry : mapGet u.seq j = none
  case neg => exact ⟨u, plainStep_of_entry hentry⟩
  case pos =>
    rw [plainStep_of_plain hentry hd]
    refine channels_complete fun ch hch v hv => ?_
    have hseq : mapGet s.seq j = none := by
      rcases phase2_of_sweep h2 hj with ⟨fi, fo, p, q, fo', -, hadv⟩ | ⟨-, hsame⟩
      · exact absurd ((congrArg ModuleView.seq hu).symm.trans hentry) hadv.entry_after
      · exact (congrArg ModuleView.seq (hu.trans hsame)).symm.trans hentry
    have hview : moduleView j u = moduleView j (s.staged ov) := hu.trans (moduleView_of_plain h2 hj hseq)
    have hpending : mapGet s.write ⟨j, ch⟩ = some v :=
      (congrFun (congrArg ModuleView.write hview) ch).symm.trans hv
    have hmodule := hready j _ hd
    simp only [ModuleReady, hseq] at hmodule
    have hchannel := hmodule.2 ch
    rw [if_pos hch, hpending] at hchannel
    rw [← values_moduleView, hview, values_staged]
    exact hchannel.1

/-- The values of a ready module after both phases are the ones the rules give. -/
theorem values_of_ready {v1 v2 : ModuleView} (h2 : Phase2 s.params (iv.getD i []) (moduleView i (s.staged ov)) v1)
    (h3 : Phase3 (s.codecs.channelCount c) v1 v2)
    (hready : ModuleReady s i c (iv.getD i []) (ov.getD i []) (ov'.getD i [])) : values v2 = ov'.getD i [] := by
  cases hseq : mapGet s.seq i with
  | none =>
    simp only [ModuleReady, hseq] at hready
    obtain ⟨fi, fo, p, q, fo', -, hadv⟩ | ⟨-, rfl⟩ := h2
    · exact absurd (hadv.entry.symm.trans hseq) (by nofun)
    obtain ⟨hentry, -⟩ | ⟨-, -, -, -, hchannels⟩ := h3
    · exact absurd hseq hentry
    refine List.ext_getElem? fun ch => ?_
    have hafter := hchannels ch
    have hrule := hready.2 ch
    have hpending : (moduleView i (s.staged ov)).write ch = mapGet s.write ⟨i, ch⟩ := rfl
    rw [hpending, values_staged] at hafter
    split at hafter
    case isTrue hch =>
      rw [if_pos hch] at hrule
      obtain ⟨-, hafter⟩ := hafter
      cases hv : mapGet s.write ⟨i, ch⟩ with
      | none =>
        rw [hv] at hafter hrule
        exact hafter.trans hrule.symm
      | some v =>
        rw [hv] at hafter hrule
        exact hafter.1.trans hrule.2.symm
    case isFalse hch =>
      rw [if_neg hch] at hrule
      exact hafter.1.trans hrule.symm
  | some p =>
    simp only [ModuleReady, hseq] at hready
    obtain ⟨fi, fo, p', q, fo', hframes, hadv⟩ | ⟨hidle, rfl⟩ := h2
    · obtain rfl : p = p' := Option.some.inj (hseq.symm.trans hadv.entry)
      obtain rfl : v2 = v1 := by
        rcases h3 with ⟨-, h⟩ | ⟨hnone, -⟩
        · exact h
        · exact absurd hnone hadv.entry_after
      rw [values_staged] at hframes
      obtain ⟨ivs, ovs, hiv, hov⟩ := framesOf_eq_some_iff.1 hframes
      simp only [hiv, hov] at hready
      obtain ⟨⟨fo'', hframe, hov'⟩, -⟩ := hready
      rw [values_of_advances hadv hov, hov', frameAfter_unique (advance_frameAfter hadv.advance) hframe]
    · obtain rfl : v2 = moduleView i (s.staged ov) := by
        rcases h3 with ⟨-, h⟩ | ⟨hnone, -⟩
        · exact h
        · exact absurd (hseq.symm.trans hnone) (by nofun)
      have hnoframes : framesOf (iv.getD i []) (ov.getD i []) = none := by
        rw [values_staged] at hidle
        exact hidle.resolve_left fun hnone => absurd (hseq.symm.trans hnone) (by nofun)
      split at hready
      case h_1 fi ivs fo ovs hiv hov =>
        rw [framesOf_eq_some_iff.2 ⟨ivs, ovs, hiv, hov⟩] at hnoframes
        cases hnoframes
      case h_2 => rw [values_staged, hready]

/-- Where every module is ready, phases 2 and 3 complete with the resulting values. -/
theorem phases_of_ready (hov : ov.length = s.modules.length) (hov' : ov'.length = s.modules.length)
    (hready : ∀ (j : Nat) (d : CodecInst), s.modules[j]? = some d →
      ModuleReady s j d (iv.getD j []) (ov.getD j []) (ov'.getD j [])) :
    ∃ w1 w2, sweep (tunnelStep s.params iv) (List.range s.modules.length) (s.staged ov) = .ok w1 ∧
      sweep (plainStep s.codecs s.modules) (List.range s.modules.length) w1 = .ok w2 ∧ w2.ov = ov' := by
  obtain ⟨w1, h2⟩ := tunnelSweep_of_ready (iv := iv) (ov := ov) fun j hj =>
    tunnelReady_of_moduleReady (hready j _ (List.getElem?_eq_getElem hj))
  obtain ⟨w2, h3⟩ := plainSweep_of_ready h2 hready
  have hlen : w2.ov.length = ov'.length := by
    rw [plainSweep_ov_length h3, tunnelSweep_ov_length h2, staged_ov, hov, hov']
  refine ⟨w1, w2, h2, h3, List.ext_getElem hlen fun j hj hj' => ?_⟩
  have hmod : j < s.modules.length := hov' ▸ hj'
  have hd := List.getElem?_eq_getElem hmod
  have hvalues := values_of_ready (phase2_of_sweep h2 hmod) (phase3_of_sweep h3 hd) (hready j _ hd)
  rwa [values_moduleView, List.getD_eq_getElem _ _ hj, List.getD_eq_getElem _ _ hj'] at hvalues

end

/-- Phase 4 encodes as many values as modules (R38, R152). -/
theorem encMods_length {s : State} (hs : SoundState s) {ov : List (List ChannelValue)}
    (hov : ov.length = s.modules.length) : (encMods s).length = (encValues s ov).length := by
  have hconf : (configured s).length = s.offsets.length := (configured_length hs).trans hs.aligned.symm
  rw [encMods, encValues, hs.order, filterMap_encodeOrder_length hconf,
    filterMap_encodeOrder_length (hov.trans hs.aligned.symm)]

/-- The values of the configured modules are as many as the modules (R36). -/
theorem length_of_decodes {s : State} (hs : SoundState s) {base : Word16} {data : List Word16}
    {ov : List (List ChannelValue)}
    (h : List.Forall₂ (DecodesOutput s.codecs base data) (configured s) ov) :
    ov.length = s.modules.length :=
  h.length_eq.symm.trans (configured_length hs)

/-- Settles O55: the modules' readiness carries the cycle through phases 2 and 3 to the given values, and
these encode. -/
theorem cycleCompletes : Obligations.CycleCompletes := by
  intro pin pout s iv ov ov' regs hs hiv hov hlen hready hencodes
  obtain ⟨w1, w2, h2, h3, hw2⟩ := phases_of_ready (length_of_decodes hs hov) hlen hready
  have h4 : cyclePhase4 s w2.ov = .ok regs := by
    rw [hw2]
    exact mapEncode_ok_iff.2 ⟨encMods_length hs hlen, hencodes⟩
  have heffect := cplNext_ok_iff.2 ⟨iv, ov, w1, w2, regs, decodeInputs_ok_iff.2 hiv,
    decodeOutputs_ok_iff.2 hov, h2, h3, h4, rfl, rfl⟩
  have hexec := (exec_eq_finish (.cplNext pin pout) s).trans
    ((congrArg s.finish heffect).trans (finish_ok s _ _))
  exact ⟨_, w2.edge, hexec, rfl, rfl, hw2⟩

/-- Settles O57: the rounds of phase 2 before module `i` complete, and the round of `i` raises what the
rules say. -/
theorem cycleReportsTunnelErrors : Obligations.CycleReportsTunnelErrors := by
  intro pin pout s iv ov i e hiv hov hi hbefore hraises
  exact exec_of_effect_error ((cplNext_error_of_decodes (decodeInputs_ok_iff.2 hiv)
    (decodeOutputs_ok_iff.2 hov)).2 (.inl (tunnelSweep_error hi hbefore hraises)))

/-- Settles O58: phase 2 completes, and phase 3 meets the pending write without a value. -/
theorem cycleReportsPlainWriteErrors : Obligations.CycleReportsPlainWriteErrors := by
  intro pin pout s iv ov i c hiv hov hready hc hraises
  obtain ⟨w1, h2⟩ := tunnelSweep_of_ready hready
  exact exec_of_effect_error ((cplNext_error_of_decodes (decodeInputs_ok_iff.2 hiv)
    (decodeOutputs_ok_iff.2 hov)).2 (.inr ⟨w1, h2, .inl (plainSweep_error h2 hc hraises)⟩))

/-- Settles O59: phases 2 and 3 complete with the given values, and phase 4 is MAP_ENCODE on them. -/
theorem cycleReportsEncodeErrors : Obligations.CycleReportsEncodeErrors := by
  intro pin pout s iv ov ov' e hs hiv hov hlen hready hencode
  obtain ⟨w1, w2, h2, h3, hw2⟩ := phases_of_ready (length_of_decodes hs hov) hlen hready
  rw [exec_mapEncode, next_error_iff] at hencode
  have h4 : cyclePhase4 s w2.ov = .error e := by
    rw [hw2]
    exact hencode
  exact exec_of_effect_error ((cplNext_error_of_decodes (decodeInputs_ok_iff.2 hiv)
    (decodeOutputs_ok_iff.2 hov)).2 (.inr ⟨w1, h2, .inr ⟨w2, h3, h4⟩⟩))

end Sys2Proof.Proofs.Cycles
end
